-- ==== Sys2Proof/Word.lean ====
section
/-! DEFINITION. The word types of the EME core: bytes, host words, 16-byte blocks and block addresses (spec
00_scope.md rules R10, R12, R13). What is built from them (byte order, field doubling) stands under Machine/. -/

namespace Sys2Proof

/-- An unsigned 8-bit byte, bit 7 the high bit (R12). -/
abbrev Byte := BitVec 8

/-- A host data word, 32 bits (R10). -/
abbrev Word := BitVec 32

/-- A block of 16 bytes, held as the number `int(b)` of R13: byte 0 is bits 7:0, byte 15 is bits 127:120. The cipher
port carries it on 128 wires in this same layout (R162, R163). -/
abbrev Block := BitVec 128

/-- A block address of the command word: 8 bits, every value legal (R10, R115). -/
abbrev BlockAddr := BitVec 8

/-- A byte offset in the host window: 13 bits (R10, R80). -/
abbrev Offset := BitVec 13

end Sys2Proof
end

