-- ==== Sys2Proof/Syntax.lean ====
section
/-! DEFINITION. The command set, version 1: one constructor per row of spec/opcode_table.json (spec 30_encoding.md
rule R112), with the operand fields the row uses. -/

namespace Sys2Proof

/-- A command. Operands are the 8-bit block addresses of the command word, taken unchanged (R116). -/
inductive Instr where
  /-- `NOP`: no operation (R144). -/
  | nop
  /-- `DBL d, s`: the field doubler (R145). -/
  | dbl (d s : BlockAddr)
  /-- `XOR d, a, b`: the XOR unit (R146). -/
  | xor (d a b : BlockAddr)
  /-- `BCE d, s`: one cipher encryption (R171). -/
  | bce (d s : BlockAddr)
  /-- `BCD d, s`: one cipher decryption (R172). -/
  | bcd (d s : BlockAddr)
  /-- `LTGEN`: publish the L-table (R196). -/
  | ltgen
  /-- `EMEE`: EME encryption (R220). -/
  | emee
  /-- `EMED`: EME decryption (R221). -/
  | emed
deriving DecidableEq, Repr, Inhabited

end Sys2Proof
end

