-- ==== Sys2Proof/WellFormed.lean ====
section
/-! DEFINITION. Well-formedness. A term of `Instr` is well-formed whatever its operands are, because every one of the
256 block addresses is valid (spec 30_encoding.md rule R115); what can be ill-formed is a command as the assembler's
text writes it (R119, R120), with decimal block numbers. Its terms and their checks stand here; Decode.lean turns a
well-formed one into an `Instr`. Which 32-bit words are legal (R117) is checked in Decode.lean. -/

namespace Sys2Proof

/-- Every operand value of every constructor is admitted (R115, R116), so nothing is left to check. -/
def Instr.wellFormed : Instr → Bool
  | .nop => true
  | .dbl _ _ => true
  | .xor _ _ _ => true
  | .bce _ _ => true
  | .bcd _ _ => true
  | .ltgen => true
  | .emee => true
  | .emed => true

/-- A block operand as the assembler writes it (R119): `IN<j>`, `OUT<j>` or a raw address `#0xHH`. -/
inductive BlockName where
  | inp (j : Nat)
  | out (j : Nat)
  | raw (a : Nat)
deriving DecidableEq, Repr

/-- `j` is a decimal 0 to 127; a raw address has two hexadecimal digits (R119). -/
def BlockName.wellFormed : BlockName → Bool
  | .inp j => decide (j < 128)
  | .out j => decide (j < 128)
  | .raw a => decide (a < 256)

/-- A command line of the assembler (R119), with the one pseudo-instruction `CLR` (R120). -/
inductive AsmCommand where
  | nop
  | dbl (d s : BlockName)
  | xor (d a b : BlockName)
  | bce (d s : BlockName)
  | bcd (d s : BlockName)
  | ltgen
  | emee
  | emed
  | clr (d : BlockName)
deriving DecidableEq, Repr

/-- A command line is well-formed when each of its operands is. -/
def AsmCommand.wellFormed : AsmCommand → Bool
  | .nop => true
  | .dbl d s => d.wellFormed && s.wellFormed
  | .xor d a b => d.wellFormed && a.wellFormed && b.wellFormed
  | .bce d s => d.wellFormed && s.wellFormed
  | .bcd d s => d.wellFormed && s.wellFormed
  | .ltgen => true
  | .emee => true
  | .emed => true
  | .clr d => d.wellFormed

end Sys2Proof
end

