-- ==== Sys2Proof/Decode.lean ====
section
/-! DEFINITION. The command word: its fields, which words are legal, the decoder (total over all 2^32 words), the
encoder, and the assembler's terms lowered to commands (spec 30_encoding.md rules R110 to R120). -/

namespace Sys2Proof

/-! ## Fields (R110) -/

/-- `OP`, bits 3:0. -/
def fieldOp (w : Word) : BitVec 4 := w.extractLsb' 0 4
/-- `RSV`, bits 7:4. -/
def fieldRsv (w : Word) : BitVec 4 := w.extractLsb' 4 4
/-- `DST`, bits 15:8. -/
def fieldDst (w : Word) : BlockAddr := w.extractLsb' 8 8
/-- `SRCA`, bits 23:16. -/
def fieldSrca (w : Word) : BlockAddr := w.extractLsb' 16 8
/-- `SRCB`, bits 31:24. -/
def fieldSrcb (w : Word) : BlockAddr := w.extractLsb' 24 8

/-- `word = SRCB << 24 | SRCA << 16 | DST << 8 | RSV << 4 | OP` (R110). -/
def packWord (op rsv : BitVec 4) (dst srca srcb : BlockAddr) : Word :=
  (srcb.setWidth 32 <<< 24) ||| (srca.setWidth 32 <<< 16) ||| (dst.setWidth 32 <<< 8)
    ||| (rsv.setWidth 32 <<< 4) ||| op.setWidth 32

/-! ## Legality (R113, R114, R117) -/

/-- The fields that opcode `op` does not use are 0 (R114): bits 31:8 for NOP, LTGEN, EMEE and EMED, SRCB for DBL, BCE
and BCD; XOR uses every field. -/
def unusedFieldsZero (w : Word) : Bool :=
  match (fieldOp w).toNat with
  | 0 | 5 | 6 | 7 => fieldDst w == 0 && fieldSrca w == 0 && fieldSrcb w == 0
  | 1 | 3 | 4 => fieldSrcb w == 0
  | _ => true

/-- `legal(w)` of R117. -/
def legal (w : Word) : Bool :=
  decide ((fieldOp w).toNat ≤ 7) && fieldRsv w == 0 && unusedFieldsZero w

/-- Why a word is illegal. The spec has one answer, `ILLEGAL` (R118); the names say which clause of R117 fails, the
first that does. -/
inductive Illegal where
  /-- `OP` is 8 to 15 (R112). -/
  | reservedOpcode
  /-- `RSV` is not 0 (R113). -/
  | reservedBits
  /-- A field the operation does not use is not 0 (R114). -/
  | unusedField
deriving DecidableEq, Repr

/-! ## Decoding (R112, R118) -/

/-- The command an opcode and the three operand fields select, for the opcodes of R112. -/
def commandOf (op : BitVec 4) (dst srca srcb : BlockAddr) : Option Instr :=
  match op.toNat with
  | 0 => some .nop
  | 1 => some (.dbl dst srca)
  | 2 => some (.xor dst srca srcb)
  | 3 => some (.bce dst srca)
  | 4 => some (.bcd dst srca)
  | 5 => some .ltgen
  | 6 => some .emee
  | 7 => some .emed
  | _ => none

/-- `decode(w)` of R118: total, every illegal word rejected with the clause it breaks. -/
def decode (w : Word) : Except Illegal Instr :=
  match commandOf (fieldOp w) (fieldDst w) (fieldSrca w) (fieldSrcb w) with
  | none => .error .reservedOpcode
  | some i =>
    if fieldRsv w = 0 then
      if unusedFieldsZero w then .ok i else .error .unusedField
    else .error .reservedBits

/-- The command word of a command (R110, R112, R114): unused fields and RSV are 0. -/
def encode : Instr → Word
  | .nop => packWord 0 0 0 0 0
  | .dbl d s => packWord 1 0 d s 0
  | .xor d a b => packWord 2 0 d a b
  | .bce d s => packWord 3 0 d s 0
  | .bcd d s => packWord 4 0 d s 0
  | .ltgen => packWord 5 0 0 0 0
  | .emee => packWord 6 0 0 0 0
  | .emed => packWord 7 0 0 0 0

/-- The command the decoder reads from a word given as a number, of which the low `nbits` bits count: every command is
one 32-bit word (R111), delivered whole by a write to CMD, so there are no further words to lay out. -/
def decodeTableWord (nbits w : Nat) : Option Instr :=
  match decode (BitVec.ofNat 32 (w % 2 ^ nbits)) with
  | .ok i => some i
  | .error _ => none

/-! ## The assembler's terms (R119, R120) -/

/-- `IN<j>` is block address `j`, `OUT<j>` is `0x80 + j`, a raw address is itself (R119). -/
def BlockName.addr : BlockName → BlockAddr
  | .inp j => BitVec.ofNat 8 j
  | .out j => BitVec.ofNat 8 (0x80 + j)
  | .raw a => BitVec.ofNat 8 a

/-- The command an assembler line stands for; `CLR d` is `XOR d, d, d` (R120). An ill-formed line has none. -/
def AsmCommand.lower (c : AsmCommand) : Option Instr :=
  if c.wellFormed then
    match c with
    | .nop => some .nop
    | .dbl d s => some (.dbl d.addr s.addr)
    | .xor d a b => some (.xor d.addr a.addr b.addr)
    | .bce d s => some (.bce d.addr s.addr)
    | .bcd d s => some (.bcd d.addr s.addr)
    | .ltgen => some .ltgen
    | .emee => some .emee
    | .emed => some .emed
    | .clr d => some (.xor d.addr d.addr d.addr)
  else none

end Sys2Proof
end

