-- ==== Sys2Proof/Machine/Types.lean ====
section
/-! DEFINITION. The named things of the EME core's state: directions, sequencer phases, error codes, the latched
command, the pending request, host accesses and their answers, cipher responses, and the outside events
(spec 10_state.md, 20_memory.md, 41_cipher_sequencer.md, 60_exceptions.md). -/

namespace Sys2Proof.Machine

/-- A cipher direction (R16, R51): ENC is the capability's `encrypt`, DEC its `decrypt`. -/
inductive Dir where
  | enc
  | dec
deriving DecidableEq, Repr, Inhabited

/-- The sequencer's phase (R50). -/
inductive Phase where
  /-- No command runs. -/
  | idle
  /-- A command has been accepted and not yet decoded. -/
  | exec
  /-- Request number `k` is presented on the cipher port. -/
  | issue
  /-- Request `k` has been accepted and its response is awaited. -/
  | await
deriving DecidableEq, Repr, Inhabited

/-- The error codes of R251; codes 7 to 15 are reserved and never reported. -/
inductive ErrCode where
  /-- 0: success. -/
  | none
  /-- 1: `bc_block_size != 16`. -/
  | invalidBlockSize
  /-- 2: `TLEN != 16`. -/
  | invalidTweakLength
  /-- 3: MLEN is no multiple of 16 in 16 .. 2048. -/
  | invalidMessageLength
  /-- 4: allocated and never produced (R147, R252). -/
  | bufferLengthMismatch
  /-- 5: a call answered with `bc_rsp_err = 1`. -/
  | underlyingCipherFailure
  /-- 6: an accepted word fails `legal`. -/
  | illegalCommand
deriving DecidableEq, Repr, Inhabited

/-- CUR, the latched command (R51). -/
structure Cur where
  op   : BitVec 4
  dst  : BlockAddr
  srca : BlockAddr
  srcb : BlockAddr
  dir  : Dir
deriving DecidableEq, Repr, Inhabited

/-- REQ, the pending cipher request (R56). -/
structure Req where
  dir  : Dir
  data : Block
deriving DecidableEq, Repr, Inhabited

/-- A response on the cipher port with `bc_rsp_valid = 1`: `bc_rsp_err` and `bc_rsp_data` (R163). -/
structure Response where
  err  : Bool
  data : Block
deriving DecidableEq, Repr

/-- One host access, the tuple `(h_write, h_size, h_addr, h_wdata)` (R83). -/
structure HostAccess where
  write : Bool
  size  : BitVec 2
  addr  : Offset
  wdata : Word
deriving DecidableEq, Repr

/-- The answer to a host access, `(h_rdata, h_err)` (R83). -/
structure HostAnswer where
  rdata : Word
  err   : Bool
deriving DecidableEq, Repr

/-- What a word of the host window belongs to (R82). -/
inductive Region where
  | id
  | ctrl
  | status
  | cmd
  | mlen
  | tlen
  | calls
  | bcsize
  /-- Word `i` (0 .. 3) of TWEAK. -/
  | tweak (i : Nat)
  | reserved
  | inBuffer
  | outBuffer
deriving DecidableEq, Repr

/-- One atomic step of an agent (R93), or a change on an input pin (R58). -/
inductive Event where
  /-- The host presents one access (R83). -/
  | host (a : HostAccess)
  /-- The sequencer takes a step of its own: the EXEC step (R174, R175). -/
  | sequencer
  /-- The cipher agent asserts `bc_req_ready` (R162). -/
  | reqReady
  /-- The cipher agent asserts `bc_rsp_valid` (R163). -/
  | rsp (r : Response)
  /-- The `bc_block_size` port carries a new value (R161, R287). -/
  | blockSize (v : BitVec 16)
  /-- `rst_n` goes to 0 (R280). -/
  | resetLow
  /-- `rst_n` goes to 1 (R280). -/
  | resetHigh
  /-- A step in which no agent does anything (R175, R275). -/
  | quiet
deriving DecidableEq, Repr

/-- The internal scratch of the sequencer (R51 to R56). `lt` and `w` list the blocks written, by index, in rising
order; a block not listed holds an unspecified value. -/
structure Scratch where
  /-- CUR, the latched command (R51). -/
  cur : Cur
  /-- `m`, the block count, 8 bits (R52). -/
  m   : BitVec 8
  /-- LT[0] .. LT[127], the L-table store (R53). -/
  lt  : List (Nat × Block)
  /-- W[0] .. W[127], the working buffer (R54). -/
  w   : List (Nat × Block)
  /-- MP, the fold's value (R55, R214). -/
  mp  : Block
  /-- MC, its transform (R55, R214). -/
  mc  : Block
  /-- M, the doubling chain's value (R55, R215): the spec's `M`. -/
  mm  : Block
  /-- X, the closure's running value (R55, R216). -/
  x   : Block
  /-- LW, the L-table's working value (R55, R191). -/
  lw  : Block
  /-- REQ, the pending request (R56). -/
  req : Req
deriving DecidableEq, Repr

end Sys2Proof.Machine
end

