-- ==== Sys2Proof/Config.lean ====
section
/-! DEFINITION. What the spec leaves OPEN or unspecified (spec 00_scope.md rule R11, 93_implementation_defined.md U1 to
U9; log entries 20 and 21), as constants without a body: nothing can evaluate them or prove a value of them, so a theorem
about the machine holds whatever they are. `n` is the draw, a counter that State holds (`State.draws`, `State.epoch`). -/

namespace Sys2Proof.Machine

/-- `CipherEnc`, the key-bound encryption of the external cipher (R11, R167, R170; U2). -/
opaque Config.cipherEnc : Block → Block

/-- `CipherDec`, the key-bound decryption (R11, R167, R170; U2). -/
opaque Config.cipherDec : Block → Block

/-- `CipherOutcome`, first part (R11; U4): whether the cipher agent accepts the presented request at draw `n`. -/
opaque Config.cipherAccepts : Nat → Bool

/-- `CipherOutcome`, second part (R11; U3, U4): whether the cipher agent answers the accepted request at draw `n` (`none`:
not yet), and if so with `bc_rsp_err` 0 or 1. -/
opaque Config.cipherAnswers : Nat → Option Bool

/-- `IN_RESET` (R11, R281; U8): byte `i` of the IN buffer after reset number `n`, until it is written. -/
opaque Config.inReset : Nat → Nat → Byte

/-- `OUT_RESET` (R11, R281; U8): byte `i` of the OUT buffer after reset number `n`, until it is written. -/
opaque Config.outReset : Nat → Nat → Byte

/-- `EME_BASE` (R11, R81; U1): the base address of the window in the platform's address space. -/
opaque Config.emeBase : Nat

/-- An unspecified latched command (R51, R57; U9). -/
opaque Config.freeCur : Nat → Cur

/-- An unspecified pending request (R56, R57; U9). -/
opaque Config.freeReq : Nat → Req

/-- An unspecified block count (R52, R57; U9). -/
opaque Config.freeCount : Nat → BitVec 8

/-- An unspecified call index (R50; U9). -/
opaque Config.freeIndex : Nat → Nat

/-- An unspecified block in slot `i` of the scratch (R53 to R55, R57; U9). -/
opaque Config.freeBlock : Nat → Nat → Block

/-- What `bc_req_dir` and `bc_req_data` carry at draw `n` while `bc_req_valid = 0` (R56, R162 give them only in ISSUE; log
entry 20). -/
opaque Config.idleReq : Nat → Req

/-- What `h_rdata` carries at draw `n` in the answer to an access made while `rst_n = 0`, of which R280 gives only
`h_err = 1` (log entry 21). -/
opaque Config.resetRdata : Nat → Word

end Sys2Proof.Machine
end

