-- ==== Sys2Proof/Machine/State.lean ====
section
/-! DEFINITION. The state of the EME core: every register, buffer, internal element and held port of spec 10_state.md
(rules R31 to R58), the faults and refusals, and the state after reset (R59, R280). Plain data. -/

namespace Sys2Proof.Machine

/-- The machine has no fault: an error of a command ends that command and is recorded in STATUS (R250, R255), and a
bus error is an answer to the host (R263), so every step answers a next state. Nobody raises one; this type is empty. -/
inductive Fault where
deriving DecidableEq, Repr

/-- Why a step has no meaning. -/
inductive Refusal where
  /-- Raised by `exec` alone, for a command of the table that has no meaning yet. Safe: the run stops. No arm of
  `exec` raises it. -/
  | notModelled (mnemonic : String)
deriving DecidableEq, Repr

/-- The state of the block, with the ports it is driven by. -/
structure State where
  /-- CTRL.IRQ_EN (R32). -/
  irqEn       : Bool
  /-- STATUS.BUSY (R33). -/
  busy        : Bool
  /-- STATUS.DONE (R34). -/
  done        : Bool
  /-- STATUS.RESULT_VALID (R35). -/
  resultValid : Bool
  /-- STATUS.OVR (R36). -/
  ovr         : Bool
  /-- STATUS.ERRCODE (R37, R251). -/
  errcode     : ErrCode
  /-- LASTCMD, read back through CMD (R39). -/
  lastcmd     : Word
  /-- MLEN (R40). -/
  mlen        : Word
  /-- TLEN (R41). -/
  tlen        : Word
  /-- CALLS (R42). -/
  calls       : Word
  /-- TWEAK (R44). -/
  tweak       : Block
  /-- The bytes written to IN and OUT since reset, by window offset (R45, R46, R281), in rising order. -/
  mem         : List Host.Cell
  /-- The sequencer's phase (R50). -/
  phase       : Phase
  /-- The call index `k`, 0 .. 257 (R50). -/
  k           : Nat
  /-- CUR, m, LT, W, MP, MC, M, X, LW, REQ (R51 to R56). -/
  scratch     : Scratch
  /-- `bc_block_size[15:0]`, the input port's value (R58, R161). -/
  bcBlockSize : BitVec 16
  /-- `rst_n`, the input port's value: false while the block is held in reset (R58, R280). -/
  rstN        : Bool
  /-- `bc_rsp_valid`, `bc_rsp_err`, `bc_rsp_data` during a response step; `none` is `bc_rsp_valid = 0` (R58, R163). -/
  rsp         : Option Response
  /-- `h_rdata`, `h_err`: the answer to the latest host access (R58, R83). -/
  hAnswer     : HostAnswer
  /-- The outside events still to come, the next one first (R93). The model's own field. -/
  inputs      : List Event
  /-- How many free values have been drawn. The model's own field. -/
  draws       : Nat
  /-- How many resets there have been. The model's own field. -/
  epoch       : Nat
deriving DecidableEq, Repr

/-- The scratch at the model's reset value: everything zero, nothing written (DESIGN CHOICE, log entry 3; R59 leaves
it unspecified). -/
def Scratch.reset : Scratch :=
  { cur := { op := 0, dst := 0, srca := 0, srcb := 0, dir := .enc }
    m := 0, lt := [], w := [], mp := 0, mc := 0, mm := 0, x := 0, lw := 0
    req := { dir := .enc, data := 0 } }

/-- The state right after reset is released (R59, R280): every register at its stated value, IN and OUT unwritten, the
sequencer idle. `bcBlockSize`, `hAnswer`, the scratch and the model's own fields have the values of log entries 3, 4, 5
and 6. -/
def State.reset : State :=
  { irqEn := false, busy := false, done := false, resultValid := false, ovr := false
    errcode := .none
    lastcmd := 0, mlen := 0, tlen := 16, calls := 0
    tweak := 0
    mem := []
    phase := .idle, k := 0
    scratch := Scratch.reset
    bcBlockSize := 16
    rstN := true
    rsp := none
    hAnswer := { rdata := 0, err := false }
    inputs := [], draws := 0, epoch := 0 }

end Sys2Proof.Machine
end

