-- ==== Sys2Proof/Machine/Bytes.lean ====
section
/-! DEFINITION. Byte order: the bytes of a block and of a host word, in both directions (spec 00_scope.md rule R13,
20_memory.md rules R86, R87), the field doubler and the XOR unit on blocks (40_field_ops.md rules R140, R143), and the
loop of the spec's pseudocode (R14). -/

namespace Sys2Proof.Machine

/-! ## Bytes of a block -/

/-- `b[k]`, byte `k` of a block (R12, R13). -/
def byteOf (b : Block) (k : Nat) : Byte := b.extractLsb' (8 * k) 8

/-- The block whose first `n` bytes are `f 0 .. f (n - 1)` and whose other bytes are 0. -/
def blockOfFirst (f : Nat → Byte) : Nat → Block
  | 0 => 0
  | n + 1 => blockOfFirst f n ||| ((f n).setWidth 128 <<< (8 * n))

/-- The block of the 16 bytes `f 0 .. f 15` (R12, R13). -/
def blockOf (f : Nat → Byte) : Block := blockOfFirst f 16

/-! ## Bytes of a host word: little-endian (R86) -/

/-- The byte at offset `a + i` of the word at `a`: bits `[8i+7 : 8i]` (R86). -/
def wordByte (v : Word) (i : Nat) : Byte := v.extractLsb' (8 * i) 8

/-- `byte(a) | byte(a+1) << 8 | byte(a+2) << 16 | byte(a+3) << 24` (R86). -/
def wordOf (b0 b1 b2 b3 : Byte) : Word :=
  b0.setWidth 32 ||| (b1.setWidth 32 <<< 8) ||| (b2.setWidth 32 <<< 16) ||| (b3.setWidth 32 <<< 24)

/-- Word `i` (0 .. 3) of a block: its bytes `4i .. 4i+3` (R86, R87). -/
def blockWord (b : Block) (i : Nat) : Word :=
  wordOf (byteOf b (4 * i)) (byteOf b (4 * i + 1)) (byteOf b (4 * i + 2)) (byteOf b (4 * i + 3))

/-- The block with its bytes `4i .. 4i+3` replaced by those of the word `v` (R85, R86). -/
def setBlockWord (b : Block) (i : Nat) (v : Word) : Block :=
  blockOf fun k => if k / 4 = i then wordByte v (k % 4) else byteOf b k

/-! ## The datapath's two functions -/

/-- The high bit of a byte as 0 or 1: `b[j-1] >= 0x80` (R140). -/
def highBit (x : Byte) : Byte := if 0x80#8 ≤ x then 1 else 0

/-- `double(b)`, the byte procedure of R140. -/
def double (b : Block) : Block :=
  blockOf fun j =>
    if j = 0 then (2#8 * byteOf b 0) ^^^ (if 0x80#8 ≤ byteOf b 15 then 0x87 else 0)
    else 2#8 * byteOf b j + highBit (byteOf b (j - 1))

/-- `a XOR b`, byte by byte (R14, R143). -/
def xorBlocks (a b : Block) : Block := blockOf fun k => byteOf a k ^^^ byteOf b k

/-- `for j = start .. start + n - 1: a <- f j a`, in that order; nothing runs when `n = 0` (R14). -/
def forUp {α : Type} (f : Nat → α → α) : (n start : Nat) → α → α
  | 0, _, a => a
  | n + 1, start, a => forUp f n (start + 1) (f start a)

end Sys2Proof.Machine
end

