-- ==== Sys2Proof/Machine/Flags.lean ====
section
/-! DEFINITION. The status register and the signals computed from the state: the error codes, the value STATUS reads,
the effect of a write to STATUS, CTRL, the interrupt and the cipher-request port (spec 10_state.md rules R32 to R38,
R47; 41_cipher_sequencer.md rule R162; 60_exceptions.md rules R251, R264). -/

namespace Sys2Proof.Machine

/-- The code of an error in STATUS.ERRCODE (R251). -/
def ErrCode.code : ErrCode → BitVec 4
  | .none => 0
  | .invalidBlockSize => 1
  | .invalidTweakLength => 2
  | .invalidMessageLength => 3
  | .bufferLengthMismatch => 4
  | .underlyingCipherFailure => 5
  | .illegalCommand => 6

/-- A bit as a 32-bit word. -/
def bitWord (b : Bool) : Word := if b then 1 else 0

/-- The value read from STATUS: `ERRCODE << 8 | OVR << 3 | RESULT_VALID << 2 | DONE << 1 | BUSY` (R38). -/
def State.statusWord (s : State) : Word :=
  (s.errcode.code.setWidth 32 <<< 8) ||| (bitWord s.ovr <<< 3) ||| (bitWord s.resultValid <<< 2)
    ||| (bitWord s.done <<< 1) ||| bitWord s.busy

/-- A host write of `v` to STATUS: bit 1 clears DONE, bit 3 clears OVR, every other bit is ignored (R38). -/
def State.writeStatus (s : State) (v : Word) : State :=
  { s with done := s.done && !v.getLsbD 1, ovr := s.ovr && !v.getLsbD 3 }

/-- The value read from CTRL: IRQ_EN in bit 0, the reserved bits 0 (R32). -/
def State.ctrlWord (s : State) : Word := bitWord s.irqEn

/-- A host write of `v` to CTRL: bit 0 to IRQ_EN, the rest ignored (R32). -/
def State.writeCtrl (s : State) (v : Word) : State := { s with irqEn := v.getLsbD 0 }

/-- `irq = CTRL.IRQ_EN AND STATUS.DONE`, the output port (R47, R264). -/
def State.irq (s : State) : Bool := s.irqEn && s.done

/-- `bc_req_valid`: 1 exactly while the phase is ISSUE (R162). -/
def State.bcReqValid (s : State) : Bool := s.phase == .issue

/-- The request on the cipher port: REQ while the phase is ISSUE (R56, R162). In another phase the spec gives
`bc_req_valid = 0` and nothing more, and the model leaves the rest of the port a free value (DESIGN CHOICE, log entry
20). -/
def State.portReq (s : State) : Req := if s.phase = .issue then s.scratch.req else Config.idleReq s.draws

/-- `bc_req_dir`: 0 for ENC, 1 for DEC (R162); free unless `bc_req_valid = 1` (DESIGN CHOICE, log entry 20). -/
def State.bcReqDir (s : State) : Bool := s.portReq.dir == .dec

/-- `bc_req_data[127:0]` (R162); free unless `bc_req_valid = 1` (DESIGN CHOICE, log entry 20). -/
def State.bcReqData (s : State) : Block := s.portReq.data

end Sys2Proof.Machine
end

