-- ==== Sys2Proof/Machine/Ops.lean ====
section
/-! DEFINITION. The named operations the command meanings share: sparse stores, the bytes of IN and OUT, the end of a
command with success or with an error (the machine's one form of exception, with its return), the cipher call, the
accept of a command, the precondition checks, and reset (spec 20_memory.md, 41_cipher_sequencer.md rules R162 to R175,
60_exceptions.md rules R254 to R268, 70_reset_and_hazards.md rules R280 to R282). -/

namespace Sys2Proof.Machine

/-! ## Sparse stores: key and value pairs in rising order of the keys -/

/-- The value listed at key `a`. -/
def cellAt {α : Type} (a : Nat) : List (Nat × α) → Option α
  | [] => none
  | c :: l => if c.1 = a then some c.2 else cellAt a l

/-- The store with `v` at key `a`, in its place. -/
def putCell {α : Type} (a : Nat) (v : α) : List (Nat × α) → List (Nat × α)
  | [] => [(a, v)]
  | c :: l => if a < c.1 then (a, v) :: c :: l else if a = c.1 then (a, v) :: l else c :: putCell a v l

/-- The keys are strictly rising. -/
abbrev Rising {α : Type} (l : List (Nat × α)) : Prop := l.Pairwise fun c d => c.1 < d.1

/-! ## The bytes of IN and OUT (R45, R46, R87) -/

/-- The canonical form of the memory: offsets strictly rising, each in IN or OUT. An offset not listed holds no value,
so no listed entry equals what an unlisted one reads as. -/
abbrev Memory.wf (m : List Host.Cell) : Prop := Rising m ∧ ∀ c ∈ m, 0x1000 ≤ c.1 ∧ c.1 < 0x2000

/-- What a byte of IN or OUT that nothing has written since the last reset reads as: an unspecified byte, fixed until
it is written (R281, `IN_RESET` and `OUT_RESET`; log entry 1). -/
def unwrittenByte (epoch a : Nat) : Byte :=
  if a < 0x1800 then Config.inReset epoch (a - 0x1000) else Config.outReset epoch (a - 0x1800)

/-- The byte at window offset `a` of IN or OUT. -/
def State.byteAt (s : State) (a : Nat) : Byte := (cellAt a s.mem).getD (unwrittenByte s.epoch a)

/-- Stores one byte at window offset `a` of IN or OUT. -/
def State.putByte (s : State) (a : Nat) (v : Byte) : State := { s with mem := putCell a v s.mem }

/-- The block of the 16 bytes from window offset `a` on (R87). -/
def State.blockAt (s : State) (a : Nat) : Block := blockOf fun k => s.byteAt (a + k)

/-- Stores the 16 bytes of a block from window offset `a` on (R87). -/
def State.putBlock (s : State) (a : Nat) (b : Block) : State :=
  forUp (fun k t => t.putByte (a + k) (byteOf b k)) 16 0 s

/-! ## The sequencer's scratch stores LT and W (R53, R54) -/

/-- `LT[i]`; an entry the running command has not written is unspecified (R53, U9). -/
def Scratch.ltAt (c : Scratch) (i : Nat) : Block := (cellAt i c.lt).getD (Config.freeBlock i 0)

/-- `LT[i] <- b`. -/
def Scratch.putLt (c : Scratch) (i : Nat) (b : Block) : Scratch := { c with lt := putCell i b c.lt }

/-- `W[j]`; an entry the running command has not written is unspecified (R54, U9). -/
def Scratch.wAt (c : Scratch) (j : Nat) : Block := (cellAt j c.w).getD (Config.freeBlock j 1)

/-- `W[j] <- b`. -/
def Scratch.putW (c : Scratch) (j : Nat) (b : Block) : Scratch := { c with w := putCell j b c.w }

/-- The scratch when no rule says what it holds: after a command, and after a reset in a run (R57, R59, R255). -/
def Scratch.unspecified (n : Nat) : Scratch :=
  { cur := Config.freeCur n
    m := Config.freeCount n
    lt := []
    w := []
    mp := Config.freeBlock n 2
    mc := Config.freeBlock n 3
    mm := Config.freeBlock n 4
    x := Config.freeBlock n 5
    lw := Config.freeBlock n 6
    req := Config.freeReq n }

/-- Leaves the scratch and the call index unspecified, the index within its range 0 .. 257 (R50, R57, R255). -/
def State.releaseScratch (s : State) : State :=
  { s with scratch := Scratch.unspecified s.draws, k := Config.freeIndex s.draws % 258, draws := s.draws + 1 }

/-! ## The two ends of a command -/

/-- `complete()`, the successful end (R254). After it the block is idle and accepts the next command (R268). -/
def State.complete (s : State) : State :=
  { s.releaseScratch with busy := false, done := true, resultValid := true, errcode := .none, phase := .idle }

/-- `raise CommandError(e)`, the error end (R255): taking the machine's one kind of exception. ERRCODE, LASTCMD and
CALLS are what it records (R253, R267); control goes nowhere, and there is no return: the block is idle and accepts the
next command (R268). -/
def State.raiseError (s : State) (e : ErrCode) : State :=
  { s.releaseScratch with busy := false, done := true, resultValid := false, errcode := e, phase := .idle }

/-! ## Cipher calls (R162 to R165) -/

/-- The start of `CipherCall(dir, x)` as call number `n`: REQ is set and the phase becomes ISSUE (R164, R175). -/
def State.cipherCall (s : State) (n : Nat) (dir : Dir) (x : Block) : State :=
  { s with scratch := { s.scratch with req := { dir := dir, data := x } }, k := n, phase := .issue }

/-- The accept event: in ISSUE, `CALLS <- CALLS + 1` and the phase becomes AWAIT (R162); a ready signal in another phase
is ignored (R166). -/
def State.requestAccepted (s : State) : State :=
  if s.phase = .issue then { s with calls := s.calls + 1, phase := .await } else s

/-- A command that makes no cipher call: its pseudocode runs in the EXEC step (R174). In another phase it has no
sequencer step (R175). -/
def inExec (s : State) (body : State → State) : Host.Outcome State Fault Refusal :=
  match s.phase with
  | .exec => .next (body s)
  | .idle => .next s
  | .issue => .next s
  | .await => .next s

/-- A command with cipher calls (R164, R175). `start` is its pseudocode up to the first call, run in the EXEC step.
`answered` is its pseudocode from a call's answer up to the next call or the end, run in the response step unless the
response is a failure, which raises UNDERLYING_CIPHER_FAILURE (R261). With no response on the port, and in another phase,
there is no sequencer step. -/
def withCalls (s : State) (start : State → State) (answered : Block → State → State) :
    Host.Outcome State Fault Refusal :=
  match s.phase with
  | .exec => .next (start s)
  | .idle => .next s
  | .issue => .next s
  | .await =>
    match s.rsp with
    | none => .next s
    | some r => .next (if r.err then s.raiseError .underlyingCipherFailure else answered r.data s)

/-- Answers the outcome's next state after `f`. -/
def mapNext (f : State → State) : Host.Outcome State Fault Refusal → Host.Outcome State Fault Refusal
  | .next s => .next (f s)
  | .fault r => .fault r
  | .refused r => .refused r

/-! ## Precondition checks (R256 to R260) -/

/-- `check_block_size()` (R256): the error it raises, if any. -/
def State.checkBlockSize (s : State) : Option ErrCode :=
  if s.bcBlockSize = 16 then none else some .invalidBlockSize

/-- `check_tweak()`, on the whole 32-bit TLEN (R257). -/
def State.checkTweak (s : State) : Option ErrCode :=
  if s.tlen = 16 then none else some .invalidTweakLength

/-- `check_message_length()`, on the 32-bit unsigned MLEN (R258). -/
def State.checkMessageLength (s : State) : Option ErrCode :=
  if s.mlen.toNat % 16 ≠ 0 ∨ s.mlen.toNat / 16 = 0 ∨ s.mlen.toNat / 16 > 128 then some .invalidMessageLength else none

/-- The first error of a list of checks in order of priority (R259). -/
def firstError : List (Option ErrCode) → Option ErrCode
  | [] => none
  | some e :: _ => some e
  | none :: l => firstError l

/-- Runs `body` if every check passes, else raises the first error, before any cipher call (R260). -/
def State.checked (s : State) (checks : List (Option ErrCode)) (body : State → State) : State :=
  match firstError checks with
  | some e => s.raiseError e
  | none => body s

/-- `m <- MLEN div 16`, the second half of `check_message_length()` (R258). -/
def State.latchCount (s : State) : State :=
  { s with scratch := { s.scratch with m := BitVec.ofNat 8 (s.mlen.toNat / 16) } }

/-! ## Accept (R173) -/

/-- CUR as the accept of the word `v` latches it (R51, R173). -/
def latchedCommand (v : Word) : Cur :=
  { op := fieldOp v
    dst := fieldDst v
    srca := fieldSrca v
    srcb := fieldSrcb v
    dir := if fieldOp v = 4 ∨ fieldOp v = 7 then .dec else .enc }

/-- The accept of command word `v` (R173). -/
def State.accept (s : State) (v : Word) : State :=
  { s with
    lastcmd := v
    scratch := { s.scratch with cur := latchedCommand v }
    busy := true, done := false, resultValid := false, errcode := .none, calls := 0
    phase := .exec }

/-- The command CUR holds (R51, R112); none for the opcodes 8 to 15. -/
def State.currentCommand (s : State) : Option Instr :=
  commandOf s.scratch.cur.op s.scratch.cur.dst s.scratch.cur.srca s.scratch.cur.srcb

/-! ## Reset (R280 to R282) -/

/-- Every host-visible register takes its reset value, the sequencer goes to IDLE with `k = 0`, the running command is
abandoned, the scratch and the contents of IN and OUT become unspecified (R59, R280, R281, R282). -/
def State.resetRegisters (s : State) : State :=
  { s.releaseScratch with
    irqEn := false, busy := false, done := false, resultValid := false, ovr := false
    errcode := .none
    lastcmd := 0, mlen := 0, tlen := 16, calls := 0
    tweak := 0
    mem := []
    phase := .idle, k := 0
    epoch := s.epoch + 1 }

end Sys2Proof.Machine
end

