-- ==== Sys2Proof/Machine/Operands.lean ====
section
/-! DEFINITION. The operands of the commands: the block address space (spec 20_memory.md rule R80, 30_encoding.md rule
R115), and the blocks IN[j] and OUT[j] that LTGEN, EMEE and EMED address by index (R15). -/

namespace Sys2Proof.Machine

/-- The window offset of byte 0 of IN[j] (R45, R87). -/
def inOffset (j : Nat) : Nat := 0x1000 + 16 * j

/-- The window offset of byte 0 of OUT[j] (R46, R87). -/
def outOffset (j : Nat) : Nat := 0x1800 + 16 * j

/-- The window offset of byte 0 of `BLK(a)`: `IN[a[6:0]]` when `a[7] = 0`, `OUT[a[6:0]]` when `a[7] = 1` (R115). -/
def blkOffset (a : BlockAddr) : Nat :=
  if a.getLsbD 7 then outOffset (a.extractLsb' 0 7).toNat else inOffset (a.extractLsb' 0 7).toNat

/-- `BLK(a)`, the operand read (R115): the block's 16 bytes. -/
def State.blk (s : State) (a : BlockAddr) : Block := s.blockAt (blkOffset a)

/-- `BLK(a) <- b`, the operand write (R115): all 16 bytes. -/
def State.putBlk (s : State) (a : BlockAddr) (b : Block) : State := s.putBlock (blkOffset a) b

/-- `IN[j]`. -/
def State.inBlock (s : State) (j : Nat) : Block := s.blockAt (inOffset j)

/-- `OUT[j]`. -/
def State.outBlock (s : State) (j : Nat) : Block := s.blockAt (outOffset j)

/-- The commit `for j = 0..m-1: OUT[j] <- f j`, in one step (R92, R196, R218). -/
def State.commitOut (s : State) (m : Nat) (f : Nat → Block) : State :=
  forUp (fun j t => t.putBlock (outOffset j) (f j)) m 0 s

end Sys2Proof.Machine
end

