-- ==== Sys2Proof/Machine/Cipher.lean ====
section
/-! DEFINITION. The single-call commands BCE and BCD (spec 41_cipher_sequencer.md rules R171, R172). -/

namespace Sys2Proof.Machine

/-- The pseudocode of a single-call command up to its call: `check_block_size(); CipherCall(dir, BLK(s))`. -/
def singleCallStart (dir : Dir) (a : BlockAddr) (s : State) : State :=
  s.checked [s.checkBlockSize] fun s => s.cipherCall 0 dir (s.blk a)

/-- The pseudocode of a single-call command after its call answered `y`: `BLK(d) <- y; complete()`. -/
def singleCallAnswered (d : BlockAddr) (y : Block) (s : State) : State := (s.putBlk d y).complete

/-- `BCE d, s`: one cipher encryption (R171). -/
def execBce (d a : BlockAddr) (s : State) : Host.Outcome State Fault Refusal :=
  withCalls s (singleCallStart .enc a) (singleCallAnswered d)

/-- `BCD d, s`: one cipher decryption (R172). -/
def execBcd (d a : BlockAddr) (s : State) : Host.Outcome State Fault Refusal :=
  withCalls s (singleCallStart .dec a) (singleCallAnswered d)

end Sys2Proof.Machine
end

