-- ==== Sys2Proof/Machine/Datapath.lean ====
section
/-! DEFINITION. The datapath commands NOP, DBL and XOR (spec 40_field_ops.md rules R144 to R146). -/

namespace Sys2Proof.Machine

/-- `NOP`: `complete()` (R144). -/
def execNop (s : State) : Host.Outcome State Fault Refusal := inExec s State.complete

/-- `DBL d, s`: `BLK(d) <- double(BLK(s)); complete()`, in one step (R145). -/
def execDbl (d a : BlockAddr) (s : State) : Host.Outcome State Fault Refusal :=
  inExec s fun s => (s.putBlk d (double (s.blk a))).complete

/-- `XOR d, a, b`: `BLK(d) <- BLK(a) XOR BLK(b); complete()`, in one step (R146). -/
def execXor (d a b : BlockAddr) (s : State) : Host.Outcome State Fault Refusal :=
  inExec s fun s => (s.putBlk d (xorBlocks (s.blk a) (s.blk b))).complete

end Sys2Proof.Machine
end

