-- ==== Sys2Proof/Machine/LTable.lean ====
section
/-! DEFINITION. The L-table generator and the command LTGEN (spec 42_ltable.md rules R190 to R196). -/

namespace Sys2Proof.Machine

/-- The body of `GenL`'s loop: `LW <- double(LW); LT[i] <- LW` (R191). -/
def genLStep (i : Nat) (c : Scratch) : Scratch :=
  { c with lw := double c.lw, lt := putCell i (double c.lw) c.lt }

/-- `GenL(m)` after its call answered `e0`: `LW <- double(E0); LT[0] <- LW`, then the loop for `i = 1..m-1` (R191). -/
def genL (m : Nat) (e0 : Block) (c : Scratch) : Scratch :=
  forUp genLStep (m - 1) 1 { c with lw := double e0, lt := putCell 0 (double e0) c.lt }

/-- The sequencer's part of `GenL(m)` in the response step of call 0. -/
def State.genL (s : State) (e0 : Block) : State :=
  { s with scratch := Machine.genL s.scratch.m.toNat e0 s.scratch }

/-- LTGEN up to its call: block size, then message length, then the call of `GenL`, always ENC of `0^16` (R191, R196). -/
def ltgenStart (s : State) : State :=
  s.checked [s.checkBlockSize, s.checkMessageLength] fun s => s.latchCount.cipherCall 0 .enc 0

/-- LTGEN after its call answered `e0`: the table, its commit to OUT[0 .. m-1], `complete()` (R196). -/
def ltgenAnswered (e0 : Block) (s : State) : State :=
  ((s.genL e0).commitOut s.scratch.m.toNat (s.genL e0).scratch.ltAt).complete

/-- `LTGEN`: publish the L-table (R196). -/
def execLtgen (s : State) : Host.Outcome State Fault Refusal := withCalls s ltgenStart ltgenAnswered

end Sys2Proof.Machine
end

