-- ==== Sys2Proof/Machine/Mixer.lean ====
section
/-! DEFINITION. The three-pass EME mixer, one routine `EME(dir)` for both directions, and the commands EMEE and EMED
(spec 43_eme_mixer.md rules R210 to R221). Call numbers are those of R219. -/

namespace Sys2Proof.Machine

/-- `EME(dir)` up to its first call: block size, tweak length, message length, then `GenL`'s call, ENC of `0^16` in both
directions (R211, R212, R222). -/
def emeStart (s : State) : State :=
  s.checked [s.checkBlockSize, s.checkTweak, s.checkMessageLength] fun s => s.latchCount.cipherCall 0 .enc 0

/-- The call of pass 1 for block `j`, call number `1 + j`: `CipherCall(dir, IN[j] XOR LT[j])` (R213). -/
def pass1Call (dir : Dir) (j : Nat) (s : State) : State :=
  s.cipherCall (1 + j) dir (xorBlocks (s.inBlock j) (s.scratch.ltAt j))

/-- The fold's `MP`: `W[0] XOR T`, then `XOR W[j]` for `j = 1..m-1` in order (R214). -/
def foldMp (m : Nat) (t : Block) (c : Scratch) : Block :=
  forUp (fun j acc => xorBlocks acc (c.wAt j)) (m - 1) 1 (xorBlocks (c.wAt 0) t)

/-- The fold up to its call, number `m + 1`: `CipherCall(dir, MP)` (R214). -/
def foldCall (dir : Dir) (s : State) : State :=
  let mp := foldMp s.scratch.m.toNat s.tweak s.scratch
  { s with scratch := { s.scratch with mp := mp } }.cipherCall (s.scratch.m.toNat + 1) dir mp

/-- The body of pass 2's loop: `M <- double(M); W[j] <- W[j] XOR M` (R215). -/
def pass2Step (j : Nat) (c : Scratch) : Scratch :=
  { c with mm := double c.mm, w := putCell j (xorBlocks (c.wAt j) (double c.mm)) c.w }

/-- The body of the closure's loop: `X <- X XOR W[j]` (R216). -/
def closureStep (j : Nat) (c : Scratch) : Scratch := { c with x := xorBlocks c.x (c.wAt j) }

/-- From the fold's answer to pass 3: `MC <- y; M <- MP XOR MC` (R214), pass 2 for `j = 1..m-1` (R215), the closure
`X <- MC XOR T`, its loop, `W[0] <- X` (R216). -/
def mixScratch (m : Nat) (t y : Block) (c : Scratch) : Scratch :=
  let c2 := forUp pass2Step (m - 1) 1 { c with mc := y, mm := xorBlocks c.mp y }
  let c3 := forUp closureStep (m - 1) 1 { c2 with x := xorBlocks y t }
  c3.putW 0 c3.x

/-- The call of pass 3 for block `j`, call number `m + 2 + j`: `CipherCall(dir, W[j])` (R217). -/
def pass3Call (dir : Dir) (j : Nat) (s : State) : State :=
  s.cipherCall (s.scratch.m.toNat + 2 + j) dir (s.scratch.wAt j)

/-- The answer to call 0: the L-table, then pass 1 from block 0 on (R212, R213). -/
def emeTable (dir : Dir) (y : Block) (s : State) : State := pass1Call dir 0 (s.genL y)

/-- The answer to pass 1's call for block `j`: `W[j] <- y`, then the next block's call or the fold (R213, R214). -/
def emePass1 (dir : Dir) (j : Nat) (y : Block) (s : State) : State :=
  let s' := { s with scratch := s.scratch.putW j y }
  if j + 1 < s.scratch.m.toNat then pass1Call dir (j + 1) s' else foldCall dir s'

/-- The answer to the fold's call: pass 2 and the closure, then pass 3 from block 0 on (R214 to R217). -/
def emeMix (dir : Dir) (y : Block) (s : State) : State :=
  pass3Call dir 0 { s with scratch := mixScratch s.scratch.m.toNat s.tweak y s.scratch }

/-- The answer to pass 3's call for block `j`: `W[j] <- y XOR LT[j]`, then the next block's call, or the commit of
W[0 .. m-1] to OUT and `complete()` (R217, R218). -/
def emePass3 (dir : Dir) (j : Nat) (y : Block) (s : State) : State :=
  let s' := { s with scratch := s.scratch.putW j (xorBlocks y (s.scratch.ltAt j)) }
  if j + 1 < s.scratch.m.toNat then pass3Call dir (j + 1) s'
  else (s'.commitOut s.scratch.m.toNat s'.scratch.wAt).complete

/-- `EME(dir)` after call number `k` answered `y`, the calls in the order of R219; `EME` has no call past `2m + 1`, and
there no sequencer step (R175). -/
def emeAnswered (dir : Dir) (y : Block) (s : State) : State :=
  let m := s.scratch.m.toNat
  if s.k = 0 then emeTable dir y s
  else if s.k ≤ m then emePass1 dir (s.k - 1) y s
  else if s.k = m + 1 then emeMix dir y s
  else if s.k < 2 * m + 2 then emePass3 dir (s.k - (m + 2)) y s
  else s

/-- `EMEE`: EME encryption, `EME(ENC)` (R220). -/
def execEmee (s : State) : Host.Outcome State Fault Refusal := withCalls s emeStart (emeAnswered .enc)

/-- `EMED`: EME decryption, `EME(DEC)` (R221). -/
def execEmed (s : State) : Host.Outcome State Fault Refusal := withCalls s emeStart (emeAnswered .dec)

end Sys2Proof.Machine
end

