-- ==== Sys2Proof/Machine/Dispatch.lean ====
section
/-! DEFINITION. One arm per command (spec 41_cipher_sequencer.md rule R174): the command's pseudocode, from the EXEC
step or from the answer of a cipher call up to its next call or its end (R164). -/

namespace Sys2Proof.Machine

def exec (i : Instr) (s : State) : Host.Outcome State Fault Refusal :=
  match i with
  | .nop => Sys2Proof.Machine.execNop s
  | .dbl d a => Sys2Proof.Machine.execDbl d a s
  | .xor d a b => Sys2Proof.Machine.execXor d a b s
  | .bce d a => Sys2Proof.Machine.execBce d a s
  | .bcd d a => Sys2Proof.Machine.execBcd d a s
  | .ltgen => Sys2Proof.Machine.execLtgen s
  | .emee => Sys2Proof.Machine.execEmee s
  | .emed => Sys2Proof.Machine.execEmed s

end Sys2Proof.Machine
end

