-- ==== Sys2Proof/Machine/Window.lean ====
section
/-! DEFINITION. The host window: its map, reads, writes and the answer to one host access (spec 20_memory.md rules R80
to R90), and the platform's view of it at EME_BASE (R81). -/

namespace Sys2Proof.Machine

/-- The window's map (R82), for the word that holds offset `a`. -/
def regionOf (a : Offset) : Region :=
  if a.toNat < 0x004 then .id
  else if a.toNat < 0x008 then .ctrl
  else if a.toNat < 0x00C then .status
  else if a.toNat < 0x010 then .cmd
  else if a.toNat < 0x014 then .mlen
  else if a.toNat < 0x018 then .tlen
  else if a.toNat < 0x01C then .calls
  else if a.toNat < 0x020 then .bcsize
  else if a.toNat < 0x030 then .tweak ((a.toNat - 0x020) / 4)
  else if a.toNat < 0x1000 then .reserved
  else if a.toNat < 0x1800 then .inBuffer
  else .outBuffer

/-- ID reads `0x454D4501` (R31). -/
def idWord : Word := 0x454D4501

/-- The four bytes of IN or OUT at `a .. a+3` as a word (R84, R86). -/
def State.bufferWord (s : State) (a : Nat) : Word :=
  wordOf (s.byteAt a) (s.byteAt (a + 1)) (s.byteAt (a + 2)) (s.byteAt (a + 3))

/-- Stores the four bytes of `v` at `a .. a+3` of IN (R85, R86). -/
def State.putWord (s : State) (a : Nat) (v : Word) : State :=
  forUp (fun i t => t.putByte (a + i) (wordByte v i)) 4 0 s

/-- The value `MemRead(a, 4)` returns at a mapped, aligned offset (R84), none at a reserved one (R88). -/
def State.readWord (s : State) (a : Offset) : Option Word :=
  match regionOf a with
  | .id => some idWord
  | .ctrl => some s.ctrlWord
  | .status => some s.statusWord
  | .cmd => some s.lastcmd
  | .mlen => some s.mlen
  | .tlen => some s.tlen
  | .calls => some s.calls
  | .bcsize => some (s.bcBlockSize.setWidth 32)
  | .tweak i => some (blockWord s.tweak i)
  | .reserved => none
  | .inBuffer => some (s.bufferWord a.toNat)
  | .outBuffer => some (s.bufferWord a.toNat)

/-- A write to an input of the commands: dropped with OVR set while a command runs (R90), else `effect`. -/
def State.unlessBusy (s : State) (effect : State → State) : State :=
  if s.busy then { s with ovr := true } else effect s

/-- The write effect of `MemWrite(a, 4, v)` at an aligned offset (R85, R89, R90); a reserved offset has none (R88). -/
def State.writeWord (s : State) (a : Offset) (v : Word) : State :=
  match regionOf a with
  | .id => s
  | .ctrl => s.writeCtrl v
  | .status => s.writeStatus v
  | .cmd => s.unlessBusy fun s => s.accept v
  | .mlen => s.unlessBusy fun s => { s with mlen := v }
  | .tlen => s.unlessBusy fun s => { s with tlen := v }
  | .calls => s
  | .bcsize => s
  | .tweak i => s.unlessBusy fun s => { s with tweak := setBlockWord s.tweak i v }
  | .reserved => s
  | .inBuffer => s.unlessBusy fun s => s.putWord a.toNat v
  | .outBuffer => s

/-- Only 32-bit accesses to word-aligned offsets are legal (R83). -/
def HostAccess.legal (x : HostAccess) : Bool := x.size == 2 && x.addr.extractLsb' 0 2 == 0

/-- The answer to an access: a bus error for an illegal one (R83) and at a reserved offset (R88), the word for a read
(R84), 0 for a write (R85). -/
def State.answerTo (s : State) (x : HostAccess) : HostAnswer :=
  if x.legal then
    match s.readWord x.addr with
    | none => { rdata := 0, err := true }
    | some v => { rdata := if x.write then 0 else v, err := false }
  else { rdata := 0, err := true }

/-- An access made while `rst_n = 0`: answered with a bus error, with no effect (R280). The accesses that R83 and
R88 answer with 0 at any time read 0; of any other R280 gives `h_err = 1` alone, and the model leaves `h_rdata` a free
value, drawn for each access (DESIGN CHOICE, log entry 21). -/
def State.accessInReset (s : State) (x : HostAccess) : State :=
  if (s.answerTo x).err then { s with hAnswer := s.answerTo x }
  else { s with hAnswer := { rdata := Config.resetRdata s.draws, err := true }, draws := s.draws + 1 }

/-- One host access, performed and answered in one step (R83, R91), or made in reset (R280). -/
def State.hostAccess (s : State) (x : HostAccess) : State :=
  if s.rstN then
    { (if x.legal && x.write then s.writeWord x.addr x.wdata else s) with hAnswer := s.answerTo x }
  else s.accessInReset x

/-- The window offset that a platform address selects, if it lies in the window of 0x2000 bytes at `base` (R81); the
block itself sees only the offset. -/
def offsetAt (base a : Nat) : Option Offset :=
  if base ≤ a ∧ a < base + 0x2000 then some (BitVec.ofNat 13 (a - base)) else none

/-- A platform access as the block sees it, the window standing at EME_BASE (R81, R272). -/
def platformAccess (write : Bool) (size : BitVec 2) (a : Nat) (v : Word) : Option HostAccess :=
  (offsetAt Config.emeBase a).map fun o => { write := write, size := size, addr := o, wdata := v }

end Sys2Proof.Machine
end

