-- ==== Sys2Proof/Machine/Events.lean ====
section
/-! DEFINITION. What one event does to the block: the sequencer's EXEC step, the two cipher-port events, a host access,
a change on an input pin (spec 20_memory.md rule R93, 41_cipher_sequencer.md rules R162 to R175, 70_reset_and_hazards.md
rule R280); which event comes next; and where a command word is placed so that the next step runs it. -/

namespace Sys2Proof.Machine

/-- The EXEC step (R174): an illegal LASTCMD raises ILLEGAL_COMMAND, else the command of CUR runs. The opcodes 8 to 15
have no command (R117). In another phase the sequencer has no step of its own (R175). -/
def execStep (s : State) : Host.Outcome State Fault Refusal :=
  match s.phase with
  | .exec =>
    if legal s.lastcmd then
      match s.currentCommand with
      | some i => exec i s
      | none => .next (s.raiseError .illegalCommand)
    else .next (s.raiseError .illegalCommand)
  | .idle => .next s
  | .issue => .next s
  | .await => .next s

/-- The response event (R163): in AWAIT the command of CUR goes on with the response (R164), which is then consumed; in
another phase the response is ignored (R166). -/
def responseStep (r : Response) (s : State) : Host.Outcome State Fault Refusal :=
  match s.phase with
  | .await =>
    match s.currentCommand with
    | some i => mapNext (fun t => { t with rsp := none }) (exec i { s with rsp := some r })
    | none => .next s
  | .idle => .next s
  | .exec => .next s
  | .issue => .next s

/-- `rst_n` at the level `v` (R280): going low, and in the step it is released, the registers take their reset values. -/
def State.setReset (s : State) (v : Bool) : State :=
  if v = s.rstN then s else { s.resetRegisters with rstN := v }

/-- The step in which event `e` happens. While `rst_n = 0` the block is in IDLE with no request (R280), so that the
sequencer's and the cipher agent's events find nothing to act on (R166, R175). -/
def react (e : Event) (s : State) : Host.Outcome State Fault Refusal :=
  match e with
  | .host x => .next (s.hostAccess x)
  | .sequencer => if s.rstN then execStep s else .next s
  | .reqReady => .next (if s.rstN then s.requestAccepted else s)
  | .rsp r => if s.rstN then responseStep r s else .next s
  | .blockSize v => .next { s with bcBlockSize := v }
  | .resetLow => .next (s.setReset false)
  | .resetHigh => .next (s.setReset true)
  | .quiet => .next s

/-- The cipher function of a direction (R167). -/
def cipher : Dir → Block → Block
  | .enc => Config.cipherEnc
  | .dec => Config.cipherDec

/-- What happens when no outside event is listed: the sequencer takes its EXEC step; the cipher agent accepts or not, and
answers with the cipher's function of the request, or with failure, or not yet, as `CipherOutcome` at this draw says
(R11, R167, R168, R169); in IDLE nothing happens (R275). -/
def State.ownEvent (s : State) : Event :=
  match s.phase with
  | .idle => .quiet
  | .exec => .sequencer
  | .issue => if Config.cipherAccepts s.draws then .reqReady else .quiet
  | .await =>
    match Config.cipherAnswers s.draws with
    | none => .quiet
    | some err => .rsp { err := err, data := cipher s.scratch.req.dir s.scratch.req.data }

/-- The next step's event: the first of the list, or the block's and the cipher agent's own. -/
def State.nextEvent (s : State) : Event := s.inputs.headD s.ownEvent

/-- The state once its next event has been taken: off the list, or drawn. -/
def State.afterEvent (s : State) : State :=
  match s.inputs with
  | _ :: l => { s with inputs := l }
  | [] =>
    match s.phase with
    | .idle => s
    | .exec => s
    | .issue => { s with draws := s.draws + 1 }
    | .await => { s with draws := s.draws + 1 }

/-- `s` with the command word `w` accepted as R173 says and the sequencer's EXEC step next, out of reset: what a host
write of `w` to CMD, and then the sequencer's turn, bring about. -/
def State.withCommand (s : State) (w : Word) : State :=
  { s.accept w with rstN := true, inputs := .sequencer :: s.inputs }

end Sys2Proof.Machine
end

