-- ==== Sys2Proof/Machine/HostProgram.lean ====
section
/-! DEFINITION. The host-program syntax of spec 30_encoding.md rule R121 as host events: `WR`, `RD`, `WRBLK`, `WRTWEAK`,
`RDBLK`, `ISSUE`. `WAIT` and `RUN` repeat a read until BUSY is 0, which no fixed list of events says; a host that waits is
one that presents its next access after the command has completed. -/

namespace Sys2Proof.Machine

/-- `WR <offset>, v`: `MemWrite(offset, 4, v)`. -/
def hostWr (a : Offset) (v : Word) : Event := .host { write := true, size := 2, addr := a, wdata := v }

/-- `RD <offset>`: `MemRead(offset, 4)`. -/
def hostRd (a : Offset) : Event := .host { write := false, size := 2, addr := a, wdata := 0 }

/-- Four `WR` of a block's words from offset `a` on. -/
def hostWrWords (a : Nat) (b : Block) : List Event :=
  (List.range 4).map fun i => hostWr (BitVec.ofNat 13 (a + 4 * i)) (blockWord b i)

/-- `WRBLK <blk>, b`. -/
def hostWrBlk (d : BlockAddr) (b : Block) : List Event := hostWrWords (blkOffset d) b

/-- `WRTWEAK b`. -/
def hostWrTweak (b : Block) : List Event := hostWrWords 0x020 b

/-- `RDBLK <blk>`: four `RD`. -/
def hostRdBlk (d : BlockAddr) : List Event :=
  (List.range 4).map fun i => hostRd (BitVec.ofNat 13 (blkOffset d + 4 * i))

/-- `ISSUE <command>`: `WR CMD, encoding(command)`. -/
def hostIssue (i : Instr) : Event := hostWr 0x00C (encode i)

end Sys2Proof.Machine
end

