-- ==== Sys2Proof/Safety.lean ====
section
/-! DEFINITION. The terms in which claims about the machine are made: how a command ends, what a step leaves alone, the
invariant of the machine, the transform as plain functions (spec 42_ltable.md, 43_eme_mixer.md), and runs of one command
with a cipher agent that keeps its duty (70_reset_and_hazards.md rule R292). -/

namespace Sys2Proof.Machine

/-! ## Ends of a command -/

/-- The command has ended with success (R254). -/
structure Succeeded (t : State) : Prop where
  busy        : t.busy = false
  done        : t.done = true
  resultValid : t.resultValid = true
  errcode     : t.errcode = .none
  phase       : t.phase = .idle

/-- The command has ended with error `e` (R255). -/
structure Failed (e : ErrCode) (t : State) : Prop where
  busy        : t.busy = false
  done        : t.done = true
  resultValid : t.resultValid = false
  errcode     : t.errcode = e
  phase       : t.phase = .idle

/-- The command goes on: request number `n`, `(dir, x)`, is presented on the cipher port (R162, R164). -/
structure Requests (n : Nat) (dir : Dir) (x : Block) (t : State) : Prop where
  phase : t.phase = .issue
  k     : t.k = n
  req   : t.scratch.req = { dir := dir, data := x }

/-! ## Frames -/

/-- What no step of a command writes: the host's registers but STATUS and CALLS, and the ports; with the model's own
record of inputs and resets. -/
structure SameOutside (s t : State) : Prop where
  irqEn       : t.irqEn = s.irqEn
  ovr         : t.ovr = s.ovr
  lastcmd     : t.lastcmd = s.lastcmd
  mlen        : t.mlen = s.mlen
  tlen        : t.tlen = s.tlen
  tweak       : t.tweak = s.tweak
  bcBlockSize : t.bcBlockSize = s.bcBlockSize
  rstN        : t.rstN = s.rstN
  hAnswer     : t.hAnswer = s.hAnswer
  inputs      : t.inputs = s.inputs
  epoch       : t.epoch = s.epoch

/-- The STATUS fields of a command that goes on. -/
structure SameStatus (s t : State) : Prop where
  busy        : t.busy = s.busy
  done        : t.done = s.done
  resultValid : t.resultValid = s.resultValid
  errcode     : t.errcode = s.errcode

/-- Every byte of IN and OUT reads as before. -/
def SameBytes (s t : State) : Prop := ∀ a, t.byteAt a = s.byteAt a

/-- Every byte of IN and OUT outside the `n` bytes at window offset `lo` reads as before. -/
def SameBytesOutside (lo n : Nat) (s t : State) : Prop := ∀ a, ¬ (lo ≤ a ∧ a < lo + n) → t.byteAt a = s.byteAt a

/-- Everything but the answer port reads as before. -/
def OnlyAnswer (s t : State) : Prop := t = { s with hAnswer := t.hAnswer }

/-- A legal host write to CMD, MLEN, TLEN, TWEAK or IN: one that R90 drops while a command runs. -/
def InputWrite (x : HostAccess) : Prop :=
  x.legal = true ∧ x.write = true ∧ (x.addr.toNat = 0x00C ∨ x.addr.toNat = 0x010 ∨ x.addr.toNat = 0x014
    ∨ (0x020 ≤ x.addr.toNat ∧ x.addr.toNat < 0x030) ∨ (0x1000 ≤ x.addr.toNat ∧ x.addr.toNat < 0x1800))

/-! ## The invariant -/

/-- How many cipher calls a command makes when it succeeds, for block count `m` (R144 to R146, R171, R172, R194, R219). -/
def callCount (m : Nat) : Instr → Nat
  | .nop => 0
  | .dbl _ _ => 0
  | .xor _ _ _ => 0
  | .bce _ _ => 1
  | .bcd _ _ => 1
  | .ltgen => 1
  | .emee => 2 * m + 2
  | .emed => 2 * m + 2

/-- Whether a command uses the block count `m` (R52). -/
def usesCount : Instr → Bool
  | .nop => false
  | .dbl _ _ => false
  | .xor _ _ _ => false
  | .bce _ _ => false
  | .bcd _ _ => false
  | .ltgen => true
  | .emee => true
  | .emed => true

/-- The cipher direction of a command's own calls (R51). -/
def directionOf : Instr → Dir
  | .nop => .enc
  | .dbl _ _ => .enc
  | .xor _ _ _ => .enc
  | .bce _ _ => .enc
  | .bcd _ _ => .dec
  | .ltgen => .enc
  | .emee => .enc
  | .emed => .dec

/-- A command is inside a cipher call: the accepted word is a command `i` that makes more than `k` calls, and the
latched block count is MLEN's where `i` uses it (R50, R52, R219, R258). -/
structure InCall (s : State) (i : Instr) : Prop where
  command : decode s.lastcmd = .ok i
  index   : s.k < callCount s.scratch.m.toNat i
  count   : usesCount i = true → s.mlen.toNat = 16 * s.scratch.m.toNat ∧ 1 ≤ s.scratch.m.toNat ∧ s.scratch.m.toNat ≤ 128

/-- The machine's invariant. -/
structure MachineInv (s : State) : Prop where
  /-- The memory is in canonical form. -/
  memory : Memory.wf s.mem
  /-- BUSY = 1 exactly when the phase is not IDLE (R50). -/
  busy : s.busy = true ↔ s.phase ≠ .idle
  /-- While a command runs, accept's STATUS stands, and CUR holds LASTCMD's fields (R33 to R37, R51, R98, R173). -/
  running : s.phase ≠ .idle → s.done = false ∧ s.resultValid = false ∧ s.errcode = .none
    ∧ s.scratch.cur = latchedCommand s.lastcmd
  /-- Before its first call a command has made none (R173). -/
  atExec : s.phase = .exec → s.calls = 0
  /-- In ISSUE, `k` calls have been accepted (R175). -/
  atIssue : s.phase = .issue → s.calls.toNat = s.k ∧ ∃ i, InCall s i
  /-- In AWAIT, `k + 1` calls have been accepted (R175). -/
  atAwait : s.phase = .await → s.calls.toNat = s.k + 1 ∧ ∃ i, InCall s i
  /-- Code 4 is never reported (R252). -/
  noCode4 : s.errcode ≠ .bufferLengthMismatch
  /-- A valid result goes with no error (R35, R37). -/
  validHasNoError : s.resultValid = true → s.errcode = .none
  /-- CALLS never exceeds 258 (R42, R271). -/
  calls : s.calls.toNat ≤ 258
  /-- The call index is in 0 .. 257 (R50). -/
  index : s.k ≤ 257
  /-- While `rst_n = 0` every host-visible register has its reset value, the sequencer is idle with
  `k = 0`, and no byte of IN or OUT has been written (R280, R281). -/
  inReset : s.rstN = false → s.irqEn = false ∧ s.statusWord = 0 ∧ s.lastcmd = 0 ∧ s.mlen = 0 ∧ s.tlen = 16
    ∧ s.calls = 0 ∧ s.tweak = 0 ∧ s.phase = .idle ∧ s.k = 0 ∧ s.mem = []
  /-- Between steps there is no response on the port. -/
  noResponse : s.rsp = none

/-! ## The transform as functions -/

/-- `L_i = double^(i+1)(E0)` (R192). -/
def lValue (e0 : Block) (i : Nat) : Block := double^[i + 1] e0

/-- `g 0 XOR .. XOR g (n - 1)`. -/
def xorSum (g : Nat → Block) : Nat → Block
  | 0 => 0
  | n + 1 => xorSum g n ^^^ g n

/-- `C_j` after pass 1: `f(P_j XOR L_j)` (R213). -/
def pass1Value (f : Block → Block) (e0 : Block) (p : Nat → Block) (j : Nat) : Block := f (p j ^^^ lValue e0 j)

/-- `MP = C_0 XOR .. XOR C_{m-1} XOR T` (R214). -/
def mpValue (f : Block → Block) (e0 t : Block) (m : Nat) (p : Nat → Block) : Block :=
  xorSum (pass1Value f e0 p) m ^^^ t

/-- `CCC_j = C_j XOR double^j(MP XOR MC)`, for `j = 1 .. m-1` (R215). -/
def pass2Value (f : Block → Block) (e0 t : Block) (m : Nat) (p : Nat → Block) (j : Nat) : Block :=
  pass1Value f e0 p j ^^^ double^[j] (mpValue f e0 t m p ^^^ f (mpValue f e0 t m p))

/-- `CCC_0 = MC XOR T XOR CCC_1 XOR .. XOR CCC_{m-1}`, and `CCC_j` for the other blocks (R215, R216). -/
def closureValue (f : Block → Block) (e0 t : Block) (m : Nat) (p : Nat → Block) (j : Nat) : Block :=
  if j = 0 then f (mpValue f e0 t m p) ^^^ t ^^^ xorSum (fun i => pass2Value f e0 t m p (i + 1)) (m - 1)
  else pass2Value f e0 t m p j

/-- Block `j` of the transform of the `m` blocks `p` under tweak `t`: `f(CCC_j) XOR L_j` (R217), with `f` the cipher in
the transform's direction and `e0` the encryption of `0^16`. -/
def emeValue (f : Block → Block) (e0 t : Block) (m : Nat) (p : Nat → Block) (j : Nat) : Block :=
  f (closureValue f e0 t m p j) ^^^ lValue e0 j

/-! ## Runs with a cipher agent -/

/-- The step of `s` when the next outside event is `e`. -/
def stepWith (e : Event) (s : State) : Host.Outcome State Fault Refusal := step { s with inputs := [e] }

/-- What happens next when nothing is late: the sequencer's step, the accept of the request, its answer by `f`, call
number `n` failing where `fails n` says so. -/
def agentEvent (f : Dir → Block → Block) (fails : Nat → Bool) (s : State) : Event :=
  match s.phase with
  | .idle => .quiet
  | .exec => .sequencer
  | .issue => .reqReady
  | .await => .rsp { err := fails s.k, data := f s.scratch.req.dir s.scratch.req.data }

/-- `n` steps in which nothing is late, with the cipher functions `f`, the calls that `fails` names failing. -/
def agentRun (f : Dir → Block → Block) (fails : Nat → Bool) : Nat → State → Host.Outcome State Fault Refusal
  | 0, s => .next s
  | n + 1, s =>
    match stepWith (agentEvent f fails s) s with
    | .next t => agentRun f fails n t
    | .fault r => .fault r
    | .refused r => .refused r

/-- `n` steps in which nothing is late and no call fails, with the cipher functions `f`. -/
abbrev promptRun (f : Dir → Block → Block) (n : Nat) (s : State) : Host.Outcome State Fault Refusal :=
  agentRun f (fun _ => false) n s

/-- Events that a host may cause at any time and a cipher agent that keeps its duty may cause in `s`: any host access, any
sequencer turn, any delay, an accept, a failure, and a success answered with `f` of the request (R167, R292). No reset. -/
def Dutiful (f : Dir → Block → Block) (s : State) : Event → Prop
  | .host _ => True
  | .sequencer => True
  | .reqReady => True
  | .rsp r => r.err = false → r.data = f s.scratch.req.dir s.scratch.req.data
  | .blockSize _ => True
  | .resetLow => False
  | .resetHigh => False
  | .quiet => True

/-- `t` is reached from `s` by dutiful events, each taken while the command runs: any interleaving of the three agents
(R93) up to the command's end. -/
inductive CommandRun (f : Dir → Block → Block) (s : State) : State → Prop where
  | start : CommandRun f s s
  | more {t u : State} {e : Event} : CommandRun f s t → t.busy = true → Dutiful f t e → stepWith e t = .next u →
      CommandRun f s u

/-- The command word of `i` has been accepted and its EXEC step is next (R173, R174), out of reset. -/
structure Accepted (i : Instr) (s : State) : Prop where
  rstN    : s.rstN = true
  phase   : s.phase = .exec
  busy    : s.busy = true
  command : s.lastcmd = encode i
  latched : s.scratch.cur = latchedCommand s.lastcmd
  calls   : s.calls = 0

/-- The preconditions of a transform of `m` blocks hold (R211, R256 to R258). -/
structure TransformReady (m : Nat) (s : State) : Prop where
  blockSize : s.bcBlockSize = 16
  tweak     : s.tlen = 16
  length    : s.mlen.toNat = 16 * m
  positive  : 1 ≤ m
  bounded   : m ≤ 128

/-- The preconditions that LTGEN, EMEE and EMED check hold, for `m` blocks; LTGEN reads no TLEN (R196, R211). -/
structure CommandReady (m : Nat) (i : Instr) (s : State) : Prop where
  blockSize : s.bcBlockSize = 16
  tweak     : i ≠ .ltgen → s.tlen = 16
  length    : s.mlen.toNat = 16 * m
  positive  : 1 ≤ m
  bounded   : m ≤ 128

end Sys2Proof.Machine
end

