-- ==== Sys2Proof/Certificates/Slice0/Obligations.lean ====
section
/-! DEFINITION. The statements for the provers. Each formalises rules of spec/ that its docstring cites. A command's
internal scratch after its end is unspecified (10_state.md rule R57), so no statement says what it holds then. -/

open Sys2Proof Sys2Proof.Machine

/-! ## Encoding -/

/-- R118, R112, R114: decoding the encoding of any command gives it back, every operand at every value, and a word that
decodes to a command is that command's encoding, its one legal spelling. -/
def Obligations.DecodeAndEncodeAgree : Prop :=
  (∀ i : Instr, decode (encode i) = .ok i) ∧ ∀ (w : Word) (i : Instr), decode w = .ok i → w = encode i

/-- R117: `legal(w)`, read on the number the word is; and the decoder accepts exactly the legal words. -/
def Obligations.LegalWordsAreThoseOfTheRule : Prop :=
  ∀ w : Word,
    (legal w = true ↔
      w.toNat % 16 ≤ 7 ∧ w.toNat / 16 % 16 = 0
      ∧ (w.toNat % 16 ∈ [0, 5, 6, 7] → w.toNat / 256 = 0)
      ∧ (w.toNat % 16 ∈ [1, 3, 4] → w.toNat / 2 ^ 24 = 0))
    ∧ (legal w = true ↔ ∃ i, decode w = .ok i)

/-- 95_test_vectors.md section 3 and R119: words written out from the field layout, and the commands they are. -/
def Obligations.WordsOfTheSpecDecode : Prop :=
  decode 0x00000000 = .ok .nop
  ∧ decode 0x00008001 = .ok (.dbl 0x80 0x00)
  ∧ decode 0x05808202 = .ok (.xor 0x82 0x80 0x05)
  ∧ decode 0x00008003 = .ok (.bce 0x80 0x00)
  ∧ decode 0x00808104 = .ok (.bcd 0x81 0x80)
  ∧ decode 0x00000005 = .ok .ltgen
  ∧ decode 0x00000006 = .ok .emee
  ∧ decode 0x00000007 = .ok .emed
  ∧ decode 0x00000008 = .error .reservedOpcode
  ∧ decode 0x00000010 = .error .reservedBits
  ∧ decode 0x01000001 = .error .unusedField

/-! ## The step and the decoder -/

/-- R174, with R112: in the EXEC step of an accepted legal word, the step is `exec` of the command the word decodes to. -/
def Obligations.StepRunsTheDecodedCommand : Prop :=
  ∀ (s : State) (i : Instr),
    s.rstN = true → s.phase = .exec → s.nextEvent = .sequencer →
    s.scratch.cur = latchedCommand s.lastcmd → decode s.lastcmd = .ok i →
    step s = exec i s.afterEvent

/-- R163, R164: in the response step, the step is `exec` of the running command with the response on the port, the
response then being consumed. -/
def Obligations.ResponseStepResumesTheDecodedCommand : Prop :=
  ∀ (s : State) (i : Instr) (r : Response),
    s.rstN = true → s.phase = .await → s.nextEvent = .rsp r →
    s.scratch.cur = latchedCommand s.lastcmd → decode s.lastcmd = .ok i →
    step s = mapNext (fun t => { t with rsp := none }) (exec i { s.afterEvent with rsp := some r })

/-- A word placed where the next step runs it (the model's `withFetchWord`, log entry 7) is accepted as R173 says and run as
R174 says. -/
def Obligations.PlacedWordIsRunNext : Prop :=
  ∀ (s : State) (nbits w : Nat) (i : Instr), decodeTableWord nbits w = some i →
    step (s.withFetchWord nbits w) = exec i { s.accept (BitVec.ofNat 32 (w % 2 ^ nbits)) with rstN := true }

/-- R117, R174, R251: an accepted illegal word executes no operation; it ends with code 6, no call, no byte changed. -/
def Obligations.IllegalWordEndsWithCode6 : Prop :=
  ∀ s : State, s.rstN = true → s.phase = .exec → s.nextEvent = .sequencer → legal s.lastcmd = false →
    ∃ t, step s = .next t ∧ Failed .illegalCommand t ∧ t.calls = s.calls ∧ SameOutside s.afterEvent t ∧ SameBytes s t

/-- Every step answers a next state: the machine has no fault and refuses nothing. -/
def Obligations.EveryStepAnswersANextState : Prop :=
  ∀ s : State, ∃ t, step s = .next t

/-! ## The datapath: NOP, DBL, XOR -/

/-- R144: NOP, whose one legal word is 0, completes, with CALLS, every register but STATUS and every byte unchanged. -/
def Obligations.NopCompletes : Prop :=
  encode .nop = 0 ∧ (∀ w : Word, w.extractLsb' 0 4 = 0 → (legal w = true ↔ w = 0)) ∧ ∀ s : State, s.phase = .exec →
    ∃ t, exec .nop s = .next t ∧ Succeeded t ∧ t.calls = s.calls ∧ SameOutside s t ∧ SameBytes s t

/-- R145: `BLK(d) <- double(BLK(s)); complete()`, the source read before the destination is written; nothing else
changes. -/
def Obligations.DblCompletes : Prop :=
  ∀ (s : State) (d a : BlockAddr), (encode (.dbl d a)).toNat = a.toNat * 2 ^ 16 + d.toNat * 2 ^ 8 + 1 ∧ (s.phase = .exec →
    ∃ t, exec (.dbl d a) s = .next t ∧ t.blk d = double (s.blk a) ∧ Succeeded t ∧ t.calls = s.calls
      ∧ SameOutside s t ∧ SameBytesOutside (blkOffset d) 16 s t)

/-- R146, R143: byte `k` of `BLK(d)` becomes byte `k` of `BLK(a)` XOR byte `k` of `BLK(b)`, the sources read before the
destination is written; nothing else changes; every field value is legal. R120: the line `CLR d` stands for `XOR d, d, d`, which leaves `0^16`. -/
def Obligations.XorCompletes : Prop :=
  (∀ n : BlockName, n.wellFormed = true → (AsmCommand.clr n).lower = some (.xor n.addr n.addr n.addr))
  ∧ ∀ (s : State) (d a b : BlockAddr),
    (encode (.xor d a b)).toNat = b.toNat * 2 ^ 24 + a.toNat * 2 ^ 16 + d.toNat * 2 ^ 8 + 2
    ∧ legal (encode (.xor d a b)) = true ∧ (s.phase = .exec →
    ∃ t, exec (.xor d a b) s = .next t
      ∧ (∀ k < 16, byteOf (t.blk d) k = byteOf (s.blk a) k ^^^ byteOf (s.blk b) k)
      ∧ (a = b → t.blk d = 0)
      ∧ Succeeded t ∧ t.calls = s.calls ∧ SameOutside s t ∧ SameBytesOutside (blkOffset d) 16 s t)

/-- R115: a write of one block leaves every block of another address as it was, and the 256 addresses name the 128 blocks
of IN and the 128 of OUT; R80, R87: byte `k` of IN[j] stands at window offset `0x1000 + 16j + k`, byte `k` of OUT[j] at
`0x1800 + 16j + k`. -/
def Obligations.BlockAddressesNameDistinctBlocks : Prop :=
  (∀ (s : State) (d x : BlockAddr) (b : Block), (s.putBlk d b).blk x = if x = d then b else s.blk x)
  ∧ (∀ (s : State) (j : Nat), j < 128 →
      s.blk (BitVec.ofNat 8 j) = s.inBlock j ∧ s.blk (BitVec.ofNat 8 (0x80 + j)) = s.outBlock j)
  ∧ (∀ (s : State) (j k : Nat), j < 128 → k < 16 →
      byteOf (s.inBlock j) k = s.byteAt (0x1000 + 16 * j + k)
      ∧ byteOf (s.outBlock j) k = s.byteAt (0x1800 + 16 * j + k))

/-- R140: the doubler byte by byte. -/
def Obligations.DoubleFollowsTheByteProcedure : Prop :=
  ∀ b : Block,
    (byteOf (double b) 0).toNat =
      Nat.xor (2 * (byteOf b 0).toNat % 256) (if (byteOf b 15).toNat ≥ 0x80 then 0x87 else 0)
    ∧ ∀ j, 1 ≤ j → j ≤ 15 →
      (byteOf (double b) j).toNat =
        2 * (byteOf b j).toNat % 256 + (if (byteOf b (j - 1)).toNat ≥ 0x80 then 1 else 0)

/-- R141: as a number with byte 0 least significant, doubling is a shift by one with reduction by 0x87. -/
def Obligations.DoubleIsShiftWithReduction : Prop :=
  ∀ b : Block, double b = (b <<< 1) ^^^ (if b.getLsbD 127 then 0x87#128 else 0)

/-- R142: doubling is linear, maps zero to zero, and is a bijection on blocks. -/
def Obligations.DoubleIsALinearBijection : Prop :=
  (∀ a b : Block, double (a ^^^ b) = double a ^^^ double b) ∧ double 0 = 0 ∧ Function.Bijective double

/-! ## Single cipher calls: BCE, BCD -/

/-- R171, R172, first half: with the block size right, the EXEC step sends the source block in the command's direction and
changes no byte. -/
def Obligations.SingleCallSendsItsRequest : Prop :=
  ∀ (s : State) (d a : BlockAddr), s.phase = .exec → s.bcBlockSize = 16 →
    (∃ t, exec (.bce d a) s = .next t ∧ Requests 0 .enc (s.blk a) t ∧ SameStatus s t ∧ t.calls = s.calls
      ∧ SameOutside s t ∧ SameBytes s t)
    ∧ (∃ t, exec (.bcd d a) s = .next t ∧ Requests 0 .dec (s.blk a) t ∧ SameStatus s t ∧ t.calls = s.calls
      ∧ SameOutside s t ∧ SameBytes s t)

/-- R171, R172, second half: the answer of the call is written to BLK(d) and the command completes. -/
def Obligations.SingleCallCompletes : Prop :=
  ∀ (s : State) (d a : BlockAddr) (y : Block), s.phase = .await → s.rsp = some { err := false, data := y } →
    (∃ t, exec (.bce d a) s = .next t ∧ t.blk d = y ∧ Succeeded t ∧ t.calls = s.calls
      ∧ SameOutside s t ∧ SameBytesOutside (blkOffset d) 16 s t)
    ∧ (∃ t, exec (.bcd d a) s = .next t ∧ t.blk d = y ∧ Succeeded t ∧ t.calls = s.calls
      ∧ SameOutside s t ∧ SameBytesOutside (blkOffset d) 16 s t)

/-- R171, R172, R175, R176: with a cipher agent that is not late, BCE and BCD take three steps from their accept, the
EXEC step and two for the call, and leave the cipher's function of the source in BLK(d), with CALLS = 1. -/
def Obligations.SingleCallRunsToItsEnd : Prop :=
  ∀ (f : Dir → Block → Block) (s : State) (d a : BlockAddr), s.bcBlockSize = 16 →
    (Accepted (.bce d a) s → ∃ t, promptRun f 3 s = .next t ∧ Succeeded t ∧ t.calls = 1
      ∧ t.blk d = f .enc (s.blk a) ∧ SameBytesOutside (blkOffset d) 16 s t)
    ∧ (Accepted (.bcd d a) s → ∃ t, promptRun f 3 s = .next t ∧ Succeeded t ∧ t.calls = 1
      ∧ t.blk d = f .dec (s.blk a) ∧ SameBytesOutside (blkOffset d) 16 s t)

/-! ## Precondition errors and cipher failure -/

/-- R256, R260: a wrong block size ends each of the five cipher commands with code 1, before any call, no byte changed,
whatever TLEN and MLEN are (R259). -/
def Obligations.WrongBlockSizeEndsWithCode1 : Prop :=
  ∀ (s : State) (i : Instr), s.phase = .exec → s.bcBlockSize ≠ 16 →
    (∃ d a, i = .bce d a ∨ i = .bcd d a) ∨ i = .ltgen ∨ i = .emee ∨ i = .emed →
    ∃ t, exec i s = .next t ∧ Failed .invalidBlockSize t ∧ t.calls = s.calls ∧ SameOutside s t ∧ SameBytes s t

/-- R257, R259, R260: with the block size right, EMEE and EMED end with code 2 exactly when TLEN, all 32 bits of it, is not
16, whatever MLEN is. -/
def Obligations.WrongTweakLengthEndsWithCode2 : Prop :=
  ∀ (s : State) (i : Instr), s.phase = .exec → s.bcBlockSize = 16 → i = .emee ∨ i = .emed →
    ∃ t, exec i s = .next t
      ∧ (s.tlen.toNat ≠ 16 →
          Failed .invalidTweakLength t ∧ t.calls = s.calls ∧ SameOutside s t ∧ SameBytes s t)
      ∧ (s.tlen.toNat = 16 → ¬ Failed .invalidTweakLength t)

/-- R258, R259, R260: an MLEN that is not one of 16, 32, .., 2048 ends LTGEN, EMEE and EMED with code 3, LTGEN whatever TLEN
is; any other MLEN passes and `m` is MLEN div 16. -/
def Obligations.WrongMessageLengthEndsWithCode3 : Prop :=
  ∀ (s : State) (i : Instr), s.phase = .exec → s.bcBlockSize = 16 →
    i = .ltgen ∨ ((i = .emee ∨ i = .emed) ∧ s.tlen = 16) →
    ∃ t, exec i s = .next t
      ∧ (s.mlen.toNat % 16 ≠ 0 ∨ s.mlen.toNat / 16 = 0 ∨ s.mlen.toNat / 16 > 128 →
          Failed .invalidMessageLength t ∧ t.calls = s.calls ∧ SameOutside s t ∧ SameBytes s t)
      ∧ ((∃ m, 1 ≤ m ∧ m ≤ 128 ∧ s.mlen.toNat = 16 * m) →
          t.phase = .issue ∧ t.errcode = s.errcode ∧ t.scratch.m.toNat = s.mlen.toNat / 16)

/-- R261, R164, R228: a failed response ends each of the five cipher commands with code 5, with CALLS kept and no byte of IN
or OUT changed, whatever data it carries and whichever call it answers. -/
def Obligations.CipherFailureEndsWithCode5 : Prop :=
  ∀ (s : State) (i : Instr) (y : Block), s.phase = .await → s.rsp = some { err := true, data := y } →
    (∃ d a, i = .bce d a ∨ i = .bcd d a) ∨ i = .ltgen ∨ i = .emee ∨ i = .emed →
    ∃ t, exec i s = .next t ∧ Failed .underlyingCipherFailure t ∧ t.calls = s.calls ∧ SameOutside s t ∧ SameBytes s t

/-! ## The L-table -/

/-- R190, R191, R196, R211, R212, R222: with their preconditions met, the EXEC step of LTGEN, of EMEE and of EMED latches m
and sends (ENC, `0^16`) in either direction; LTGEN whatever TLEN is. -/
def Obligations.TheZeroBlockIsEncryptedFirst : Prop :=
  ∀ (s : State) (m : Nat) (i : Instr), s.phase = .exec → s.bcBlockSize = 16 → s.mlen.toNat = 16 * m → 1 ≤ m → m ≤ 128 →
    i = .ltgen ∨ ((i = .emee ∨ i = .emed) ∧ s.tlen = 16) →
    ∃ t, exec i s = .next t ∧ Requests 0 .enc 0 t ∧ t.scratch.m.toNat = m ∧ SameStatus s t ∧ t.calls = s.calls
      ∧ SameOutside s t ∧ SameBytes s t

/-- R196, R192: the answer E0 completes LTGEN, with `OUT[i] = double^(i+1)(E0)` for i = 0 .. m-1 and every other byte of
IN and OUT as before. -/
def Obligations.LtgenCompletes : Prop :=
  ∀ (s : State) (e0 : Block), s.phase = .await → s.rsp = some { err := false, data := e0 } →
    1 ≤ s.scratch.m.toNat → s.scratch.m.toNat ≤ 128 →
    ∃ t, exec .ltgen s = .next t ∧ (∀ i < s.scratch.m.toNat, t.outBlock i = double^[i + 1] e0) ∧ Succeeded t
      ∧ t.calls = s.calls ∧ SameOutside s t ∧ SameBytesOutside 0x1800 (16 * s.scratch.m.toNat) s t

/-- R196, R193: LTGEN run from its accept leaves in OUT the table of the encryption of zero, whatever the scratch held
before; CALLS = 1 (R194). -/
def Obligations.LtgenRunsToItsEnd : Prop :=
  ∀ (f : Dir → Block → Block) (s : State) (m : Nat), Accepted .ltgen s → s.bcBlockSize = 16 → s.mlen.toNat = 16 * m →
    1 ≤ m → m ≤ 128 →
    ∃ t, promptRun f 3 s = .next t ∧ Succeeded t ∧ t.calls = 1 ∧ (∀ i < m, t.outBlock i = lValue (f .enc 0) i)
      ∧ SameBytesOutside 0x1800 (16 * m) s t

/-! ## The mixer: EMEE, EMED -/

/-- R212, R213: the answer E0 of call 0 gives the L-table, and call 1 carries `IN[0] XOR LT[0]` in the command's
direction. -/
def Obligations.TableAnswerStartsPass1 : Prop :=
  ∀ (s : State) (i : Instr) (e0 : Block), s.phase = .await → s.rsp = some { err := false, data := e0 } → s.k = 0 →
    1 ≤ s.scratch.m.toNat → s.scratch.m.toNat ≤ 128 → i = .emee ∨ i = .emed →
    ∃ t, exec i s = .next t ∧ (∀ j < s.scratch.m.toNat, t.scratch.ltAt j = double^[j + 1] e0)
      ∧ Requests 1 (directionOf i) (s.inBlock 0 ^^^ double e0) t ∧ t.scratch.m = s.scratch.m
      ∧ SameStatus s t ∧ t.calls = s.calls ∧ SameOutside s t ∧ SameBytes s t

/-- R213, R214: the answer to call `1 + j` becomes W[j]; then comes `IN[j+1] XOR LT[j+1]`, or after the last block the
fold `W[0] XOR .. XOR W[m-1] XOR T`. -/
def Obligations.Pass1AnswerIsKeptAndGoesOn : Prop :=
  ∀ (s : State) (i : Instr) (y : Block) (j : Nat), s.phase = .await → s.rsp = some { err := false, data := y } →
    s.k = 1 + j → j < s.scratch.m.toNat → i = .emee ∨ i = .emed →
    ∃ t, exec i s = .next t
      ∧ (∀ n, t.scratch.wAt n = if n = j then y else s.scratch.wAt n)
      ∧ (∀ n, t.scratch.ltAt n = s.scratch.ltAt n) ∧ t.scratch.m = s.scratch.m
      ∧ (j + 1 < s.scratch.m.toNat →
          Requests (2 + j) (directionOf i) (s.inBlock (j + 1) ^^^ s.scratch.ltAt (j + 1)) t)
      ∧ (j + 1 = s.scratch.m.toNat →
          Requests (2 + j) (directionOf i) (xorSum t.scratch.wAt s.scratch.m.toNat ^^^ s.tweak) t
          ∧ t.scratch.mp = xorSum t.scratch.wAt s.scratch.m.toNat ^^^ s.tweak)
      ∧ SameStatus s t ∧ t.calls = s.calls ∧ SameOutside s t ∧ SameBytes s t

/-- R214, R215, R216: the fold's answer MC makes `W[j] = C_j XOR double^j(MP XOR MC)` for j = 1 .. m-1, M doubled m-1 times,
and `W[0] = X = MC XOR T XOR W[1] XOR .. XOR W[m-1]` of those, and pass 3 starts with W[0]. -/
def Obligations.FoldAnswerMixesTheBlocks : Prop :=
  ∀ (s : State) (i : Instr) (y : Block), s.phase = .await → s.rsp = some { err := false, data := y } →
    1 ≤ s.scratch.m.toNat → s.k = s.scratch.m.toNat + 1 → i = .emee ∨ i = .emed →
    ∃ t, exec i s = .next t
      ∧ (∀ j, 1 ≤ j → j < s.scratch.m.toNat → t.scratch.wAt j = s.scratch.wAt j ^^^ double^[j] (s.scratch.mp ^^^ y))
      ∧ t.scratch.wAt 0 = y ^^^ s.tweak ^^^ xorSum (fun j => t.scratch.wAt (j + 1)) (s.scratch.m.toNat - 1)
      ∧ t.scratch.mc = y ∧ t.scratch.mm = double^[s.scratch.m.toNat - 1] (s.scratch.mp ^^^ y)
      ∧ t.scratch.x = t.scratch.wAt 0
      ∧ Requests (s.scratch.m.toNat + 2) (directionOf i) (t.scratch.wAt 0) t
      ∧ (∀ n, t.scratch.ltAt n = s.scratch.ltAt n) ∧ t.scratch.m = s.scratch.m
      ∧ SameStatus s t ∧ t.calls = s.calls ∧ SameOutside s t ∧ SameBytes s t

/-- R217: the answer to call `m + 2 + j` makes `W[j] = y XOR LT[j]`, and while blocks are left call `m + 3 + j` carries
W[j+1]. -/
def Obligations.Pass3AnswerIsUnmixedAndGoesOn : Prop :=
  ∀ (s : State) (i : Instr) (y : Block) (j : Nat), s.phase = .await → s.rsp = some { err := false, data := y } →
    s.k = s.scratch.m.toNat + 2 + j → j + 1 < s.scratch.m.toNat → i = .emee ∨ i = .emed →
    ∃ t, exec i s = .next t
      ∧ (∀ n, t.scratch.wAt n = if n = j then y ^^^ s.scratch.ltAt j else s.scratch.wAt n)
      ∧ Requests (s.scratch.m.toNat + 3 + j) (directionOf i) (s.scratch.wAt (j + 1)) t
      ∧ (∀ n, t.scratch.ltAt n = s.scratch.ltAt n) ∧ t.scratch.m = s.scratch.m
      ∧ SameStatus s t ∧ t.calls = s.calls ∧ SameOutside s t ∧ SameBytes s t

/-- R217, R218: the answer to the last call, `2m + 1`, completes EMEE and EMED: `OUT[m-1] = y XOR LT[m-1]` and
`OUT[j] = W[j]` for the blocks before it, with every other byte of IN and OUT as before. -/
def Obligations.LastAnswerCommitsAndCompletes : Prop :=
  ∀ (s : State) (i : Instr) (y : Block), s.phase = .await → s.rsp = some { err := false, data := y } →
    1 ≤ s.scratch.m.toNat → s.scratch.m.toNat ≤ 128 → s.k = 2 * s.scratch.m.toNat + 1 → i = .emee ∨ i = .emed →
    ∃ t, exec i s = .next t
      ∧ (∀ j < s.scratch.m.toNat, t.outBlock j =
          if j + 1 = s.scratch.m.toNat then y ^^^ s.scratch.ltAt j else s.scratch.wAt j)
      ∧ Succeeded t ∧ t.calls = s.calls ∧ SameOutside s t ∧ SameBytesOutside 0x1800 (16 * s.scratch.m.toNat) s t

/-- R220, R221, R219: with its preconditions met and a cipher agent that is not late, EMEE and EMED end with success after
`1 + 2(2m + 2)` steps, with CALLS = 2m + 2 and in OUT the transform of IN, in the command's direction. -/
def Obligations.TransformRunsToItsEnd : Prop :=
  ∀ (f : Dir → Block → Block) (s : State) (m : Nat) (i : Instr), i = .emee ∨ i = .emed → Accepted i s →
    TransformReady m s →
    ∃ t, promptRun f (1 + 2 * (2 * m + 2)) s = .next t ∧ Succeeded t ∧ t.calls.toNat = 2 * m + 2
      ∧ (∀ j < m, t.outBlock j = emeValue (f (directionOf i)) (f .enc 0) s.tweak m s.inBlock j)
      ∧ t.tweak = s.tweak ∧ t.mlen = s.mlen ∧ t.tlen = s.tlen ∧ SameBytesOutside 0x1800 (16 * m) s t

/-- R93, R94, R95, R218, R228: under every interleaving of host accesses, sequencer steps and cipher events up to the
end of an EMEE or EMED, with any delay and any failure, the command either ends with success and the transform of IN in OUT,
or ends with an error and no byte of IN or OUT changed. -/
def Obligations.TransformIsRightUnderEveryInterleaving : Prop :=
  ∀ (f : Dir → Block → Block) (s t : State) (m : Nat) (i : Instr), i = .emee ∨ i = .emed → MachineInv s → Accepted i s →
    TransformReady m s → CommandRun f s t → t.busy = false →
    (Succeeded t ∧ t.calls.toNat = 2 * m + 2
      ∧ (∀ j < m, t.outBlock j = emeValue (f (directionOf i)) (f .enc 0) s.tweak m s.inBlock j)
      ∧ SameBytesOutside 0x1800 (16 * m) s t)
    ∨ (∃ e, e ≠ .none ∧ Failed e t ∧ SameBytes s t)

/-- R224: the transform of one block. -/
def Obligations.OneBlockTransform : Prop :=
  ∀ (f : Block → Block) (e0 t : Block) (p : Nat → Block),
    emeValue f e0 t 1 p 0 = f (f (f (p 0 ^^^ double e0) ^^^ t) ^^^ t) ^^^ double e0

/-- R225: where two functions undo each other, so do the transforms with them, block by block, for every tweak, table seed
and block count. -/
def Obligations.TransformsUndoEachOther : Prop :=
  ∀ (f g : Block → Block) (e0 t : Block) (m : Nat) (p : Nat → Block), (∀ x, g (f x) = x) →
    ∀ j < m, emeValue g e0 t m (emeValue f e0 t m p) j = p j

/-- R225: EMED run on the output of EMEE, same tweak and length, gives back EMEE's input, and the other way round, when
the cipher's two functions undo each other (the premise of R167). -/
def Obligations.DecryptionRunUndoesEncryptionRun : Prop :=
  ∀ (f : Dir → Block → Block) (s1 t1 s2 : State) (m : Nat) (i1 i2 : Instr),
    (∀ x, f .dec (f .enc x) = x) → (∀ x, f .enc (f .dec x) = x) →
    (i1 = .emee ∧ i2 = .emed) ∨ (i1 = .emed ∧ i2 = .emee) →
    Accepted i1 s1 → TransformReady m s1 → promptRun f (1 + 2 * (2 * m + 2)) s1 = .next t1 →
    Accepted i2 s2 → TransformReady m s2 → s2.tweak = s1.tweak → (∀ j < m, s2.inBlock j = t1.outBlock j) →
    ∃ t2, promptRun f (1 + 2 * (2 * m + 2)) s2 = .next t2 ∧ Succeeded t2 ∧ ∀ j < m, t2.outBlock j = s1.inBlock j

/-- R226, R57: nothing left by earlier commands enters a result. Two states ready for LTGEN, EMEE or EMED that agree on MLEN
and, for EMEE and EMED, on TWEAK and IN[0 .. m-1], leave in runs with no failing call the same OUT[0 .. m-1] and CALLS, and
the same STATUS where their OVR agrees, whatever else differs. The runs with a failing call are
FailingCallEndsTheTransform's. -/
def Obligations.NoHiddenStateEntersAResult : Prop :=
  ∀ (f : Dir → Block → Block) (s s' t t' : State) (m : Nat) (i : Instr), i = .ltgen ∨ i = .emee ∨ i = .emed →
    Accepted i s → Accepted i s' → CommandReady m i s → CommandReady m i s' →
    (i ≠ .ltgen → s'.tweak = s.tweak ∧ ∀ j < m, s'.inBlock j = s.inBlock j) →
    promptRun f (1 + 2 * callCount m i) s = .next t → promptRun f (1 + 2 * callCount m i) s' = .next t' →
    (∀ j < m, t'.outBlock j = t.outBlock j) ∧ t'.calls = t.calls
      ∧ (s'.ovr = s.ovr → t'.statusWord = t.statusWord)

/-! ## The host's window -/

/-- R173: the write of a word to CMD while BUSY = 0 accepts it, legal or not; OVR, CTRL, MLEN, TLEN, TWEAK, IN and OUT are
unchanged, and `irq` is 0 (R265). The same write while BUSY = 1 is dropped and sets OVR. -/
def Obligations.WriteToCmdAcceptsTheWord : Prop :=
  ∀ (s : State) (v : Word), s.rstN = true → s.nextEvent = hostWr 0x00C v →
    (s.busy = true → step s = .next { s.afterEvent with ovr := true, hAnswer := { rdata := 0, err := false } }) ∧
    (s.busy = false → ∃ t, step s = .next t
      ∧ t.lastcmd = v
      ∧ t.scratch.cur.op = v.extractLsb' 0 4 ∧ t.scratch.cur.dst = v.extractLsb' 8 8
      ∧ t.scratch.cur.srca = v.extractLsb' 16 8 ∧ t.scratch.cur.srcb = v.extractLsb' 24 8
      ∧ (t.scratch.cur.dir = .dec ↔ v.extractLsb' 0 4 = 0x4 ∨ v.extractLsb' 0 4 = 0x7)
      ∧ t.busy = true ∧ t.done = false ∧ t.resultValid = false ∧ t.errcode = .none ∧ t.calls = 0 ∧ t.phase = .exec
      ∧ t.ovr = s.ovr ∧ t.irqEn = s.irqEn ∧ t.mlen = s.mlen ∧ t.tlen = s.tlen ∧ t.tweak = s.tweak ∧ SameBytes s t
      ∧ t.hAnswer = { rdata := 0, err := false } ∧ t.irq = false)

/-- R90: while BUSY = 1 a legal write to CMD, MLEN, TLEN, TWEAK or IN changes nothing but OVR, which it sets; it is answered
without error. -/
def Obligations.WritesToInputsAreDroppedWhileBusy : Prop :=
  ∀ (s : State) (x : HostAccess), s.rstN = true → s.busy = true → InputWrite x →
    s.hostAccess x = { s with ovr := true, hAnswer := { rdata := 0, err := false } }

/-- R83, R88, R263: an access of another size than 32 bits, a misaligned one, and one to a reserved offset are answered
with a bus error and change nothing else. -/
def Obligations.BusErrorsChangeNothing : Prop :=
  ∀ (s : State) (x : HostAccess),
    x.size ≠ 2 ∨ x.addr.toNat % 4 ≠ 0 ∨ (0x030 ≤ x.addr.toNat ∧ x.addr.toNat < 0x1000) →
    s.hostAccess x = { s with hAnswer := { rdata := 0, err := true } }

/-- R89: a legal write to ID, CALLS, BCSIZE or OUT is answered without error and changes nothing else, busy or not. -/
def Obligations.WritesToReadOnlyAreIgnored : Prop :=
  ∀ (s : State) (x : HostAccess), s.rstN = true → x.legal = true → x.write = true →
    x.addr.toNat = 0x000 ∨ x.addr.toNat = 0x018 ∨ x.addr.toNat = 0x01C ∨ 0x1800 ≤ x.addr.toNat →
    s.hostAccess x = { s with hAnswer := { rdata := 0, err := false } }

/-- R84, R31, R32, R38, R39, R40 to R43: what a legal read of each register returns; a read
changes nothing but the answer, whatever it reads. -/
def Obligations.RegistersReadAsTheRulesSay : Prop :=
  ∀ s : State, s.rstN = true →
    (∀ x : HostAccess, x.write = false → OnlyAnswer s (s.hostAccess x)) ∧
    (∀ (a : Offset) (v : Word),
      (a = 0x000 ∧ v = 0x454D4501)
      ∨ (a = 0x004 ∧ v = if s.irqEn then 1 else 0)
      ∨ (a = 0x008 ∧ v.toNat = 256 * s.errcode.code.toNat + 8 * s.ovr.toNat + 4 * s.resultValid.toNat
          + 2 * s.done.toNat + s.busy.toNat)
      ∨ (a = 0x00C ∧ v = s.lastcmd) ∨ (a = 0x010 ∧ v = s.mlen) ∨ (a = 0x014 ∧ v = s.tlen)
      ∨ (a = 0x018 ∧ v = s.calls) ∨ (a = 0x01C ∧ v.toNat = s.bcBlockSize.toNat) →
      (s.hostAccess { write := false, size := 2, addr := a, wdata := 0 }).hAnswer = { rdata := v, err := false })

/-- R84, R86, R87: byte `i` of the word a legal read of IN, OUT or TWEAK returns is the byte at the offset plus `i`. -/
def Obligations.BuffersReadLittleEndian : Prop :=
  ∀ (s : State) (a : Offset) (i : Nat), s.rstN = true → a.toNat % 4 = 0 → i < 4 →
    (0x1000 ≤ a.toNat →
      (s.hostAccess { write := false, size := 2, addr := a, wdata := 0 }).hAnswer.err = false
      ∧ (s.hostAccess { write := false, size := 2, addr := a, wdata := 0 }).hAnswer.rdata.extractLsb' (8 * i) 8
        = s.byteAt (a.toNat + i))
    ∧ (0x020 ≤ a.toNat → a.toNat < 0x030 →
      (s.hostAccess { write := false, size := 2, addr := a, wdata := 0 }).hAnswer.err = false
      ∧ (s.hostAccess { write := false, size := 2, addr := a, wdata := 0 }).hAnswer.rdata.extractLsb' (8 * i) 8
        = byteOf s.tweak (a.toNat - 0x020 + i))

/-- R83, R91, R93: an access, read or write, is one step and nothing else happens in it: a step whose event is an access
does that access, which the statements about accesses describe. R85, R86, R40, R41, R44, R45: writes of `v` while BUSY = 0. A
write to IN stores byte `i` of `v` at the offset plus `i`, a
write to TWEAK its four bytes, a write to MLEN or TLEN the word; no other byte and no other register changes. -/
def Obligations.WritesStoreTheWord : Prop :=
  (∀ (s : State) (x : HostAccess), s.nextEvent = .host x → step s = .next (s.afterEvent.hostAccess x))
  ∧ ∀ (s : State) (v : Word), s.rstN = true → s.busy = false →
    (∀ a : Offset, a.toNat % 4 = 0 → 0x1000 ≤ a.toNat → a.toNat < 0x1800 →
      ∃ t, s.hostAccess { write := true, size := 2, addr := a, wdata := v } = t
        ∧ (∀ i < 4, t.byteAt (a.toNat + i) = v.extractLsb' (8 * i) 8)
        ∧ SameBytesOutside a.toNat 4 s t
        ∧ t = { s with mem := t.mem, hAnswer := { rdata := 0, err := false } })
    ∧ s.hostAccess { write := true, size := 2, addr := 0x010, wdata := v }
      = { s with mlen := v, hAnswer := { rdata := 0, err := false } }
    ∧ s.hostAccess { write := true, size := 2, addr := 0x014, wdata := v }
      = { s with tlen := v, hAnswer := { rdata := 0, err := false } }
    ∧ ∀ i < 4, ∃ b, s.hostAccess { write := true, size := 2, addr := BitVec.ofNat 13 (0x020 + 4 * i), wdata := v }
        = { s with tweak := b, hAnswer := { rdata := 0, err := false } }
      ∧ ∀ k < 16, byteOf b k = if 4 * i ≤ k ∧ k < 4 * i + 4 then v.extractLsb' (8 * (k - 4 * i)) 8 else byteOf s.tweak k

/-- R32, R38, R90: writes to CTRL and STATUS take effect whether or not a command runs: CTRL takes bit 0, STATUS's DONE and
OVR are cleared by a 1 in bits 1 and 3; no other bit does anything. -/
def Obligations.WritesToCtrlAndStatusTakeEffect : Prop :=
  ∀ (s : State) (v : Word), s.rstN = true →
    s.hostAccess { write := true, size := 2, addr := 0x004, wdata := v }
      = { s with irqEn := v.getLsbD 0, hAnswer := { rdata := 0, err := false } }
    ∧ s.hostAccess { write := true, size := 2, addr := 0x008, wdata := v }
      = { s with
          done := if v.getLsbD 1 then false else s.done
          ovr := if v.getLsbD 3 then false else s.ovr
          hAnswer := { rdata := 0, err := false } }

/-- R264, R265: `irq` is IRQ_EN AND DONE in every state, in reset too: a completion raises it when it is enabled, clearing DONE or IRQ_EN lowers it, and
setting IRQ_EN with DONE = 1 raises it, by accesses out of reset. -/
def Obligations.InterruptFollowsDoneAndEnable : Prop :=
  ∀ s : State,
    (s.irq = true ↔ s.irqEn = true ∧ s.done = true)
    ∧ (∀ t e, (Succeeded t ∨ Failed e t) → t.irqEn = s.irqEn → t.irq = s.irqEn)
    ∧ (s.rstN = true →
      (s.hostAccess { write := true, size := 2, addr := 0x008, wdata := 2 }).irq = false
      ∧ (s.hostAccess { write := true, size := 2, addr := 0x004, wdata := 0 }).irq = false
      ∧ (s.hostAccess { write := true, size := 2, addr := 0x004, wdata := 1 }).irq = s.done)

/-! ## The cipher port -/

/-- R162, R166: in ISSUE, out of reset, `bc_req_ready` makes the accept: CALLS grows by one and the phase becomes AWAIT,
nothing else changes; in another phase it is ignored, and so is a response outside AWAIT, in reset or not. R175, R275: the
sequencer's turn outside EXEC does nothing. R161, R287: a change of the `bc_block_size` port changes the port's value and
nothing else. -/
def Obligations.PortEventsActInTheirPhaseAlone : Prop :=
  ∀ s : State,
    (s.rstN = true → s.nextEvent = .reqReady → s.phase = .issue →
      step s = .next { s.afterEvent with calls := s.calls + 1, phase := .await })
    ∧ (s.nextEvent = .reqReady → s.phase ≠ .issue → step s = .next s.afterEvent)
    ∧ (∀ r, s.nextEvent = .rsp r → s.phase ≠ .await → step s = .next s.afterEvent)
    ∧ (s.nextEvent = .sequencer → s.phase ≠ .exec → step s = .next s.afterEvent)
    ∧ ∀ v, s.nextEvent = .blockSize v → step s = .next { s.afterEvent with bcBlockSize := v }

/-- R162: the request port: valid exactly in ISSUE, where it carries REQ; and from the step that enters ISSUE to the accept
the request stands, whatever the host does; only the accept and a reset end it. -/
def Obligations.RequestIsStableUntilAccepted : Prop :=
  ∀ s t : State, step s = .next t →
    (s.bcReqValid = true ↔ s.phase = .issue)
    ∧ (s.phase = .issue → (s.bcReqDir = true ↔ s.scratch.req.dir = .dec) ∧ s.bcReqData = s.scratch.req.data)
    ∧ (MachineInv s → s.phase = .issue → s.nextEvent ≠ .reqReady → s.nextEvent ≠ .resetLow →
      t.phase = .issue ∧ t.bcReqDir = s.bcReqDir ∧ t.bcReqData = s.bcReqData ∧ t.calls = s.calls)

/-! ## Reset -/

/-- R59, R280: what reset leaves, read through the window: ID, CTRL, STATUS, CMD, MLEN, TLEN, CALLS, TWEAK; the sequencer
idle with k = 0, no request, no interrupt, IN and OUT unwritten. -/
def Obligations.ResetLeavesTheStatedValues : Prop :=
  State.reset.readWord 0x000 = some 0x454D4501 ∧ State.reset.readWord 0x004 = some 0
  ∧ State.reset.readWord 0x008 = some 0 ∧ State.reset.readWord 0x00C = some 0
  ∧ State.reset.readWord 0x010 = some 0 ∧ State.reset.readWord 0x014 = some 16
  ∧ State.reset.readWord 0x018 = some 0 ∧ State.reset.tweak = 0
  ∧ State.reset.readWord 0x01C = some (State.reset.bcBlockSize.setWidth 32)
  ∧ State.reset.phase = .idle ∧ State.reset.k = 0 ∧ State.reset.bcReqValid = false ∧ State.reset.irq = false
  ∧ State.reset.mem = []

/-- R280, R281, R282: the step in which `rst_n` goes low, in any state, and the step in which it is released give the registers
their reset values, abandon a running command and leave every byte of IN and OUT unwritten: a new unspecified byte, the
model's free value (log entries 1 and 13). An access made while `rst_n = 0` is answered with `h_err = 1` and changes no state of the
block; its `h_rdata`, and the count of draws that goes with it, are the model's and are left open here (log entry 21). -/
def Obligations.ResetAbandonsTheCommand : Prop :=
  ∀ s : State, (s.rstN = true ∧ s.nextEvent = .resetLow) ∨ (s.rstN = false ∧ s.nextEvent = .resetHigh) →
    ∃ t, step s = .next t ∧ t.rstN = !s.rstN
      ∧ t.irqEn = false ∧ t.statusWord = 0 ∧ t.lastcmd = 0 ∧ t.mlen = 0 ∧ t.tlen = 16 ∧ t.calls = 0 ∧ t.tweak = 0
      ∧ t.phase = .idle ∧ t.k = 0 ∧ t.bcReqValid = false ∧ t.irq = false
      ∧ t.mem = [] ∧ (∀ a, t.byteAt a = unwrittenByte (s.epoch + 1) a)
      ∧ (t.rstN = false → ∀ x, ∃ r n, t.hostAccess x = { t with hAnswer := { rdata := r, err := true }, draws := n })

/-! ## The whole machine -/

/-- The state after reset meets the invariant. -/
def Obligations.ResetMeetsTheInvariant : Prop := MachineInv State.reset

/-- The invariant (R50, R98, R175, R252, R271, R280; the memory's form is the model's own) is kept by every step. -/
def Obligations.EveryStepKeepsTheInvariant : Prop :=
  ∀ s t : State, MachineInv s → step s = .next t → MachineInv t

/-- R175: the only phase transitions of a step, with the events that make them and their effects. -/
def Obligations.PhasesChangeOnlyAsTheTableSays : Prop :=
  ∀ s t : State, MachineInv s → step s = .next t → t.phase ≠ s.phase →
    (s.phase = .idle ∧ t.phase = .exec ∧ t.busy = true
      ∧ ∃ v, t.lastcmd = v ∧ s.nextEvent = .host { write := true, size := 2, addr := 0x00C, wdata := v })
    ∨ (s.phase = .exec ∧ s.nextEvent = .sequencer
      ∧ ((t.phase = .idle ∧ (Succeeded t ∨ ∃ e, e ≠ .none ∧ Failed e t)) ∨ (t.phase = .issue ∧ t.k = 0)))
    ∨ (s.phase = .issue ∧ t.phase = .await ∧ s.nextEvent = .reqReady ∧ t.calls = s.calls + 1)
    ∨ (s.phase = .await ∧ ∃ r, s.nextEvent = .rsp r
      ∧ ((r.err = true ∧ Failed .underlyingCipherFailure t)
        ∨ (r.err = false ∧ ((t.phase = .issue ∧ t.k = s.k + 1) ∨ Succeeded t))))
    ∨ (t.phase = .idle ∧ s.nextEvent = .resetLow)

/-- R94, R95, R255: while a command runs, no step but a reset changes MLEN, TLEN, TWEAK or LASTCMD, and no step that does
not end it with success changes a byte of IN or OUT. -/
def Obligations.ARunningCommandFreezesInputsAndHidesResults : Prop :=
  ∀ s t : State, MachineInv s → step s = .next t → s.busy = true → t.rstN = true →
    t.mlen = s.mlen ∧ t.tlen = s.tlen ∧ t.tweak = s.tweak ∧ t.lastcmd = s.lastcmd
    ∧ (t.busy = true ∨ t.resultValid = false → SameBytes s t)

/-- R223, R45: no step of LTGEN, EMEE or EMED, its last included, changes a byte of IN (a reset apart). -/
def Obligations.TransformNeverWritesIn : Prop :=
  ∀ (s t : State) (i : Instr), MachineInv s → step s = .next t → s.busy = true → t.rstN = true →
    decode s.lastcmd = .ok i → i = .ltgen ∨ i = .emee ∨ i = .emed →
    ∀ a < 0x1800, t.byteAt a = s.byteAt a

/-- R219, R253: in the step that ends a command with success CALLS holds the command's number of calls: 0 for NOP, DBL
and XOR, 1 for BCE, BCD and LTGEN, 2m + 2 for EMEE and EMED; codes 1, 2, 3 and 6 end a command with CALLS = 0, and code 5
with the failing call's index plus one. -/
def Obligations.CallsCountsTheCommandsCalls : Prop :=
  ∀ s t : State, MachineInv s → step s = .next t → s.busy = true → t.busy = false → t.rstN = true →
    (t.resultValid = true →
      ∃ i, decode s.lastcmd = .ok i ∧ t.calls.toNat = callCount (s.mlen.toNat / 16) i)
    ∧ (t.errcode = .invalidBlockSize ∨ t.errcode = .invalidTweakLength ∨ t.errcode = .invalidMessageLength
        ∨ t.errcode = .illegalCommand → t.calls = 0)
    ∧ (t.errcode = .underlyingCipherFailure → t.calls.toNat = s.k + 1)

/-- R42: CALLS is cleared by an accept (and by reset), grows by one with each request handshake, is otherwise unchanged, and
never exceeds 258. -/
def Obligations.CallsChangesOnlyAsTheRuleSays : Prop :=
  ∀ s t : State, MachineInv s → step s = .next t →
    t.calls.toNat ≤ 258
    ∧ (s.phase = .idle → t.phase = .exec → t.calls = 0)
    ∧ (s.phase = .issue → t.phase = .await → t.calls = s.calls + 1)
    ∧ (t.rstN ≠ s.rstN → t.calls = 0)
    ∧ (t.calls ≠ s.calls → (s.phase = .idle ∧ t.phase = .exec) ∨ (s.phase = .issue ∧ t.phase = .await) ∨ t.rstN ≠ s.rstN)

/-- R36: OVR is set by, and only by, a host write dropped because a command runs, and cleared by, and only by, a host write to
STATUS with bit 3 set, or by reset; no accept and no completion changes it. -/
def Obligations.OvrChangesOnlyAsTheRuleSays : Prop :=
  ∀ s t : State, step s = .next t →
    (s.ovr = false → t.ovr = true → s.busy = true ∧ ∃ x, s.nextEvent = .host x ∧ InputWrite x)
    ∧ (s.ovr = true → t.ovr = false → s.nextEvent = .resetLow ∨ s.nextEvent = .resetHigh
      ∨ ∃ v : Word, v.getLsbD 3 = true ∧ s.nextEvent = .host { write := true, size := 2, addr := 0x008, wdata := v })
    ∧ (s.rstN = true → s.busy = true → (∃ x, s.nextEvent = .host x ∧ InputWrite x) → t.ovr = true)
    ∧ (s.rstN = true → (∃ v : Word, v.getLsbD 3 = true
      ∧ s.nextEvent = .host { write := true, size := 2, addr := 0x008, wdata := v }) → t.ovr = false)
    ∧ (t.rstN ≠ s.rstN → t.ovr = false)

/-- R33, R34, R35, R37: how BUSY, DONE, RESULT_VALID and ERRCODE change. A step leaves all four, or is an accept, a
completion, a clearing of DONE or a reset. An accepted write to CMD sets BUSY and clears the others; a completion clears
BUSY and sets DONE, with RESULT_VALID set and ERRCODE 0 or RESULT_VALID 0 and ERRCODE an error; a host write to STATUS with
bit 1 set clears DONE alone; a change of `rst_n` clears all. -/
def Obligations.StatusChangesOnlyAsTheRulesSay : Prop :=
  ∀ s t : State, MachineInv s → step s = .next t →
    (SameStatus s t
    ∨ (s.busy = false ∧ t.busy = true ∧ t.done = false ∧ t.resultValid = false ∧ t.errcode = .none ∧ t.phase = .exec)
    ∨ (s.busy = true ∧ s.phase ≠ .issue ∧ (Succeeded t ∨ ∃ e, e ≠ .none ∧ Failed e t))
    ∨ (t = { s.afterEvent with done := false, ovr := t.ovr, hAnswer := t.hAnswer }
        ∧ ∃ v : Word, v.getLsbD 1 = true ∧ s.nextEvent = .host { write := true, size := 2, addr := 0x008, wdata := v })
    ∨ (t.statusWord = 0 ∧ (s.nextEvent = .resetLow ∨ s.nextEvent = .resetHigh)))
    ∧ (s.rstN = true → s.busy = false → (∃ v : Word,
        s.nextEvent = .host { write := true, size := 2, addr := 0x00C, wdata := v }) →
      t.busy = true ∧ t.done = false ∧ t.resultValid = false ∧ t.errcode = .none ∧ t.phase = .exec)
    ∧ (s.phase ≠ .idle → t.phase = .idle → t.rstN = true → Succeeded t ∨ ∃ e, e ≠ .none ∧ Failed e t)
    ∧ (s.rstN = true → (∃ v : Word, v.getLsbD 1 = true
        ∧ s.nextEvent = .host { write := true, size := 2, addr := 0x008, wdata := v }) →
      t.done = false ∧ t.busy = s.busy ∧ t.resultValid = s.resultValid ∧ t.errcode = s.errcode)
    ∧ (t.rstN ≠ s.rstN → t.statusWord = 0)

/-- R169, R275: a block that waits keeps waiting: a step in which no agent acts changes nothing, in whatever phase, so a
command whose call is never accepted or never answered never completes. -/
def Obligations.NothingHappensWhileNobodyActs : Prop :=
  ∀ s : State, (s.nextEvent = .quiet → step s = .next s.afterEvent)
    ∧ (s.inputs = [] → s.phase = .idle → step s = .next s)

/-! ## A call that fails -/

/-- R228, R226: in a run of LTGEN, EMEE or EMED whose first failing call is number `n`, whatever calls after it would do, the
command ends with that call's response, `1 + 2(n + 1)` steps after its accept, with code 5 and CALLS = n + 1, no byte of IN
or OUT changed; nothing else enters that result. -/
def Obligations.FailingCallEndsTheTransform : Prop :=
  ∀ (f : Dir → Block → Block) (fails : Nat → Bool) (s : State) (m n : Nat) (i : Instr), i = .ltgen ∨ i = .emee ∨ i = .emed →
    Accepted i s → CommandReady m i s → n < callCount m i → fails n = true → (∀ k < n, fails k = false) →
    ∃ t, agentRun f fails (1 + 2 * (n + 1)) s = .next t ∧ Failed .underlyingCipherFailure t ∧ t.calls.toNat = n + 1
      ∧ t.bcReqValid = false ∧ t.tweak = s.tweak ∧ t.mlen = s.mlen ∧ t.tlen = s.tlen ∧ SameBytes s t
end

