-- ==== Sys2Proof/Laws/Bytes.lean ====
section
/-! SUPPORT. The laws of byte order, of the XOR unit, and of the pseudocode's loop. -/

namespace Sys2Proof.Machine

/-! ## Blocks and their bytes -/

theorem getLsbD_byteOf (b : Block) (k i : Nat) : (byteOf b k).getLsbD i = (decide (i < 8) && b.getLsbD (8 * k + i)) := by
  simp [byteOf]

theorem byteOf_blockOfFirst (f : Nat → Byte) {n k : Nat} (hk : k < 16) :
    byteOf (blockOfFirst f n) k = if k < n then f k else 0 := by
  induction n with
  | zero => simp [blockOfFirst, byteOf]
  | succ n ih =>
    apply BitVec.eq_of_getLsbD_eq
    intro i hi
    have ih' := congrArg (fun x => x.getLsbD i) ih
    simp only [getLsbD_byteOf, hi, decide_true, Bool.true_and] at ih'
    simp only [getLsbD_byteOf, blockOfFirst, BitVec.getLsbD_or, ih', BitVec.getLsbD_shiftLeft, BitVec.getLsbD_setWidth,
      hi, decide_true, Bool.true_and]
    rcases Nat.lt_trichotomy k n with h | h | h
    · have h1 : 8 * k + i < 8 * n := by omega
      simp [h, Nat.lt_succ_of_lt h, h1]
    · subst h
      have h1 : 8 * k + i < 128 := by omega
      have h2 : ¬ 8 * k + i < 8 * k := by omega
      have h3 : 8 * k + i - 8 * k = i := by omega
      have h4 : i < 128 := by omega
      simp [h1, h3, h4]
    · have h1 : ¬ k < n := by omega
      have h2 : ¬ k < n + 1 := by omega
      have h3 : (f n).getLsbD (8 * k + i - 8 * n) = false := BitVec.getLsbD_of_ge _ _ (by omega)
      simp [h1, h2, h3]

/-- The bytes of the block made of the bytes `f`. -/
@[simp] theorem byteOf_blockOf (f : Nat → Byte) {k : Nat} (hk : k < 16) : byteOf (blockOf f) k = f k := by
  simp [blockOf, byteOf_blockOfFirst f hk, hk]

/-- A block is its 16 bytes. -/
theorem block_ext {a b : Block} (h : ∀ k < 16, byteOf a k = byteOf b k) : a = b := by
  apply BitVec.eq_of_getLsbD_eq
  intro i hi
  have := congrArg (fun x => x.getLsbD (i % 8)) (h (i / 8) (by omega))
  have h1 : i % 8 < 8 := Nat.mod_lt _ (by omega)
  simpa only [getLsbD_byteOf, h1, decide_true, Bool.true_and, Nat.div_add_mod] using this

@[simp] theorem blockOf_byteOf (b : Block) : blockOf (byteOf b) = b :=
  block_ext fun _ hk => byteOf_blockOf _ hk

theorem blockOf_congr {f g : Nat → Byte} (h : ∀ k < 16, f k = g k) : blockOf f = blockOf g :=
  block_ext fun k hk => by rw [byteOf_blockOf _ hk, byteOf_blockOf _ hk, h k hk]

@[simp] theorem byteOf_zero (k : Nat) : byteOf 0 k = 0 := by simp [byteOf]

theorem byteOf_xor (a b : Block) (k : Nat) : byteOf (a ^^^ b) k = byteOf a k ^^^ byteOf b k := by
  simp [byteOf, BitVec.extractLsb'_xor]

/-- The XOR unit's byte lanes are together the exclusive-or of the two 128-bit numbers. -/
theorem xorBlocks_eq (a b : Block) : xorBlocks a b = a ^^^ b :=
  block_ext fun k hk => by rw [xorBlocks, byteOf_blockOf _ hk, byteOf_xor]

/-! ## Words and their bytes -/

theorem getLsbD_wordByte (v : Word) (k i : Nat) :
    (wordByte v k).getLsbD i = (decide (i < 8) && v.getLsbD (8 * k + i)) := by simp [wordByte]

/-- A word is its four bytes in little-endian order. -/
@[simp] theorem wordOf_wordByte (v : Word) :
    wordOf (wordByte v 0) (wordByte v 1) (wordByte v 2) (wordByte v 3) = v := by
  apply BitVec.eq_of_getLsbD_eq
  intro i hi
  simp only [wordOf, BitVec.getLsbD_or, BitVec.getLsbD_setWidth, BitVec.getLsbD_shiftLeft, getLsbD_wordByte]
  interval_cases i <;> simp

/-- Byte `i` of the word made of four bytes. -/
theorem wordByte_wordOf (b0 b1 b2 b3 : Byte) :
    wordByte (wordOf b0 b1 b2 b3) 0 = b0 ∧ wordByte (wordOf b0 b1 b2 b3) 1 = b1 ∧
    wordByte (wordOf b0 b1 b2 b3) 2 = b2 ∧ wordByte (wordOf b0 b1 b2 b3) 3 = b3 := by
  refine ⟨?_, ?_, ?_, ?_⟩ <;>
  · apply BitVec.eq_of_getLsbD_eq
    intro i hi
    simp only [wordOf, BitVec.getLsbD_or, BitVec.getLsbD_setWidth, BitVec.getLsbD_shiftLeft, getLsbD_wordByte]
    interval_cases i <;> simp

/-- The bytes of a block one of whose words was replaced. -/
theorem byteOf_setBlockWord (b : Block) (i : Nat) (v : Word) {k : Nat} (hk : k < 16) :
    byteOf (setBlockWord b i v) k = if k / 4 = i then wordByte v (k % 4) else byteOf b k := by
  rw [setBlockWord, byteOf_blockOf _ hk]

/-- Reading back the word of a block that was written. -/
@[simp] theorem blockWord_setBlockWord (b : Block) {i : Nat} (v : Word) (hi : i < 4) :
    blockWord (setBlockWord b i v) i = v := by
  unfold blockWord
  rw [byteOf_setBlockWord _ _ _ (by omega), byteOf_setBlockWord _ _ _ (by omega),
    byteOf_setBlockWord _ _ _ (by omega), byteOf_setBlockWord _ _ _ (by omega),
    if_pos (by omega), if_pos (by omega), if_pos (by omega), if_pos (by omega)]
  have h0 : 4 * i % 4 = 0 := by omega
  have h1 : (4 * i + 1) % 4 = 1 := by omega
  have h2 : (4 * i + 2) % 4 = 2 := by omega
  have h3 : (4 * i + 3) % 4 = 3 := by omega
  rw [h0, h1, h2, h3, wordOf_wordByte]

/-! ## The loop -/

variable {α : Type}

@[simp] theorem forUp_zero (f : Nat → α → α) (j : Nat) (a : α) : forUp f 0 j a = a := rfl

theorem forUp_succ (f : Nat → α → α) (n j : Nat) (a : α) : forUp f (n + 1) j a = forUp f n (j + 1) (f j a) := rfl

/-- The loop's last round, taken off at the end. -/
theorem forUp_succ_last (f : Nat → α → α) (n j : Nat) (a : α) :
    forUp f (n + 1) j a = f (j + n) (forUp f n j a) := by
  induction n generalizing j a with
  | zero => rfl
  | succ n ih =>
    rw [forUp_succ, ih, forUp_succ]
    congr 1
    omega

/-- The loop rule: what holds before the loop and is carried by every round holds after it. -/
theorem forUp_induct {P : Nat → α → Prop} (f : Nat → α → α) {n j : Nat} {a : α} (h0 : P 0 a)
    (hs : ∀ i b, i < n → P i b → P (i + 1) (f (j + i) b)) : P n (forUp f n j a) := by
  induction n with
  | zero => exact h0
  | succ n ih =>
    rw [forUp_succ_last]
    exact hs n _ (Nat.lt_succ_self n) (ih fun i b hi => hs i b (Nat.lt_succ_of_lt hi))

end Sys2Proof.Machine
end

