-- ==== Sys2Proof/Laws/Cells.lean ====
section
/-! SUPPORT. The laws of the sparse stores: read after write, writes elsewhere, and the canonical form. -/

namespace Sys2Proof.Machine

variable {α : Type}

@[simp] theorem cellAt_nil (a : Nat) : cellAt a ([] : List (Nat × α)) = none := rfl

/-- Reading the key just written gives the value written. -/
@[simp] theorem cellAt_putCell_self (a : Nat) (v : α) (l : List (Nat × α)) : cellAt a (putCell a v l) = some v := by
  induction l with
  | nil => simp [putCell, cellAt]
  | cons c l ih =>
    simp only [putCell]
    split
    · simp [cellAt]
    · split
      · simp [cellAt]
      · rename_i h
        simp [cellAt, ih, Ne.symm h]

/-- A write leaves every other key alone. -/
theorem cellAt_putCell_ne {a b : Nat} (h : b ≠ a) (v : α) (l : List (Nat × α)) :
    cellAt b (putCell a v l) = cellAt b l := by
  induction l with
  | nil => simp [putCell, cellAt, Ne.symm h]
  | cons c l ih =>
    simp only [putCell]
    split
    · simp [cellAt, Ne.symm h]
    · split
      · rename_i hc
        simp [cellAt, ← hc, Ne.symm h]
      · simp [cellAt, ih]

/-- What a write leaves at any key. -/
theorem cellAt_putCell (a b : Nat) (v : α) (l : List (Nat × α)) :
    cellAt b (putCell a v l) = if b = a then some v else cellAt b l := by
  split
  · rename_i h; simp [h]
  · rename_i h; exact cellAt_putCell_ne h v l

/-- The keys of a store after a write are the old ones and the one written. -/
theorem mem_putCell {a : Nat} {v : α} {l : List (Nat × α)} {c : Nat × α} (h : c ∈ putCell a v l) :
    c = (a, v) ∨ c ∈ l := by
  induction l with
  | nil => simpa [putCell] using h
  | cons d l ih =>
    simp only [putCell] at h
    split at h
    · simpa using h
    · split at h
      · rcases List.mem_cons.1 h with h | h
        · exact .inl h
        · exact .inr (List.mem_cons_of_mem _ h)
      · rcases List.mem_cons.1 h with h | h
        · exact .inr (h ▸ List.mem_cons_self)
        · rcases ih h with h | h
          · exact .inl h
          · exact .inr (List.mem_cons_of_mem _ h)

/-- A write keeps the keys strictly rising. -/
theorem putCell_rising {a : Nat} {v : α} {l : List (Nat × α)} (h : Rising l) : Rising (putCell a v l) := by
  induction l with
  | nil => simp [putCell, Rising]
  | cons c l ih =>
    obtain ⟨hc, hl⟩ := List.pairwise_cons.1 h
    simp only [putCell]
    split
    · rename_i hac
      refine List.pairwise_cons.2 ⟨fun d hd => ?_, h⟩
      rcases List.mem_cons.1 hd with rfl | hd
      · exact hac
      · exact Nat.lt_trans hac (hc d hd)
    · split
      · rename_i hac
        exact List.pairwise_cons.2 ⟨fun d hd => by simpa [hac] using hc d hd, hl⟩
      · rename_i h1 h2
        refine List.pairwise_cons.2 ⟨fun d hd => ?_, ih hl⟩
        rcases mem_putCell hd with rfl | hd
        · show c.1 < a
          omega
        · exact hc d hd

/-- A write inside IN and OUT keeps the memory's canonical form. -/
theorem putCell_wf {a : Nat} {v : Byte} {m : List Host.Cell} (h : Memory.wf m) (ha : 0x1000 ≤ a) (hb : a < 0x2000) :
    Memory.wf (putCell a v m) :=
  ⟨putCell_rising h.1, fun c hc => by
    rcases mem_putCell hc with rfl | hc
    · exact ⟨ha, hb⟩
    · exact h.2 c hc⟩

end Sys2Proof.Machine
end

