-- ==== Sys2Proof/Laws/Encoding.lean ====
section
/-! SUPPORT. The fields of a packed command word, and a word packed from its own fields (spec 30_encoding.md rule R110). -/

namespace Sys2Proof

variable (op rsv : BitVec 4) (d a b : BlockAddr)

theorem fieldOp_packWord : fieldOp (packWord op rsv d a b) = op := by
  apply BitVec.eq_of_getLsbD_eq
  intro i hi
  simp only [packWord, fieldOp, BitVec.getLsbD_extractLsb', BitVec.getLsbD_or, BitVec.getLsbD_setWidth,
    BitVec.getLsbD_shiftLeft]
  interval_cases i <;> simp

theorem fieldRsv_packWord : fieldRsv (packWord op rsv d a b) = rsv := by
  apply BitVec.eq_of_getLsbD_eq
  intro i hi
  simp only [packWord, fieldRsv, BitVec.getLsbD_extractLsb', BitVec.getLsbD_or, BitVec.getLsbD_setWidth,
    BitVec.getLsbD_shiftLeft]
  interval_cases i <;> simp

theorem fieldDst_packWord : fieldDst (packWord op rsv d a b) = d := by
  apply BitVec.eq_of_getLsbD_eq
  intro i hi
  simp only [packWord, fieldDst, BitVec.getLsbD_extractLsb', BitVec.getLsbD_or, BitVec.getLsbD_setWidth,
    BitVec.getLsbD_shiftLeft]
  interval_cases i <;> simp

theorem fieldSrca_packWord : fieldSrca (packWord op rsv d a b) = a := by
  apply BitVec.eq_of_getLsbD_eq
  intro i hi
  simp only [packWord, fieldSrca, BitVec.getLsbD_extractLsb', BitVec.getLsbD_or, BitVec.getLsbD_setWidth,
    BitVec.getLsbD_shiftLeft]
  interval_cases i <;> simp

theorem fieldSrcb_packWord : fieldSrcb (packWord op rsv d a b) = b := by
  apply BitVec.eq_of_getLsbD_eq
  intro i hi
  simp only [packWord, fieldSrcb, BitVec.getLsbD_extractLsb', BitVec.getLsbD_or, BitVec.getLsbD_setWidth,
    BitVec.getLsbD_shiftLeft]
  interval_cases i <;> simp

/-- A word is packed from its five fields: they cover all its bits. -/
theorem packWord_fields (w : Word) : packWord (fieldOp w) (fieldRsv w) (fieldDst w) (fieldSrca w) (fieldSrcb w) = w := by
  apply BitVec.eq_of_getLsbD_eq
  intro i hi
  simp only [packWord, fieldOp, fieldRsv, fieldDst, fieldSrca, fieldSrcb, BitVec.getLsbD_extractLsb', BitVec.getLsbD_or,
    BitVec.getLsbD_setWidth, BitVec.getLsbD_shiftLeft]
  interval_cases i <;> simp

/-- A word packed with RSV = 0 and an opcode of the map is legal when its unused fields are 0. -/
theorem legal_packWord (hop : op.toNat ≤ 7) (hu : unusedFieldsZero (packWord op 0 d a b) = true) :
    legal (packWord op 0 d a b) = true := by
  unfold legal
  rw [fieldOp_packWord, fieldRsv_packWord, hu, decide_eq_true hop]
  rfl

theorem unusedFieldsZero_packWord_none (h : op = 0 ∨ op = 5 ∨ op = 6 ∨ op = 7) :
    unusedFieldsZero (packWord op rsv 0 0 0) = true := by
  rcases h with rfl | rfl | rfl | rfl <;>
    simp [unusedFieldsZero, fieldOp_packWord, fieldDst_packWord, fieldSrca_packWord, fieldSrcb_packWord]

theorem unusedFieldsZero_packWord_two (h : op = 1 ∨ op = 3 ∨ op = 4) :
    unusedFieldsZero (packWord op rsv d a 0) = true := by
  rcases h with rfl | rfl | rfl <;> simp [unusedFieldsZero, fieldOp_packWord, fieldSrcb_packWord]

theorem unusedFieldsZero_packWord_xor : unusedFieldsZero (packWord 2 rsv d a b) = true := by
  simp [unusedFieldsZero, fieldOp_packWord]

end Sys2Proof
end

