-- ==== Sys2Proof/Laws/State.lean ====
section
/-! SUPPORT. One lemma per field per update of the state, so that no later proof unfolds a record update; and what each
update leaves of the bytes of IN and OUT. -/

namespace Sys2Proof.Machine

variable (s : State)

/-! ### putByte -/

@[simp] theorem State.putByte_irqEn (a : Nat) (v : Byte) : (s.putByte a v).irqEn = s.irqEn := rfl
@[simp] theorem State.putByte_busy (a : Nat) (v : Byte) : (s.putByte a v).busy = s.busy := rfl
@[simp] theorem State.putByte_done (a : Nat) (v : Byte) : (s.putByte a v).done = s.done := rfl
@[simp] theorem State.putByte_resultValid (a : Nat) (v : Byte) : (s.putByte a v).resultValid = s.resultValid := rfl
@[simp] theorem State.putByte_ovr (a : Nat) (v : Byte) : (s.putByte a v).ovr = s.ovr := rfl
@[simp] theorem State.putByte_errcode (a : Nat) (v : Byte) : (s.putByte a v).errcode = s.errcode := rfl
@[simp] theorem State.putByte_lastcmd (a : Nat) (v : Byte) : (s.putByte a v).lastcmd = s.lastcmd := rfl
@[simp] theorem State.putByte_mlen (a : Nat) (v : Byte) : (s.putByte a v).mlen = s.mlen := rfl
@[simp] theorem State.putByte_tlen (a : Nat) (v : Byte) : (s.putByte a v).tlen = s.tlen := rfl
@[simp] theorem State.putByte_calls (a : Nat) (v : Byte) : (s.putByte a v).calls = s.calls := rfl
@[simp] theorem State.putByte_tweak (a : Nat) (v : Byte) : (s.putByte a v).tweak = s.tweak := rfl
@[simp] theorem State.putByte_mem (a : Nat) (v : Byte) : (s.putByte a v).mem = putCell a v s.mem := rfl
@[simp] theorem State.putByte_phase (a : Nat) (v : Byte) : (s.putByte a v).phase = s.phase := rfl
@[simp] theorem State.putByte_k (a : Nat) (v : Byte) : (s.putByte a v).k = s.k := rfl
@[simp] theorem State.putByte_scratch (a : Nat) (v : Byte) : (s.putByte a v).scratch = s.scratch := rfl
@[simp] theorem State.putByte_bcBlockSize (a : Nat) (v : Byte) : (s.putByte a v).bcBlockSize = s.bcBlockSize := rfl
@[simp] theorem State.putByte_rstN (a : Nat) (v : Byte) : (s.putByte a v).rstN = s.rstN := rfl
@[simp] theorem State.putByte_rsp (a : Nat) (v : Byte) : (s.putByte a v).rsp = s.rsp := rfl
@[simp] theorem State.putByte_hAnswer (a : Nat) (v : Byte) : (s.putByte a v).hAnswer = s.hAnswer := rfl
@[simp] theorem State.putByte_inputs (a : Nat) (v : Byte) : (s.putByte a v).inputs = s.inputs := rfl
@[simp] theorem State.putByte_draws (a : Nat) (v : Byte) : (s.putByte a v).draws = s.draws := rfl
@[simp] theorem State.putByte_epoch (a : Nat) (v : Byte) : (s.putByte a v).epoch = s.epoch := rfl

/-! ### releaseScratch -/

@[simp] theorem State.releaseScratch_irqEn : (s.releaseScratch).irqEn = s.irqEn := rfl
@[simp] theorem State.releaseScratch_busy : (s.releaseScratch).busy = s.busy := rfl
@[simp] theorem State.releaseScratch_done : (s.releaseScratch).done = s.done := rfl
@[simp] theorem State.releaseScratch_resultValid : (s.releaseScratch).resultValid = s.resultValid := rfl
@[simp] theorem State.releaseScratch_ovr : (s.releaseScratch).ovr = s.ovr := rfl
@[simp] theorem State.releaseScratch_errcode : (s.releaseScratch).errcode = s.errcode := rfl
@[simp] theorem State.releaseScratch_lastcmd : (s.releaseScratch).lastcmd = s.lastcmd := rfl
@[simp] theorem State.releaseScratch_mlen : (s.releaseScratch).mlen = s.mlen := rfl
@[simp] theorem State.releaseScratch_tlen : (s.releaseScratch).tlen = s.tlen := rfl
@[simp] theorem State.releaseScratch_calls : (s.releaseScratch).calls = s.calls := rfl
@[simp] theorem State.releaseScratch_tweak : (s.releaseScratch).tweak = s.tweak := rfl
@[simp] theorem State.releaseScratch_mem : (s.releaseScratch).mem = s.mem := rfl
@[simp] theorem State.releaseScratch_phase : (s.releaseScratch).phase = s.phase := rfl
@[simp] theorem State.releaseScratch_k : (s.releaseScratch).k = Config.freeIndex s.draws % 258 := rfl
@[simp] theorem State.releaseScratch_scratch : (s.releaseScratch).scratch = Scratch.unspecified s.draws := rfl
@[simp] theorem State.releaseScratch_bcBlockSize : (s.releaseScratch).bcBlockSize = s.bcBlockSize := rfl
@[simp] theorem State.releaseScratch_rstN : (s.releaseScratch).rstN = s.rstN := rfl
@[simp] theorem State.releaseScratch_rsp : (s.releaseScratch).rsp = s.rsp := rfl
@[simp] theorem State.releaseScratch_hAnswer : (s.releaseScratch).hAnswer = s.hAnswer := rfl
@[simp] theorem State.releaseScratch_inputs : (s.releaseScratch).inputs = s.inputs := rfl
@[simp] theorem State.releaseScratch_draws : (s.releaseScratch).draws = s.draws + 1 := rfl
@[simp] theorem State.releaseScratch_epoch : (s.releaseScratch).epoch = s.epoch := rfl
@[simp] theorem State.releaseScratch_byteAt (x : Nat) : (s.releaseScratch).byteAt x = s.byteAt x := rfl
@[simp] theorem State.releaseScratch_blockAt (x : Nat) : (s.releaseScratch).blockAt x = s.blockAt x := rfl
@[simp] theorem State.releaseScratch_blk (x : BlockAddr) : (s.releaseScratch).blk x = s.blk x := rfl
@[simp] theorem State.releaseScratch_inBlock (x : Nat) : (s.releaseScratch).inBlock x = s.inBlock x := rfl
@[simp] theorem State.releaseScratch_outBlock (x : Nat) : (s.releaseScratch).outBlock x = s.outBlock x := rfl

/-! ### complete -/

@[simp] theorem State.complete_irqEn : (s.complete).irqEn = s.irqEn := rfl
@[simp] theorem State.complete_busy : (s.complete).busy = false := rfl
@[simp] theorem State.complete_done : (s.complete).done = true := rfl
@[simp] theorem State.complete_resultValid : (s.complete).resultValid = true := rfl
@[simp] theorem State.complete_ovr : (s.complete).ovr = s.ovr := rfl
@[simp] theorem State.complete_errcode : (s.complete).errcode = .none := rfl
@[simp] theorem State.complete_lastcmd : (s.complete).lastcmd = s.lastcmd := rfl
@[simp] theorem State.complete_mlen : (s.complete).mlen = s.mlen := rfl
@[simp] theorem State.complete_tlen : (s.complete).tlen = s.tlen := rfl
@[simp] theorem State.complete_calls : (s.complete).calls = s.calls := rfl
@[simp] theorem State.complete_tweak : (s.complete).tweak = s.tweak := rfl
@[simp] theorem State.complete_mem : (s.complete).mem = s.mem := rfl
@[simp] theorem State.complete_phase : (s.complete).phase = .idle := rfl
@[simp] theorem State.complete_k : (s.complete).k = Config.freeIndex s.draws % 258 := rfl
@[simp] theorem State.complete_scratch : (s.complete).scratch = Scratch.unspecified s.draws := rfl
@[simp] theorem State.complete_bcBlockSize : (s.complete).bcBlockSize = s.bcBlockSize := rfl
@[simp] theorem State.complete_rstN : (s.complete).rstN = s.rstN := rfl
@[simp] theorem State.complete_rsp : (s.complete).rsp = s.rsp := rfl
@[simp] theorem State.complete_hAnswer : (s.complete).hAnswer = s.hAnswer := rfl
@[simp] theorem State.complete_inputs : (s.complete).inputs = s.inputs := rfl
@[simp] theorem State.complete_draws : (s.complete).draws = s.draws + 1 := rfl
@[simp] theorem State.complete_epoch : (s.complete).epoch = s.epoch := rfl
@[simp] theorem State.complete_byteAt (x : Nat) : (s.complete).byteAt x = s.byteAt x := rfl
@[simp] theorem State.complete_blockAt (x : Nat) : (s.complete).blockAt x = s.blockAt x := rfl
@[simp] theorem State.complete_blk (x : BlockAddr) : (s.complete).blk x = s.blk x := rfl
@[simp] theorem State.complete_inBlock (x : Nat) : (s.complete).inBlock x = s.inBlock x := rfl
@[simp] theorem State.complete_outBlock (x : Nat) : (s.complete).outBlock x = s.outBlock x := rfl

/-! ### raiseError -/

@[simp] theorem State.raiseError_irqEn (e : ErrCode) : (s.raiseError e).irqEn = s.irqEn := rfl
@[simp] theorem State.raiseError_busy (e : ErrCode) : (s.raiseError e).busy = false := rfl
@[simp] theorem State.raiseError_done (e : ErrCode) : (s.raiseError e).done = true := rfl
@[simp] theorem State.raiseError_resultValid (e : ErrCode) : (s.raiseError e).resultValid = false := rfl
@[simp] theorem State.raiseError_ovr (e : ErrCode) : (s.raiseError e).ovr = s.ovr := rfl
@[simp] theorem State.raiseError_errcode (e : ErrCode) : (s.raiseError e).errcode = e := rfl
@[simp] theorem State.raiseError_lastcmd (e : ErrCode) : (s.raiseError e).lastcmd = s.lastcmd := rfl
@[simp] theorem State.raiseError_mlen (e : ErrCode) : (s.raiseError e).mlen = s.mlen := rfl
@[simp] theorem State.raiseError_tlen (e : ErrCode) : (s.raiseError e).tlen = s.tlen := rfl
@[simp] theorem State.raiseError_calls (e : ErrCode) : (s.raiseError e).calls = s.calls := rfl
@[simp] theorem State.raiseError_tweak (e : ErrCode) : (s.raiseError e).tweak = s.tweak := rfl
@[simp] theorem State.raiseError_mem (e : ErrCode) : (s.raiseError e).mem = s.mem := rfl
@[simp] theorem State.raiseError_phase (e : ErrCode) : (s.raiseError e).phase = .idle := rfl
@[simp] theorem State.raiseError_k (e : ErrCode) : (s.raiseError e).k = Config.freeIndex s.draws % 258 := rfl
@[simp] theorem State.raiseError_scratch (e : ErrCode) : (s.raiseError e).scratch = Scratch.unspecified s.draws := rfl
@[simp] theorem State.raiseError_bcBlockSize (e : ErrCode) : (s.raiseError e).bcBlockSize = s.bcBlockSize := rfl
@[simp] theorem State.raiseError_rstN (e : ErrCode) : (s.raiseError e).rstN = s.rstN := rfl
@[simp] theorem State.raiseError_rsp (e : ErrCode) : (s.raiseError e).rsp = s.rsp := rfl
@[simp] theorem State.raiseError_hAnswer (e : ErrCode) : (s.raiseError e).hAnswer = s.hAnswer := rfl
@[simp] theorem State.raiseError_inputs (e : ErrCode) : (s.raiseError e).inputs = s.inputs := rfl
@[simp] theorem State.raiseError_draws (e : ErrCode) : (s.raiseError e).draws = s.draws + 1 := rfl
@[simp] theorem State.raiseError_epoch (e : ErrCode) : (s.raiseError e).epoch = s.epoch := rfl
@[simp] theorem State.raiseError_byteAt (e : ErrCode) (x : Nat) : (s.raiseError e).byteAt x = s.byteAt x := rfl
@[simp] theorem State.raiseError_blockAt (e : ErrCode) (x : Nat) : (s.raiseError e).blockAt x = s.blockAt x := rfl
@[simp] theorem State.raiseError_blk (e : ErrCode) (x : BlockAddr) : (s.raiseError e).blk x = s.blk x := rfl
@[simp] theorem State.raiseError_inBlock (e : ErrCode) (x : Nat) : (s.raiseError e).inBlock x = s.inBlock x := rfl
@[simp] theorem State.raiseError_outBlock (e : ErrCode) (x : Nat) : (s.raiseError e).outBlock x = s.outBlock x := rfl

/-! ### cipherCall -/

@[simp] theorem State.cipherCall_irqEn (n : Nat) (dir : Dir) (x : Block) : (s.cipherCall n dir x).irqEn = s.irqEn := rfl
@[simp] theorem State.cipherCall_busy (n : Nat) (dir : Dir) (x : Block) : (s.cipherCall n dir x).busy = s.busy := rfl
@[simp] theorem State.cipherCall_done (n : Nat) (dir : Dir) (x : Block) : (s.cipherCall n dir x).done = s.done := rfl
@[simp] theorem State.cipherCall_resultValid (n : Nat) (dir : Dir) (x : Block) : (s.cipherCall n dir x).resultValid = s.resultValid := rfl
@[simp] theorem State.cipherCall_ovr (n : Nat) (dir : Dir) (x : Block) : (s.cipherCall n dir x).ovr = s.ovr := rfl
@[simp] theorem State.cipherCall_errcode (n : Nat) (dir : Dir) (x : Block) : (s.cipherCall n dir x).errcode = s.errcode := rfl
@[simp] theorem State.cipherCall_lastcmd (n : Nat) (dir : Dir) (x : Block) : (s.cipherCall n dir x).lastcmd = s.lastcmd := rfl
@[simp] theorem State.cipherCall_mlen (n : Nat) (dir : Dir) (x : Block) : (s.cipherCall n dir x).mlen = s.mlen := rfl
@[simp] theorem State.cipherCall_tlen (n : Nat) (dir : Dir) (x : Block) : (s.cipherCall n dir x).tlen = s.tlen := rfl
@[simp] theorem State.cipherCall_calls (n : Nat) (dir : Dir) (x : Block) : (s.cipherCall n dir x).calls = s.calls := rfl
@[simp] theorem State.cipherCall_tweak (n : Nat) (dir : Dir) (x : Block) : (s.cipherCall n dir x).tweak = s.tweak := rfl
@[simp] theorem State.cipherCall_mem (n : Nat) (dir : Dir) (x : Block) : (s.cipherCall n dir x).mem = s.mem := rfl
@[simp] theorem State.cipherCall_phase (n : Nat) (dir : Dir) (x : Block) : (s.cipherCall n dir x).phase = .issue := rfl
@[simp] theorem State.cipherCall_k (n : Nat) (dir : Dir) (x : Block) : (s.cipherCall n dir x).k = n := rfl
@[simp] theorem State.cipherCall_scratch (n : Nat) (dir : Dir) (x : Block) : (s.cipherCall n dir x).scratch = { s.scratch with req := { dir := dir, data := x } } := rfl
@[simp] theorem State.cipherCall_bcBlockSize (n : Nat) (dir : Dir) (x : Block) : (s.cipherCall n dir x).bcBlockSize = s.bcBlockSize := rfl
@[simp] theorem State.cipherCall_rstN (n : Nat) (dir : Dir) (x : Block) : (s.cipherCall n dir x).rstN = s.rstN := rfl
@[simp] theorem State.cipherCall_rsp (n : Nat) (dir : Dir) (x : Block) : (s.cipherCall n dir x).rsp = s.rsp := rfl
@[simp] theorem State.cipherCall_hAnswer (n : Nat) (dir : Dir) (x : Block) : (s.cipherCall n dir x).hAnswer = s.hAnswer := rfl
@[simp] theorem State.cipherCall_inputs (n : Nat) (dir : Dir) (x : Block) : (s.cipherCall n dir x).inputs = s.inputs := rfl
@[simp] theorem State.cipherCall_draws (n : Nat) (dir : Dir) (x : Block) : (s.cipherCall n dir x).draws = s.draws := rfl
@[simp] theorem State.cipherCall_epoch (n : Nat) (dir : Dir) (x : Block) : (s.cipherCall n dir x).epoch = s.epoch := rfl
@[simp] theorem State.cipherCall_byteAt (n : Nat) (dir : Dir) (x : Block) (y : Nat) : (s.cipherCall n dir x).byteAt y = s.byteAt y := rfl
@[simp] theorem State.cipherCall_blockAt (n : Nat) (dir : Dir) (x : Block) (y : Nat) : (s.cipherCall n dir x).blockAt y = s.blockAt y := rfl
@[simp] theorem State.cipherCall_blk (n : Nat) (dir : Dir) (x : Block) (y : BlockAddr) : (s.cipherCall n dir x).blk y = s.blk y := rfl
@[simp] theorem State.cipherCall_inBlock (n : Nat) (dir : Dir) (x : Block) (y : Nat) : (s.cipherCall n dir x).inBlock y = s.inBlock y := rfl
@[simp] theorem State.cipherCall_outBlock (n : Nat) (dir : Dir) (x : Block) (y : Nat) : (s.cipherCall n dir x).outBlock y = s.outBlock y := rfl

/-! ### latchCount -/

@[simp] theorem State.latchCount_irqEn : (s.latchCount).irqEn = s.irqEn := rfl
@[simp] theorem State.latchCount_busy : (s.latchCount).busy = s.busy := rfl
@[simp] theorem State.latchCount_done : (s.latchCount).done = s.done := rfl
@[simp] theorem State.latchCount_resultValid : (s.latchCount).resultValid = s.resultValid := rfl
@[simp] theorem State.latchCount_ovr : (s.latchCount).ovr = s.ovr := rfl
@[simp] theorem State.latchCount_errcode : (s.latchCount).errcode = s.errcode := rfl
@[simp] theorem State.latchCount_lastcmd : (s.latchCount).lastcmd = s.lastcmd := rfl
@[simp] theorem State.latchCount_mlen : (s.latchCount).mlen = s.mlen := rfl
@[simp] theorem State.latchCount_tlen : (s.latchCount).tlen = s.tlen := rfl
@[simp] theorem State.latchCount_calls : (s.latchCount).calls = s.calls := rfl
@[simp] theorem State.latchCount_tweak : (s.latchCount).tweak = s.tweak := rfl
@[simp] theorem State.latchCount_mem : (s.latchCount).mem = s.mem := rfl
@[simp] theorem State.latchCount_phase : (s.latchCount).phase = s.phase := rfl
@[simp] theorem State.latchCount_k : (s.latchCount).k = s.k := rfl
@[simp] theorem State.latchCount_scratch : (s.latchCount).scratch = { s.scratch with m := BitVec.ofNat 8 (s.mlen.toNat / 16) } := rfl
@[simp] theorem State.latchCount_bcBlockSize : (s.latchCount).bcBlockSize = s.bcBlockSize := rfl
@[simp] theorem State.latchCount_rstN : (s.latchCount).rstN = s.rstN := rfl
@[simp] theorem State.latchCount_rsp : (s.latchCount).rsp = s.rsp := rfl
@[simp] theorem State.latchCount_hAnswer : (s.latchCount).hAnswer = s.hAnswer := rfl
@[simp] theorem State.latchCount_inputs : (s.latchCount).inputs = s.inputs := rfl
@[simp] theorem State.latchCount_draws : (s.latchCount).draws = s.draws := rfl
@[simp] theorem State.latchCount_epoch : (s.latchCount).epoch = s.epoch := rfl
@[simp] theorem State.latchCount_byteAt (x : Nat) : (s.latchCount).byteAt x = s.byteAt x := rfl
@[simp] theorem State.latchCount_blockAt (x : Nat) : (s.latchCount).blockAt x = s.blockAt x := rfl
@[simp] theorem State.latchCount_blk (x : BlockAddr) : (s.latchCount).blk x = s.blk x := rfl
@[simp] theorem State.latchCount_inBlock (x : Nat) : (s.latchCount).inBlock x = s.inBlock x := rfl
@[simp] theorem State.latchCount_outBlock (x : Nat) : (s.latchCount).outBlock x = s.outBlock x := rfl

/-! ### accept -/

@[simp] theorem State.accept_irqEn (v : Word) : (s.accept v).irqEn = s.irqEn := rfl
@[simp] theorem State.accept_busy (v : Word) : (s.accept v).busy = true := rfl
@[simp] theorem State.accept_done (v : Word) : (s.accept v).done = false := rfl
@[simp] theorem State.accept_resultValid (v : Word) : (s.accept v).resultValid = false := rfl
@[simp] theorem State.accept_ovr (v : Word) : (s.accept v).ovr = s.ovr := rfl
@[simp] theorem State.accept_errcode (v : Word) : (s.accept v).errcode = .none := rfl
@[simp] theorem State.accept_lastcmd (v : Word) : (s.accept v).lastcmd = v := rfl
@[simp] theorem State.accept_mlen (v : Word) : (s.accept v).mlen = s.mlen := rfl
@[simp] theorem State.accept_tlen (v : Word) : (s.accept v).tlen = s.tlen := rfl
@[simp] theorem State.accept_calls (v : Word) : (s.accept v).calls = 0 := rfl
@[simp] theorem State.accept_tweak (v : Word) : (s.accept v).tweak = s.tweak := rfl
@[simp] theorem State.accept_mem (v : Word) : (s.accept v).mem = s.mem := rfl
@[simp] theorem State.accept_phase (v : Word) : (s.accept v).phase = .exec := rfl
@[simp] theorem State.accept_k (v : Word) : (s.accept v).k = s.k := rfl
@[simp] theorem State.accept_scratch (v : Word) : (s.accept v).scratch = { s.scratch with cur := latchedCommand v } := rfl
@[simp] theorem State.accept_bcBlockSize (v : Word) : (s.accept v).bcBlockSize = s.bcBlockSize := rfl
@[simp] theorem State.accept_rstN (v : Word) : (s.accept v).rstN = s.rstN := rfl
@[simp] theorem State.accept_rsp (v : Word) : (s.accept v).rsp = s.rsp := rfl
@[simp] theorem State.accept_hAnswer (v : Word) : (s.accept v).hAnswer = s.hAnswer := rfl
@[simp] theorem State.accept_inputs (v : Word) : (s.accept v).inputs = s.inputs := rfl
@[simp] theorem State.accept_draws (v : Word) : (s.accept v).draws = s.draws := rfl
@[simp] theorem State.accept_epoch (v : Word) : (s.accept v).epoch = s.epoch := rfl
@[simp] theorem State.accept_byteAt (v : Word) (x : Nat) : (s.accept v).byteAt x = s.byteAt x := rfl
@[simp] theorem State.accept_blockAt (v : Word) (x : Nat) : (s.accept v).blockAt x = s.blockAt x := rfl
@[simp] theorem State.accept_blk (v : Word) (x : BlockAddr) : (s.accept v).blk x = s.blk x := rfl
@[simp] theorem State.accept_inBlock (v : Word) (x : Nat) : (s.accept v).inBlock x = s.inBlock x := rfl
@[simp] theorem State.accept_outBlock (v : Word) (x : Nat) : (s.accept v).outBlock x = s.outBlock x := rfl

/-! ### resetRegisters -/

@[simp] theorem State.resetRegisters_irqEn : (s.resetRegisters).irqEn = false := rfl
@[simp] theorem State.resetRegisters_busy : (s.resetRegisters).busy = false := rfl
@[simp] theorem State.resetRegisters_done : (s.resetRegisters).done = false := rfl
@[simp] theorem State.resetRegisters_resultValid : (s.resetRegisters).resultValid = false := rfl
@[simp] theorem State.resetRegisters_ovr : (s.resetRegisters).ovr = false := rfl
@[simp] theorem State.resetRegisters_errcode : (s.resetRegisters).errcode = .none := rfl
@[simp] theorem State.resetRegisters_lastcmd : (s.resetRegisters).lastcmd = 0 := rfl
@[simp] theorem State.resetRegisters_mlen : (s.resetRegisters).mlen = 0 := rfl
@[simp] theorem State.resetRegisters_tlen : (s.resetRegisters).tlen = 16 := rfl
@[simp] theorem State.resetRegisters_calls : (s.resetRegisters).calls = 0 := rfl
@[simp] theorem State.resetRegisters_tweak : (s.resetRegisters).tweak = 0 := rfl
@[simp] theorem State.resetRegisters_mem : (s.resetRegisters).mem = [] := rfl
@[simp] theorem State.resetRegisters_phase : (s.resetRegisters).phase = .idle := rfl
@[simp] theorem State.resetRegisters_k : (s.resetRegisters).k = 0 := rfl
@[simp] theorem State.resetRegisters_scratch : (s.resetRegisters).scratch = Scratch.unspecified s.draws := rfl
@[simp] theorem State.resetRegisters_bcBlockSize : (s.resetRegisters).bcBlockSize = s.bcBlockSize := rfl
@[simp] theorem State.resetRegisters_rstN : (s.resetRegisters).rstN = s.rstN := rfl
@[simp] theorem State.resetRegisters_rsp : (s.resetRegisters).rsp = s.rsp := rfl
@[simp] theorem State.resetRegisters_hAnswer : (s.resetRegisters).hAnswer = s.hAnswer := rfl
@[simp] theorem State.resetRegisters_inputs : (s.resetRegisters).inputs = s.inputs := rfl
@[simp] theorem State.resetRegisters_draws : (s.resetRegisters).draws = s.draws + 1 := rfl
@[simp] theorem State.resetRegisters_epoch : (s.resetRegisters).epoch = s.epoch + 1 := rfl

/-! ### genL -/

@[simp] theorem State.genL_irqEn (y : Block) : (s.genL y).irqEn = s.irqEn := rfl
@[simp] theorem State.genL_busy (y : Block) : (s.genL y).busy = s.busy := rfl
@[simp] theorem State.genL_done (y : Block) : (s.genL y).done = s.done := rfl
@[simp] theorem State.genL_resultValid (y : Block) : (s.genL y).resultValid = s.resultValid := rfl
@[simp] theorem State.genL_ovr (y : Block) : (s.genL y).ovr = s.ovr := rfl
@[simp] theorem State.genL_errcode (y : Block) : (s.genL y).errcode = s.errcode := rfl
@[simp] theorem State.genL_lastcmd (y : Block) : (s.genL y).lastcmd = s.lastcmd := rfl
@[simp] theorem State.genL_mlen (y : Block) : (s.genL y).mlen = s.mlen := rfl
@[simp] theorem State.genL_tlen (y : Block) : (s.genL y).tlen = s.tlen := rfl
@[simp] theorem State.genL_calls (y : Block) : (s.genL y).calls = s.calls := rfl
@[simp] theorem State.genL_tweak (y : Block) : (s.genL y).tweak = s.tweak := rfl
@[simp] theorem State.genL_mem (y : Block) : (s.genL y).mem = s.mem := rfl
@[simp] theorem State.genL_phase (y : Block) : (s.genL y).phase = s.phase := rfl
@[simp] theorem State.genL_k (y : Block) : (s.genL y).k = s.k := rfl
@[simp] theorem State.genL_scratch (y : Block) : (s.genL y).scratch = Machine.genL s.scratch.m.toNat y s.scratch := rfl
@[simp] theorem State.genL_bcBlockSize (y : Block) : (s.genL y).bcBlockSize = s.bcBlockSize := rfl
@[simp] theorem State.genL_rstN (y : Block) : (s.genL y).rstN = s.rstN := rfl
@[simp] theorem State.genL_rsp (y : Block) : (s.genL y).rsp = s.rsp := rfl
@[simp] theorem State.genL_hAnswer (y : Block) : (s.genL y).hAnswer = s.hAnswer := rfl
@[simp] theorem State.genL_inputs (y : Block) : (s.genL y).inputs = s.inputs := rfl
@[simp] theorem State.genL_draws (y : Block) : (s.genL y).draws = s.draws := rfl
@[simp] theorem State.genL_epoch (y : Block) : (s.genL y).epoch = s.epoch := rfl
@[simp] theorem State.genL_byteAt (y : Block) (x : Nat) : (s.genL y).byteAt x = s.byteAt x := rfl
@[simp] theorem State.genL_blockAt (y : Block) (x : Nat) : (s.genL y).blockAt x = s.blockAt x := rfl
@[simp] theorem State.genL_blk (y : Block) (x : BlockAddr) : (s.genL y).blk x = s.blk x := rfl
@[simp] theorem State.genL_inBlock (y : Block) (x : Nat) : (s.genL y).inBlock x = s.inBlock x := rfl
@[simp] theorem State.genL_outBlock (y : Block) (x : Nat) : (s.genL y).outBlock x = s.outBlock x := rfl

/-! ### writeCtrl -/

@[simp] theorem State.writeCtrl_irqEn (v : Word) : (s.writeCtrl v).irqEn = v.getLsbD 0 := rfl
@[simp] theorem State.writeCtrl_busy (v : Word) : (s.writeCtrl v).busy = s.busy := rfl
@[simp] theorem State.writeCtrl_done (v : Word) : (s.writeCtrl v).done = s.done := rfl
@[simp] theorem State.writeCtrl_resultValid (v : Word) : (s.writeCtrl v).resultValid = s.resultValid := rfl
@[simp] theorem State.writeCtrl_ovr (v : Word) : (s.writeCtrl v).ovr = s.ovr := rfl
@[simp] theorem State.writeCtrl_errcode (v : Word) : (s.writeCtrl v).errcode = s.errcode := rfl
@[simp] theorem State.writeCtrl_lastcmd (v : Word) : (s.writeCtrl v).lastcmd = s.lastcmd := rfl
@[simp] theorem State.writeCtrl_mlen (v : Word) : (s.writeCtrl v).mlen = s.mlen := rfl
@[simp] theorem State.writeCtrl_tlen (v : Word) : (s.writeCtrl v).tlen = s.tlen := rfl
@[simp] theorem State.writeCtrl_calls (v : Word) : (s.writeCtrl v).calls = s.calls := rfl
@[simp] theorem State.writeCtrl_tweak (v : Word) : (s.writeCtrl v).tweak = s.tweak := rfl
@[simp] theorem State.writeCtrl_mem (v : Word) : (s.writeCtrl v).mem = s.mem := rfl
@[simp] theorem State.writeCtrl_phase (v : Word) : (s.writeCtrl v).phase = s.phase := rfl
@[simp] theorem State.writeCtrl_k (v : Word) : (s.writeCtrl v).k = s.k := rfl
@[simp] theorem State.writeCtrl_scratch (v : Word) : (s.writeCtrl v).scratch = s.scratch := rfl
@[simp] theorem State.writeCtrl_bcBlockSize (v : Word) : (s.writeCtrl v).bcBlockSize = s.bcBlockSize := rfl
@[simp] theorem State.writeCtrl_rstN (v : Word) : (s.writeCtrl v).rstN = s.rstN := rfl
@[simp] theorem State.writeCtrl_rsp (v : Word) : (s.writeCtrl v).rsp = s.rsp := rfl
@[simp] theorem State.writeCtrl_hAnswer (v : Word) : (s.writeCtrl v).hAnswer = s.hAnswer := rfl
@[simp] theorem State.writeCtrl_inputs (v : Word) : (s.writeCtrl v).inputs = s.inputs := rfl
@[simp] theorem State.writeCtrl_draws (v : Word) : (s.writeCtrl v).draws = s.draws := rfl
@[simp] theorem State.writeCtrl_epoch (v : Word) : (s.writeCtrl v).epoch = s.epoch := rfl
@[simp] theorem State.writeCtrl_byteAt (v : Word) (x : Nat) : (s.writeCtrl v).byteAt x = s.byteAt x := rfl
@[simp] theorem State.writeCtrl_blockAt (v : Word) (x : Nat) : (s.writeCtrl v).blockAt x = s.blockAt x := rfl
@[simp] theorem State.writeCtrl_blk (v : Word) (x : BlockAddr) : (s.writeCtrl v).blk x = s.blk x := rfl
@[simp] theorem State.writeCtrl_inBlock (v : Word) (x : Nat) : (s.writeCtrl v).inBlock x = s.inBlock x := rfl
@[simp] theorem State.writeCtrl_outBlock (v : Word) (x : Nat) : (s.writeCtrl v).outBlock x = s.outBlock x := rfl

/-! ### writeStatus -/

@[simp] theorem State.writeStatus_irqEn (v : Word) : (s.writeStatus v).irqEn = s.irqEn := rfl
@[simp] theorem State.writeStatus_busy (v : Word) : (s.writeStatus v).busy = s.busy := rfl
@[simp] theorem State.writeStatus_done (v : Word) : (s.writeStatus v).done = (s.done && !v.getLsbD 1) := rfl
@[simp] theorem State.writeStatus_resultValid (v : Word) : (s.writeStatus v).resultValid = s.resultValid := rfl
@[simp] theorem State.writeStatus_ovr (v : Word) : (s.writeStatus v).ovr = (s.ovr && !v.getLsbD 3) := rfl
@[simp] theorem State.writeStatus_errcode (v : Word) : (s.writeStatus v).errcode = s.errcode := rfl
@[simp] theorem State.writeStatus_lastcmd (v : Word) : (s.writeStatus v).lastcmd = s.lastcmd := rfl
@[simp] theorem State.writeStatus_mlen (v : Word) : (s.writeStatus v).mlen = s.mlen := rfl
@[simp] theorem State.writeStatus_tlen (v : Word) : (s.writeStatus v).tlen = s.tlen := rfl
@[simp] theorem State.writeStatus_calls (v : Word) : (s.writeStatus v).calls = s.calls := rfl
@[simp] theorem State.writeStatus_tweak (v : Word) : (s.writeStatus v).tweak = s.tweak := rfl
@[simp] theorem State.writeStatus_mem (v : Word) : (s.writeStatus v).mem = s.mem := rfl
@[simp] theorem State.writeStatus_phase (v : Word) : (s.writeStatus v).phase = s.phase := rfl
@[simp] theorem State.writeStatus_k (v : Word) : (s.writeStatus v).k = s.k := rfl
@[simp] theorem State.writeStatus_scratch (v : Word) : (s.writeStatus v).scratch = s.scratch := rfl
@[simp] theorem State.writeStatus_bcBlockSize (v : Word) : (s.writeStatus v).bcBlockSize = s.bcBlockSize := rfl
@[simp] theorem State.writeStatus_rstN (v : Word) : (s.writeStatus v).rstN = s.rstN := rfl
@[simp] theorem State.writeStatus_rsp (v : Word) : (s.writeStatus v).rsp = s.rsp := rfl
@[simp] theorem State.writeStatus_hAnswer (v : Word) : (s.writeStatus v).hAnswer = s.hAnswer := rfl
@[simp] theorem State.writeStatus_inputs (v : Word) : (s.writeStatus v).inputs = s.inputs := rfl
@[simp] theorem State.writeStatus_draws (v : Word) : (s.writeStatus v).draws = s.draws := rfl
@[simp] theorem State.writeStatus_epoch (v : Word) : (s.writeStatus v).epoch = s.epoch := rfl
@[simp] theorem State.writeStatus_byteAt (v : Word) (x : Nat) : (s.writeStatus v).byteAt x = s.byteAt x := rfl
@[simp] theorem State.writeStatus_blockAt (v : Word) (x : Nat) : (s.writeStatus v).blockAt x = s.blockAt x := rfl
@[simp] theorem State.writeStatus_blk (v : Word) (x : BlockAddr) : (s.writeStatus v).blk x = s.blk x := rfl
@[simp] theorem State.writeStatus_inBlock (v : Word) (x : Nat) : (s.writeStatus v).inBlock x = s.inBlock x := rfl
@[simp] theorem State.writeStatus_outBlock (v : Word) (x : Nat) : (s.writeStatus v).outBlock x = s.outBlock x := rfl

/-! ### putBlock, putBlk, putWord and commitOut change the memory alone -/

theorem forUp_memory {f : Nat → State → State} (hf : ∀ j t, f j t = { t with mem := (f j t).mem }) (n j : Nat) :
    forUp f n j s = { s with mem := (forUp f n j s).mem } := by
  induction n generalizing j s with
  | zero => rfl
  | succ n ih =>
    rw [forUp_succ, ih (f j s)]
    rw [hf j s]

theorem State.putBlock_memory (a : Nat) (b : Block) : s.putBlock a b = { s with mem := (s.putBlock a b).mem } :=
  forUp_memory s (fun _ _ => rfl) 16 0

theorem State.putWord_memory (a : Nat) (v : Word) : s.putWord a v = { s with mem := (s.putWord a v).mem } :=
  forUp_memory s (fun _ _ => rfl) 4 0

theorem State.commitOut_memory (m : Nat) (g : Nat → Block) :
    s.commitOut m g = { s with mem := (s.commitOut m g).mem } :=
  forUp_memory s (fun j t => t.putBlock_memory (outOffset j) (g j)) m 0

@[simp] theorem State.putBlock_irqEn (a : Nat) (b : Block) : (s.putBlock a b).irqEn = s.irqEn := by rw [s.putBlock_memory a b]
@[simp] theorem State.putBlock_busy (a : Nat) (b : Block) : (s.putBlock a b).busy = s.busy := by rw [s.putBlock_memory a b]
@[simp] theorem State.putBlock_done (a : Nat) (b : Block) : (s.putBlock a b).done = s.done := by rw [s.putBlock_memory a b]
@[simp] theorem State.putBlock_resultValid (a : Nat) (b : Block) : (s.putBlock a b).resultValid = s.resultValid := by rw [s.putBlock_memory a b]
@[simp] theorem State.putBlock_ovr (a : Nat) (b : Block) : (s.putBlock a b).ovr = s.ovr := by rw [s.putBlock_memory a b]
@[simp] theorem State.putBlock_errcode (a : Nat) (b : Block) : (s.putBlock a b).errcode = s.errcode := by rw [s.putBlock_memory a b]
@[simp] theorem State.putBlock_lastcmd (a : Nat) (b : Block) : (s.putBlock a b).lastcmd = s.lastcmd := by rw [s.putBlock_memory a b]
@[simp] theorem State.putBlock_mlen (a : Nat) (b : Block) : (s.putBlock a b).mlen = s.mlen := by rw [s.putBlock_memory a b]
@[simp] theorem State.putBlock_tlen (a : Nat) (b : Block) : (s.putBlock a b).tlen = s.tlen := by rw [s.putBlock_memory a b]
@[simp] theorem State.putBlock_calls (a : Nat) (b : Block) : (s.putBlock a b).calls = s.calls := by rw [s.putBlock_memory a b]
@[simp] theorem State.putBlock_tweak (a : Nat) (b : Block) : (s.putBlock a b).tweak = s.tweak := by rw [s.putBlock_memory a b]
@[simp] theorem State.putBlock_phase (a : Nat) (b : Block) : (s.putBlock a b).phase = s.phase := by rw [s.putBlock_memory a b]
@[simp] theorem State.putBlock_k (a : Nat) (b : Block) : (s.putBlock a b).k = s.k := by rw [s.putBlock_memory a b]
@[simp] theorem State.putBlock_scratch (a : Nat) (b : Block) : (s.putBlock a b).scratch = s.scratch := by rw [s.putBlock_memory a b]
@[simp] theorem State.putBlock_bcBlockSize (a : Nat) (b : Block) : (s.putBlock a b).bcBlockSize = s.bcBlockSize := by rw [s.putBlock_memory a b]
@[simp] theorem State.putBlock_rstN (a : Nat) (b : Block) : (s.putBlock a b).rstN = s.rstN := by rw [s.putBlock_memory a b]
@[simp] theorem State.putBlock_rsp (a : Nat) (b : Block) : (s.putBlock a b).rsp = s.rsp := by rw [s.putBlock_memory a b]
@[simp] theorem State.putBlock_hAnswer (a : Nat) (b : Block) : (s.putBlock a b).hAnswer = s.hAnswer := by rw [s.putBlock_memory a b]
@[simp] theorem State.putBlock_inputs (a : Nat) (b : Block) : (s.putBlock a b).inputs = s.inputs := by rw [s.putBlock_memory a b]
@[simp] theorem State.putBlock_draws (a : Nat) (b : Block) : (s.putBlock a b).draws = s.draws := by rw [s.putBlock_memory a b]
@[simp] theorem State.putBlock_epoch (a : Nat) (b : Block) : (s.putBlock a b).epoch = s.epoch := by rw [s.putBlock_memory a b]

@[simp] theorem State.putBlk_irqEn (a : BlockAddr) (b : Block) : (s.putBlk a b).irqEn = s.irqEn := by rw [State.putBlk, s.putBlock_memory (blkOffset a) b]
@[simp] theorem State.putBlk_busy (a : BlockAddr) (b : Block) : (s.putBlk a b).busy = s.busy := by rw [State.putBlk, s.putBlock_memory (blkOffset a) b]
@[simp] theorem State.putBlk_done (a : BlockAddr) (b : Block) : (s.putBlk a b).done = s.done := by rw [State.putBlk, s.putBlock_memory (blkOffset a) b]
@[simp] theorem State.putBlk_resultValid (a : BlockAddr) (b : Block) : (s.putBlk a b).resultValid = s.resultValid := by rw [State.putBlk, s.putBlock_memory (blkOffset a) b]
@[simp] theorem State.putBlk_ovr (a : BlockAddr) (b : Block) : (s.putBlk a b).ovr = s.ovr := by rw [State.putBlk, s.putBlock_memory (blkOffset a) b]
@[simp] theorem State.putBlk_errcode (a : BlockAddr) (b : Block) : (s.putBlk a b).errcode = s.errcode := by rw [State.putBlk, s.putBlock_memory (blkOffset a) b]
@[simp] theorem State.putBlk_lastcmd (a : BlockAddr) (b : Block) : (s.putBlk a b).lastcmd = s.lastcmd := by rw [State.putBlk, s.putBlock_memory (blkOffset a) b]
@[simp] theorem State.putBlk_mlen (a : BlockAddr) (b : Block) : (s.putBlk a b).mlen = s.mlen := by rw [State.putBlk, s.putBlock_memory (blkOffset a) b]
@[simp] theorem State.putBlk_tlen (a : BlockAddr) (b : Block) : (s.putBlk a b).tlen = s.tlen := by rw [State.putBlk, s.putBlock_memory (blkOffset a) b]
@[simp] theorem State.putBlk_calls (a : BlockAddr) (b : Block) : (s.putBlk a b).calls = s.calls := by rw [State.putBlk, s.putBlock_memory (blkOffset a) b]
@[simp] theorem State.putBlk_tweak (a : BlockAddr) (b : Block) : (s.putBlk a b).tweak = s.tweak := by rw [State.putBlk, s.putBlock_memory (blkOffset a) b]
@[simp] theorem State.putBlk_phase (a : BlockAddr) (b : Block) : (s.putBlk a b).phase = s.phase := by rw [State.putBlk, s.putBlock_memory (blkOffset a) b]
@[simp] theorem State.putBlk_k (a : BlockAddr) (b : Block) : (s.putBlk a b).k = s.k := by rw [State.putBlk, s.putBlock_memory (blkOffset a) b]
@[simp] theorem State.putBlk_scratch (a : BlockAddr) (b : Block) : (s.putBlk a b).scratch = s.scratch := by rw [State.putBlk, s.putBlock_memory (blkOffset a) b]
@[simp] theorem State.putBlk_bcBlockSize (a : BlockAddr) (b : Block) : (s.putBlk a b).bcBlockSize = s.bcBlockSize := by rw [State.putBlk, s.putBlock_memory (blkOffset a) b]
@[simp] theorem State.putBlk_rstN (a : BlockAddr) (b : Block) : (s.putBlk a b).rstN = s.rstN := by rw [State.putBlk, s.putBlock_memory (blkOffset a) b]
@[simp] theorem State.putBlk_rsp (a : BlockAddr) (b : Block) : (s.putBlk a b).rsp = s.rsp := by rw [State.putBlk, s.putBlock_memory (blkOffset a) b]
@[simp] theorem State.putBlk_hAnswer (a : BlockAddr) (b : Block) : (s.putBlk a b).hAnswer = s.hAnswer := by rw [State.putBlk, s.putBlock_memory (blkOffset a) b]
@[simp] theorem State.putBlk_inputs (a : BlockAddr) (b : Block) : (s.putBlk a b).inputs = s.inputs := by rw [State.putBlk, s.putBlock_memory (blkOffset a) b]
@[simp] theorem State.putBlk_draws (a : BlockAddr) (b : Block) : (s.putBlk a b).draws = s.draws := by rw [State.putBlk, s.putBlock_memory (blkOffset a) b]
@[simp] theorem State.putBlk_epoch (a : BlockAddr) (b : Block) : (s.putBlk a b).epoch = s.epoch := by rw [State.putBlk, s.putBlock_memory (blkOffset a) b]

@[simp] theorem State.commitOut_irqEn (m : Nat) (g : Nat → Block) : (s.commitOut m g).irqEn = s.irqEn := by rw [s.commitOut_memory m g]
@[simp] theorem State.commitOut_busy (m : Nat) (g : Nat → Block) : (s.commitOut m g).busy = s.busy := by rw [s.commitOut_memory m g]
@[simp] theorem State.commitOut_done (m : Nat) (g : Nat → Block) : (s.commitOut m g).done = s.done := by rw [s.commitOut_memory m g]
@[simp] theorem State.commitOut_resultValid (m : Nat) (g : Nat → Block) : (s.commitOut m g).resultValid = s.resultValid := by rw [s.commitOut_memory m g]
@[simp] theorem State.commitOut_ovr (m : Nat) (g : Nat → Block) : (s.commitOut m g).ovr = s.ovr := by rw [s.commitOut_memory m g]
@[simp] theorem State.commitOut_errcode (m : Nat) (g : Nat → Block) : (s.commitOut m g).errcode = s.errcode := by rw [s.commitOut_memory m g]
@[simp] theorem State.commitOut_lastcmd (m : Nat) (g : Nat → Block) : (s.commitOut m g).lastcmd = s.lastcmd := by rw [s.commitOut_memory m g]
@[simp] theorem State.commitOut_mlen (m : Nat) (g : Nat → Block) : (s.commitOut m g).mlen = s.mlen := by rw [s.commitOut_memory m g]
@[simp] theorem State.commitOut_tlen (m : Nat) (g : Nat → Block) : (s.commitOut m g).tlen = s.tlen := by rw [s.commitOut_memory m g]
@[simp] theorem State.commitOut_calls (m : Nat) (g : Nat → Block) : (s.commitOut m g).calls = s.calls := by rw [s.commitOut_memory m g]
@[simp] theorem State.commitOut_tweak (m : Nat) (g : Nat → Block) : (s.commitOut m g).tweak = s.tweak := by rw [s.commitOut_memory m g]
@[simp] theorem State.commitOut_phase (m : Nat) (g : Nat → Block) : (s.commitOut m g).phase = s.phase := by rw [s.commitOut_memory m g]
@[simp] theorem State.commitOut_k (m : Nat) (g : Nat → Block) : (s.commitOut m g).k = s.k := by rw [s.commitOut_memory m g]
@[simp] theorem State.commitOut_scratch (m : Nat) (g : Nat → Block) : (s.commitOut m g).scratch = s.scratch := by rw [s.commitOut_memory m g]
@[simp] theorem State.commitOut_bcBlockSize (m : Nat) (g : Nat → Block) : (s.commitOut m g).bcBlockSize = s.bcBlockSize := by rw [s.commitOut_memory m g]
@[simp] theorem State.commitOut_rstN (m : Nat) (g : Nat → Block) : (s.commitOut m g).rstN = s.rstN := by rw [s.commitOut_memory m g]
@[simp] theorem State.commitOut_rsp (m : Nat) (g : Nat → Block) : (s.commitOut m g).rsp = s.rsp := by rw [s.commitOut_memory m g]
@[simp] theorem State.commitOut_hAnswer (m : Nat) (g : Nat → Block) : (s.commitOut m g).hAnswer = s.hAnswer := by rw [s.commitOut_memory m g]
@[simp] theorem State.commitOut_inputs (m : Nat) (g : Nat → Block) : (s.commitOut m g).inputs = s.inputs := by rw [s.commitOut_memory m g]
@[simp] theorem State.commitOut_draws (m : Nat) (g : Nat → Block) : (s.commitOut m g).draws = s.draws := by rw [s.commitOut_memory m g]
@[simp] theorem State.commitOut_epoch (m : Nat) (g : Nat → Block) : (s.commitOut m g).epoch = s.epoch := by rw [s.commitOut_memory m g]

/-! ### The scratch stores -/

variable (c : Scratch)

@[simp] theorem Scratch.ltAt_putLt (i j : Nat) (b : Block) :
    (c.putLt i b).ltAt j = if j = i then b else c.ltAt j := by
  unfold Scratch.ltAt Scratch.putLt
  rw [cellAt_putCell]
  split <;> rfl

@[simp] theorem Scratch.wAt_putW (i j : Nat) (b : Block) :
    (c.putW i b).wAt j = if j = i then b else c.wAt j := by
  unfold Scratch.wAt Scratch.putW
  rw [cellAt_putCell]
  split <;> rfl

@[simp] theorem Scratch.ltAt_putW (i j : Nat) (b : Block) : (c.putW i b).ltAt j = c.ltAt j := rfl
@[simp] theorem Scratch.wAt_putLt (i j : Nat) (b : Block) : (c.putLt i b).wAt j = c.wAt j := rfl
@[simp] theorem Scratch.putLt_cur (i : Nat) (b : Block) : (c.putLt i b).cur = c.cur := rfl
@[simp] theorem Scratch.putLt_m (i : Nat) (b : Block) : (c.putLt i b).m = c.m := rfl
@[simp] theorem Scratch.putLt_lt (i : Nat) (b : Block) : (c.putLt i b).lt = putCell i b c.lt := rfl
@[simp] theorem Scratch.putLt_w (i : Nat) (b : Block) : (c.putLt i b).w = c.w := rfl
@[simp] theorem Scratch.putLt_mp (i : Nat) (b : Block) : (c.putLt i b).mp = c.mp := rfl
@[simp] theorem Scratch.putLt_mc (i : Nat) (b : Block) : (c.putLt i b).mc = c.mc := rfl
@[simp] theorem Scratch.putLt_mm (i : Nat) (b : Block) : (c.putLt i b).mm = c.mm := rfl
@[simp] theorem Scratch.putLt_x (i : Nat) (b : Block) : (c.putLt i b).x = c.x := rfl
@[simp] theorem Scratch.putLt_lw (i : Nat) (b : Block) : (c.putLt i b).lw = c.lw := rfl
@[simp] theorem Scratch.putLt_req (i : Nat) (b : Block) : (c.putLt i b).req = c.req := rfl
@[simp] theorem Scratch.putW_cur (i : Nat) (b : Block) : (c.putW i b).cur = c.cur := rfl
@[simp] theorem Scratch.putW_m (i : Nat) (b : Block) : (c.putW i b).m = c.m := rfl
@[simp] theorem Scratch.putW_lt (i : Nat) (b : Block) : (c.putW i b).lt = c.lt := rfl
@[simp] theorem Scratch.putW_w (i : Nat) (b : Block) : (c.putW i b).w = putCell i b c.w := rfl
@[simp] theorem Scratch.putW_mp (i : Nat) (b : Block) : (c.putW i b).mp = c.mp := rfl
@[simp] theorem Scratch.putW_mc (i : Nat) (b : Block) : (c.putW i b).mc = c.mc := rfl
@[simp] theorem Scratch.putW_mm (i : Nat) (b : Block) : (c.putW i b).mm = c.mm := rfl
@[simp] theorem Scratch.putW_x (i : Nat) (b : Block) : (c.putW i b).x = c.x := rfl
@[simp] theorem Scratch.putW_lw (i : Nat) (b : Block) : (c.putW i b).lw = c.lw := rfl
@[simp] theorem Scratch.putW_req (i : Nat) (b : Block) : (c.putW i b).req = c.req := rfl

/-! ## The cipher-request port -/

theorem State.portReq_issue {s : State} (h : s.phase = .issue) : s.portReq = s.scratch.req := if_pos h

end Sys2Proof.Machine
end

