-- ==== Sys2Proof/Laws/Memory.lean ====
section
/-! SUPPORT. The laws of the bytes of IN and OUT: read after write for bytes, blocks and commits, the bytes each leaves
alone, and the canonical form. -/

namespace Sys2Proof.Machine

variable (s : State)

/-! ## Bytes -/

theorem State.byteAt_putByte (a x : Nat) (v : Byte) : (s.putByte a v).byteAt x = if x = a then v else s.byteAt x := by
  unfold State.byteAt State.putByte
  rw [cellAt_putCell]
  split <;> rfl

/-- What a block store leaves at any offset. -/
theorem State.byteAt_putBlock (a x : Nat) (b : Block) :
    (s.putBlock a b).byteAt x = if a ≤ x ∧ x < a + 16 then byteOf b (x - a) else s.byteAt x := by
  have key : ∀ n ≤ 16, (forUp (fun k t => t.putByte (a + k) (byteOf b k)) n 0 s).byteAt x
      = if a ≤ x ∧ x < a + n then byteOf b (x - a) else s.byteAt x := by
    intro n hn
    induction n with
    | zero => simp
    | succ n ih =>
      rw [forUp_succ_last, State.byteAt_putByte, ih (by omega)]
      rcases Nat.lt_trichotomy x (a + n) with h | h | h
      · rw [if_neg (by omega)]
        by_cases h1 : a ≤ x
        · rw [if_pos ⟨h1, h⟩, if_pos ⟨h1, by omega⟩]
        · rw [if_neg (by omega), if_neg (by omega)]
      · rw [if_pos (by omega), if_pos (by omega)]
        congr 1
        omega
      · rw [if_neg (by omega), if_neg (by omega), if_neg (by omega)]
  exact key 16 (Nat.le_refl _)

/-- Reading the block just stored. -/
@[simp] theorem State.blockAt_putBlock_self (a : Nat) (b : Block) : (s.putBlock a b).blockAt a = b :=
  block_ext fun k hk => by
    rw [State.blockAt, byteOf_blockOf _ hk, State.byteAt_putBlock, if_pos (by omega)]
    congr 1
    omega

/-- A block that the store does not touch. -/
theorem State.blockAt_putBlock_disjoint {a x : Nat} (b : Block) (h : x + 16 ≤ a ∨ a + 16 ≤ x) :
    (s.putBlock a b).blockAt x = s.blockAt x :=
  blockOf_congr fun k hk => by rw [State.byteAt_putBlock, if_neg (by omega)]

/-- The bytes of a block in memory. -/
theorem State.byteOf_blockAt (a : Nat) {k : Nat} (hk : k < 16) : byteOf (s.blockAt a) k = s.byteAt (a + k) := by
  rw [State.blockAt, byteOf_blockOf _ hk]

/-! ## Block addresses -/

/-- Block address `a` starts at window offset `0x1000 + 16 * a`, in IN or in OUT (R80, R115). -/
theorem blkOffset_eq (a : BlockAddr) : blkOffset a = 0x1000 + 16 * a.toNat := by
  have h : ∀ a : BlockAddr, blkOffset a = 0x1000 + 16 * a.toNat := by decide
  exact h a

@[simp] theorem State.blk_putBlk_self (d : BlockAddr) (b : Block) : (s.putBlk d b).blk d = b :=
  s.blockAt_putBlock_self _ _

theorem State.blk_putBlk_ne {d x : BlockAddr} (b : Block) (h : x ≠ d) : (s.putBlk d b).blk x = s.blk x := by
  have hn : x.toNat ≠ d.toNat := fun e => h (BitVec.eq_of_toNat_eq e)
  apply State.blockAt_putBlock_disjoint
  rw [blkOffset_eq, blkOffset_eq]
  omega

/-! ## The commit -/

/-- What a commit leaves at any offset. -/
theorem State.byteAt_commitOut (m x : Nat) (g : Nat → Block) :
    (s.commitOut m g).byteAt x =
      if 0x1800 ≤ x ∧ x < 0x1800 + 16 * m then byteOf (g ((x - 0x1800) / 16)) ((x - 0x1800) % 16) else s.byteAt x := by
  unfold State.commitOut
  induction m with
  | zero => simp
  | succ n ih =>
    rw [forUp_succ_last, State.byteAt_putBlock, ih, outOffset]
    rcases Nat.lt_or_ge x (0x1800 + 16 * n) with h | h
    · rw [if_neg (by omega)]
      by_cases h1 : 0x1800 ≤ x
      · rw [if_pos ⟨h1, h⟩, if_pos (by omega)]
      · rw [if_neg (by omega), if_neg (by omega)]
    · by_cases h1 : x < 0x1800 + 16 * (n + 1)
      · rw [if_pos (by omega), if_pos (by omega)]
        have e1 : (x - 0x1800) / 16 = n := by omega
        have e2 : (x - 0x1800) % 16 = x - (0x1800 + 16 * n) := by omega
        rw [e1, e2, Nat.zero_add]
      · rw [if_neg (by omega), if_neg (by omega), if_neg (by omega)]

/-- A committed block reads as committed. -/
theorem State.outBlock_commitOut {m j : Nat} (g : Nat → Block) (h : j < m) : (s.commitOut m g).outBlock j = g j :=
  block_ext fun k hk => by
    rw [State.outBlock, outOffset, State.byteOf_blockAt _ _ hk, State.byteAt_commitOut, if_pos (by omega)]
    have e1 : (0x1800 + 16 * j + k - 0x1800) / 16 = j := by omega
    have e2 : (0x1800 + 16 * j + k - 0x1800) % 16 = k := by omega
    rw [e1, e2]

/-- A block of OUT past the committed ones keeps its value. -/
theorem State.outBlock_commitOut_ge {m j : Nat} (g : Nat → Block) (h : m ≤ j) :
    (s.commitOut m g).outBlock j = s.outBlock j :=
  blockOf_congr fun k hk => by rw [outOffset, State.byteAt_commitOut, if_neg (by omega)]

/-- A commit writes no block of IN. -/
theorem State.inBlock_commitOut {m j : Nat} (g : Nat → Block) (h : j < 128) :
    (s.commitOut m g).inBlock j = s.inBlock j :=
  blockOf_congr fun k hk => by rw [inOffset, State.byteAt_commitOut, if_neg (by omega)]

/-! ## Words of IN -/

/-- What a word store leaves at any offset. -/
theorem State.byteAt_putWord (a x : Nat) (v : Word) :
    (s.putWord a v).byteAt x = if a ≤ x ∧ x < a + 4 then wordByte v (x - a) else s.byteAt x := by
  simp only [State.putWord, forUp_succ, forUp_zero, State.byteAt_putByte]
  by_cases h : a ≤ x ∧ x < a + 4
  · obtain ⟨i, rfl⟩ := Nat.exists_eq_add_of_le h.1
    have hi : i < 4 := by omega
    interval_cases i <;> simp
  · rw [if_neg h]
    repeat rw [if_neg (by omega)]

/-- Reading back the word just stored. -/
@[simp] theorem State.bufferWord_putWord_self (a : Nat) (v : Word) : (s.putWord a v).bufferWord a = v := by
  unfold State.bufferWord
  simp only [State.byteAt_putWord]
  rw [if_pos (by omega), if_pos (by omega), if_pos (by omega), if_pos (by omega)]
  simp

/-! ## The canonical form -/

theorem State.putByte_wf {s : State} (h : Memory.wf s.mem) {a : Nat} (v : Byte) (ha : 0x1000 ≤ a) (hb : a < 0x2000) :
    Memory.wf (s.putByte a v).mem := putCell_wf h ha hb

theorem State.putBlock_wf {s : State} (h : Memory.wf s.mem) {a : Nat} (b : Block) (ha : 0x1000 ≤ a) (hb : a + 16 ≤ 0x2000) :
    Memory.wf (s.putBlock a b).mem :=
  forUp_induct (P := fun _ (t : State) => Memory.wf t.mem) _ h fun _ _ hi ht => State.putByte_wf ht _ (by omega) (by omega)

theorem State.putBlk_wf {s : State} (h : Memory.wf s.mem) (d : BlockAddr) (b : Block) : Memory.wf (s.putBlk d b).mem := by
  have hd := d.isLt
  exact State.putBlock_wf h b (by rw [blkOffset_eq]; omega) (by rw [blkOffset_eq]; omega)

theorem State.commitOut_wf {s : State} (h : Memory.wf s.mem) {m : Nat} (g : Nat → Block) (hm : m ≤ 128) :
    Memory.wf (s.commitOut m g).mem :=
  forUp_induct (P := fun _ (t : State) => Memory.wf t.mem) _ h fun _ _ hi ht =>
    State.putBlock_wf ht _ (by unfold outOffset; omega) (by unfold outOffset; omega)

theorem State.putWord_wf {s : State} (h : Memory.wf s.mem) {a : Nat} (v : Word) (ha : 0x1000 ≤ a) (hb : a + 4 ≤ 0x2000) :
    Memory.wf (s.putWord a v).mem :=
  forUp_induct (P := fun _ (t : State) => Memory.wf t.mem) _ h fun _ _ hi ht => State.putByte_wf ht _ (by omega) (by omega)

end Sys2Proof.Machine
end

