-- ==== Sys2Proof/Laws/Ops.lean ====
section
/-! SUPPORT. The spec lemmas of the shared operations: the two ends of a command, the cipher call, the precondition
checks, and the two shapes of a command (`inExec`, `withCalls`). -/

namespace Sys2Proof.Machine

variable (s : State)

/-! ## Frames compose -/

theorem SameOutside.refl : SameOutside s s := ⟨rfl, rfl, rfl, rfl, rfl, rfl, rfl, rfl, rfl, rfl, rfl⟩

theorem SameOutside.trans {s t u : State} (h : SameOutside s t) (g : SameOutside t u) : SameOutside s u :=
  ⟨g.irqEn.trans h.irqEn, g.ovr.trans h.ovr, g.lastcmd.trans h.lastcmd, g.mlen.trans h.mlen, g.tlen.trans h.tlen,
    g.tweak.trans h.tweak, g.bcBlockSize.trans h.bcBlockSize, g.rstN.trans h.rstN, g.hAnswer.trans h.hAnswer,
    g.inputs.trans h.inputs, g.epoch.trans h.epoch⟩

/-- A change of memory alone keeps everything outside IN and OUT. -/
theorem SameOutside.of_memory {s t : State} (h : t = { s with mem := t.mem }) : SameOutside s t := by
  rw [h]
  exact ⟨rfl, rfl, rfl, rfl, rfl, rfl, rfl, rfl, rfl, rfl, rfl⟩

/-! ## The ends of a command -/

theorem State.complete_succeeded : Succeeded s.complete := ⟨rfl, rfl, rfl, rfl, rfl⟩
theorem State.raiseError_failed (e : ErrCode) : Failed e (s.raiseError e) := ⟨rfl, rfl, rfl, rfl, rfl⟩
theorem State.complete_outside : SameOutside s s.complete := ⟨rfl, rfl, rfl, rfl, rfl, rfl, rfl, rfl, rfl, rfl, rfl⟩
theorem State.raiseError_outside (e : ErrCode) : SameOutside s (s.raiseError e) :=
  ⟨rfl, rfl, rfl, rfl, rfl, rfl, rfl, rfl, rfl, rfl, rfl⟩
theorem State.complete_bytes : SameBytes s s.complete := fun _ => rfl
theorem State.raiseError_bytes (e : ErrCode) : SameBytes s (s.raiseError e) := fun _ => rfl

/-- Completing after other writes keeps what those writes kept. -/
theorem SameOutside.complete {s u : State} (h : SameOutside s u) : SameOutside s u.complete :=
  h.trans u.complete_outside
theorem SameBytesOutside.complete {lo n : Nat} {s u : State} (h : SameBytesOutside lo n s u) :
    SameBytesOutside lo n s u.complete := fun a ha => (State.complete_byteAt u a).trans (h a ha)

/-! ## The cipher call -/

theorem State.cipherCall_requests (n : Nat) (dir : Dir) (x : Block) : Requests n dir x (s.cipherCall n dir x) :=
  ⟨rfl, rfl, rfl⟩
theorem State.cipherCall_outside (n : Nat) (dir : Dir) (x : Block) : SameOutside s (s.cipherCall n dir x) :=
  ⟨rfl, rfl, rfl, rfl, rfl, rfl, rfl, rfl, rfl, rfl, rfl⟩
theorem State.cipherCall_status (n : Nat) (dir : Dir) (x : Block) : SameStatus s (s.cipherCall n dir x) :=
  ⟨rfl, rfl, rfl, rfl⟩

/-! ## Block stores and the commit -/

theorem State.putBlk_outside (d : BlockAddr) (b : Block) : SameOutside s (s.putBlk d b) :=
  .of_memory (s.putBlock_memory _ _)
theorem State.putBlk_bytes (d : BlockAddr) (b : Block) : SameBytesOutside (blkOffset d) 16 s (s.putBlk d b) :=
  fun x hx => by rw [State.putBlk, State.byteAt_putBlock, if_neg hx]
theorem State.commitOut_outside (m : Nat) (g : Nat → Block) : SameOutside s (s.commitOut m g) :=
  .of_memory (s.commitOut_memory m g)
theorem State.commitOut_bytes (m : Nat) (g : Nat → Block) :
    SameBytesOutside 0x1800 (16 * m) s (s.commitOut m g) :=
  fun x hx => by rw [State.byteAt_commitOut, if_neg hx]

/-! ## The precondition checks -/

theorem State.checkBlockSize_none {s : State} (h : s.bcBlockSize = 16) : s.checkBlockSize = none := if_pos h
theorem State.checkBlockSize_some {s : State} (h : s.bcBlockSize ≠ 16) : s.checkBlockSize = some .invalidBlockSize :=
  if_neg h
theorem State.checkTweak_none {s : State} (h : s.tlen = 16) : s.checkTweak = none := if_pos h
theorem State.checkTweak_some {s : State} (h : s.tlen ≠ 16) : s.checkTweak = some .invalidTweakLength := if_neg h

/-- The legal message lengths are 16, 32, .., 2048 (R258). -/
theorem State.checkMessageLength_none {s : State} {m : Nat} (h : s.mlen.toNat = 16 * m) (h1 : 1 ≤ m) (h2 : m ≤ 128) :
    s.checkMessageLength = none := if_neg (by omega)

theorem State.checkMessageLength_some {s : State} (h : ∀ m, 1 ≤ m → m ≤ 128 → s.mlen.toNat ≠ 16 * m) :
    s.checkMessageLength = some .invalidMessageLength :=
  if_pos (by have := h (s.mlen.toNat / 16); omega)

/-- A passed message-length check says the length is `16 * m` for a block count `m` in 1 .. 128. -/
theorem State.length_of_checkMessageLength {s : State} (h : s.checkMessageLength = none) :
    s.mlen.toNat = 16 * (s.mlen.toNat / 16) ∧ 1 ≤ s.mlen.toNat / 16 ∧ s.mlen.toNat / 16 ≤ 128 := by
  unfold State.checkMessageLength at h
  split at h
  · cases h
  · omega

/-- The block count latched is MLEN div 16. -/
theorem State.latchCount_m {s : State} {m : Nat} (h : s.mlen.toNat = 16 * m) (h2 : m ≤ 128) :
    s.latchCount.scratch.m.toNat = m := by
  simp only [State.latchCount_scratch, BitVec.toNat_ofNat, h]
  omega

/-- Checked bodies: either the first failed check's error, or the body. -/
theorem State.checked_cases (checks : List (Option ErrCode)) (body : State → State) :
    (∃ e, some e ∈ checks ∧ firstError checks = some e ∧ s.checked checks body = s.raiseError e)
    ∨ ((∀ c ∈ checks, c = none) ∧ s.checked checks body = body s) := by
  have key : ∀ l : List (Option ErrCode),
      (∃ e, some e ∈ l ∧ firstError l = some e) ∨ ((∀ c ∈ l, c = none) ∧ firstError l = none) := by
    intro l
    induction l with
    | nil => exact .inr ⟨by simp, rfl⟩
    | cons c l ih =>
      cases c with
      | some e => exact .inl ⟨e, by simp, rfl⟩
      | none =>
        rcases ih with ⟨e, he, hf⟩ | ⟨hn, hf⟩
        · exact .inl ⟨e, by simp [he], hf⟩
        · exact .inr ⟨by simpa using hn, hf⟩
  unfold State.checked
  rcases key checks with ⟨e, he, hf⟩ | ⟨hn, hf⟩
  · exact .inl ⟨e, he, hf, by rw [hf]⟩
  · exact .inr ⟨hn, by rw [hf]⟩

/-! ## The two shapes of a command -/

variable {s}

theorem inExec_exec (h : s.phase = .exec) (body : State → State) : inExec s body = .next (body s) := by
  unfold inExec
  rw [h]

theorem inExec_other (h : s.phase ≠ .exec) (body : State → State) : inExec s body = .next s := by
  unfold inExec
  cases hp : s.phase <;> first | rfl | exact absurd hp h

theorem withCalls_exec (h : s.phase = .exec) (start : State → State) (answered : Block → State → State) :
    withCalls s start answered = .next (start s) := by
  unfold withCalls
  rw [h]

theorem withCalls_answer (h : s.phase = .await) {y : Block} (hr : s.rsp = some { err := false, data := y })
    (start : State → State) (answered : Block → State → State) :
    withCalls s start answered = .next (answered y s) := by
  unfold withCalls
  rw [h, hr]
  rfl

theorem withCalls_failure (h : s.phase = .await) {y : Block} (hr : s.rsp = some { err := true, data := y })
    (start : State → State) (answered : Block → State → State) :
    withCalls s start answered = .next (s.raiseError .underlyingCipherFailure) := by
  unfold withCalls
  rw [h, hr]
  rfl

/-- Everything a cipher command can do. -/
theorem withCalls_cases (start : State → State) (answered : Block → State → State) :
    (s.phase = .exec ∧ withCalls s start answered = .next (start s))
    ∨ (s.phase = .await ∧ ∃ r, s.rsp = some r ∧ r.err = true
        ∧ withCalls s start answered = .next (s.raiseError .underlyingCipherFailure))
    ∨ (s.phase = .await ∧ ∃ r, s.rsp = some r ∧ r.err = false ∧ withCalls s start answered = .next (answered r.data s))
    ∨ (s.phase ≠ .exec ∧ (s.phase = .await → s.rsp = none) ∧ withCalls s start answered = .next s) := by
  unfold withCalls
  cases hp : s.phase with
  | exec => simp
  | idle => simp
  | issue => simp
  | await =>
    cases hr : s.rsp with
    | none => simp
    | some r => cases he : r.err <;> simp [he]

@[simp] theorem mapNext_next (f : State → State) (t : State) : mapNext f (.next t) = .next (f t) := rfl

end Sys2Proof.Machine
end

