-- ==== Sys2Proof/Laws/LTable.lean ====
section
/-! SUPPORT. The L-table generator in closed form (spec 42_ltable.md rule R192) and what it leaves alone. -/

namespace Sys2Proof.Machine

/-- The loop of `GenL`: LW is doubled once a round, LT[i] is its value then, and nothing else of the scratch changes. -/
theorem genL_loop (n : Nat) (e : Block) (c : Scratch) (hw : c.lw = e) (h0 : c.ltAt 0 = e) :
    (forUp genLStep n 1 c).lw = double^[n] e ∧ (∀ i ≤ n, (forUp genLStep n 1 c).ltAt i = double^[i] e)
    ∧ forUp genLStep n 1 c = { c with lw := (forUp genLStep n 1 c).lw, lt := (forUp genLStep n 1 c).lt } := by
  induction n with
  | zero =>
    refine ⟨hw, fun i hi => ?_, rfl⟩
    obtain rfl : i = 0 := by omega
    exact h0
  | succ n ih =>
    obtain ⟨ih1, ih2, ih3⟩ := ih
    rw [forUp_succ_last]
    refine ⟨?_, fun i hi => ?_, ?_⟩
    · show double _ = _
      rw [ih1, ← Function.iterate_succ_apply' double]
    · show ((forUp genLStep n 1 c).putLt (1 + n) (double (forUp genLStep n 1 c).lw)).ltAt i = _
      rw [Scratch.ltAt_putLt, ih1]
      split
      · rename_i h
        rw [h, Nat.add_comm 1 n, Function.iterate_succ_apply']
      · exact ih2 i (by omega)
    · generalize forUp genLStep n 1 c = d at ih3
      rw [genLStep, ih3]

/-- `LT[i] = double^(i+1)(E0)` for i = 0 .. m-1 (R192). -/
theorem genL_ltAt {m : Nat} (e0 : Block) (c : Scratch) {i : Nat} (hi : i < m) :
    (genL m e0 c).ltAt i = double^[i + 1] e0 := by
  have h := (genL_loop (m - 1) (double e0) { c with lw := double e0, lt := putCell 0 (double e0) c.lt } rfl
    (Scratch.ltAt_putLt c 0 0 (double e0))).2.1 i (by omega)
  rw [Function.iterate_succ_apply]
  exact h

/-- `GenL` writes LT and LW alone (R191). -/
theorem genL_frame (m : Nat) (e0 : Block) (c : Scratch) :
    genL m e0 c = { c with lw := (genL m e0 c).lw, lt := (genL m e0 c).lt } := by
  have h := (genL_loop (m - 1) (double e0) { c with lw := double e0, lt := putCell 0 (double e0) c.lt } rfl
    (Scratch.ltAt_putLt c 0 0 (double e0))).2.2
  exact h

@[simp] theorem genL_cur (m : Nat) (e0 : Block) (c : Scratch) : (genL m e0 c).cur = c.cur := by rw [genL_frame]
@[simp] theorem genL_m (m : Nat) (e0 : Block) (c : Scratch) : (genL m e0 c).m = c.m := by rw [genL_frame]
@[simp] theorem genL_w (m : Nat) (e0 : Block) (c : Scratch) : (genL m e0 c).w = c.w := by rw [genL_frame]
@[simp] theorem genL_mp (m : Nat) (e0 : Block) (c : Scratch) : (genL m e0 c).mp = c.mp := by rw [genL_frame]
@[simp] theorem genL_req (m : Nat) (e0 : Block) (c : Scratch) : (genL m e0 c).req = c.req := by rw [genL_frame]

end Sys2Proof.Machine
end

