-- ==== Sys2Proof/Laws/Mixer.lean ====
section
/-! SUPPORT. The mixer's loops in closed form: the fold, pass 2 and the closure (spec 43_eme_mixer.md rules R214 to R216),
and what they leave alone. -/

namespace Sys2Proof.Machine

/-- Two equal families have equal sums. -/
theorem xorSum_congr {f g : Nat → Block} {n : Nat} (h : ∀ i < n, f i = g i) : xorSum f n = xorSum g n := by
  induction n with
  | zero => rfl
  | succ n ih => rw [xorSum, xorSum, ih fun i hi => h i (Nat.lt_succ_of_lt hi), h n (Nat.lt_succ_self n)]

/-- A sum with its first term taken off. -/
theorem xorSum_succ_first (f : Nat → Block) (n : Nat) : xorSum f (n + 1) = f 0 ^^^ xorSum (fun i => f (i + 1)) n := by
  induction n with
  | zero => simp [xorSum]
  | succ n ih => rw [xorSum, ih, xorSum, BitVec.xor_assoc]

/-- A loop that accumulates by XOR. -/
theorem forUp_xor (f : Nat → Block) (n j : Nat) (a : Block) :
    forUp (fun i acc => xorBlocks acc (f i)) n j a = a ^^^ xorSum (fun i => f (j + i)) n := by
  induction n with
  | zero => simp [xorSum]
  | succ n ih => rw [forUp_succ_last, ih, xorBlocks_eq, xorSum, BitVec.xor_assoc]

/-- `MP = W[0] XOR .. XOR W[m-1] XOR T` (R214). -/
theorem foldMp_eq {m : Nat} (t : Block) (c : Scratch) (hm : 1 ≤ m) : foldMp m t c = xorSum c.wAt m ^^^ t := by
  obtain ⟨n, rfl⟩ := Nat.exists_eq_add_of_le hm
  unfold foldMp
  rw [forUp_xor, xorBlocks_eq, Nat.add_comm 1 n, xorSum_succ_first, Nat.add_sub_cancel]
  simp only [Nat.add_comm 1]
  rw [BitVec.xor_assoc, BitVec.xor_comm t, ← BitVec.xor_assoc]

/-- Pass 2's loop: W[j] gets `double^j(M)` of the starting M, for j = 1 .. n; nothing else but M and W changes. -/
theorem pass2_loop (n : Nat) (c : Scratch) :
    (forUp pass2Step n 1 c).mm = double^[n] c.mm
    ∧ (∀ j, (forUp pass2Step n 1 c).wAt j = if 1 ≤ j ∧ j ≤ n then c.wAt j ^^^ double^[j] c.mm else c.wAt j)
    ∧ forUp pass2Step n 1 c = { c with mm := (forUp pass2Step n 1 c).mm, w := (forUp pass2Step n 1 c).w } := by
  induction n with
  | zero => exact ⟨rfl, fun j => by rw [if_neg (by omega)]; rfl, rfl⟩
  | succ n ih =>
    obtain ⟨ih1, ih2, ih3⟩ := ih
    rw [forUp_succ_last]
    refine ⟨?_, fun j => ?_, ?_⟩
    · show double _ = _
      rw [ih1, ← Function.iterate_succ_apply' double]
    · show ((forUp pass2Step n 1 c).putW (1 + n) (xorBlocks ((forUp pass2Step n 1 c).wAt (1 + n))
        (double (forUp pass2Step n 1 c).mm))).wAt j = _
      rw [Scratch.wAt_putW, ih1, xorBlocks_eq, ih2, ih2, ← Function.iterate_succ_apply' double]
      split
      · rename_i h
        rw [if_neg (by omega), if_pos (by omega), h, Nat.add_comm 1 n]
      · split
        · rw [if_pos (by omega)]
        · rw [if_neg (by omega)]
    · generalize forUp pass2Step n 1 c = d at ih3
      rw [pass2Step, ih3]

/-- The closure's loop: X gathers W[1 .. n]; nothing else changes. -/
theorem closure_loop (n : Nat) (c : Scratch) :
    forUp closureStep n 1 c = { c with x := c.x ^^^ xorSum (fun i => c.wAt (i + 1)) n } := by
  induction n with
  | zero => simp [xorSum]
  | succ n ih =>
    rw [forUp_succ_last, ih, closureStep, xorBlocks_eq, xorSum, BitVec.xor_assoc, Nat.add_comm 1 n]
    rfl

/-- What pass 2 and the closure leave in W (R215, R216). -/
theorem mixScratch_wAt (m : Nat) (t y : Block) (c : Scratch) (j : Nat) :
    (mixScratch m t y c).wAt j =
      if j = 0 then y ^^^ t ^^^ xorSum (fun i => c.wAt (i + 1) ^^^ double^[i + 1] (c.mp ^^^ y)) (m - 1)
      else if j < m then c.wAt j ^^^ double^[j] (c.mp ^^^ y) else c.wAt j := by
  have h2 := pass2_loop (m - 1) { c with mc := y, mm := xorBlocks c.mp y }
  unfold mixScratch
  simp only [closure_loop, Scratch.wAt_putW]
  split
  · rw [xorBlocks_eq]
    congr 1
    apply xorSum_congr
    intro i hi
    show (forUp pass2Step (m - 1) 1 { c with mc := y, mm := xorBlocks c.mp y }).wAt (i + 1) = _
    rw [h2.2.1, if_pos (by omega), xorBlocks_eq]
    rfl
  · show (forUp pass2Step (m - 1) 1 { c with mc := y, mm := xorBlocks c.mp y }).wAt j = _
    rw [h2.2.1, xorBlocks_eq]
    split
    · rw [if_pos (by omega)]; rfl
    · rw [if_neg (by omega)]; rfl

/-- Pass 2 and the closure change MC, M, X and W alone. -/
theorem mixScratch_frame (m : Nat) (t y : Block) (c : Scratch) :
    mixScratch m t y c = { c with
      mc := y
      mm := (mixScratch m t y c).mm
      x := (mixScratch m t y c).x
      w := (mixScratch m t y c).w } := by
  have h2 := (pass2_loop (m - 1) { c with mc := y, mm := xorBlocks c.mp y }).2.2
  unfold mixScratch
  simp only [closure_loop, Scratch.putW]
  rw [h2]

@[simp] theorem mixScratch_cur (m : Nat) (t y : Block) (c : Scratch) : (mixScratch m t y c).cur = c.cur := by
  rw [mixScratch_frame]
@[simp] theorem mixScratch_m (m : Nat) (t y : Block) (c : Scratch) : (mixScratch m t y c).m = c.m := by
  rw [mixScratch_frame]
@[simp] theorem mixScratch_lt (m : Nat) (t y : Block) (c : Scratch) : (mixScratch m t y c).lt = c.lt := by
  rw [mixScratch_frame]
@[simp] theorem mixScratch_mp (m : Nat) (t y : Block) (c : Scratch) : (mixScratch m t y c).mp = c.mp := by
  rw [mixScratch_frame]

@[simp] theorem mixScratch_mc (m : Nat) (t y : Block) (c : Scratch) : (mixScratch m t y c).mc = y := by
  rw [mixScratch_frame]

/-- M ends doubled `m - 1` times (R215). -/
theorem mixScratch_mm (m : Nat) (t y : Block) (c : Scratch) :
    (mixScratch m t y c).mm = double^[m - 1] (c.mp ^^^ y) := by
  unfold mixScratch
  simp only [closure_loop]
  show (forUp pass2Step (m - 1) 1 { c with mc := y, mm := xorBlocks c.mp y }).mm = _
  rw [(pass2_loop _ _).1, xorBlocks_eq]

/-- X ends as W[0] (R216). -/
theorem mixScratch_x (m : Nat) (t y : Block) (c : Scratch) : (mixScratch m t y c).x = (mixScratch m t y c).wAt 0 := by
  unfold mixScratch
  rw [Scratch.wAt_putW, if_pos rfl]
  rfl

end Sys2Proof.Machine
end

