-- ==== Sys2Proof/Laws/PerInstr.lean ====
section
/-! SUPPORT. The laws made per instruction. Family `EncodeLegal`: the encoding of every command, whatever its operands, is a
legal word (spec 30_encoding.md rules R113, R114, R117). -/

namespace Sys2Proof.Laws.EncodeLegal

/-- The encoding of `i` is a legal word. -/
def Statement (i : Instr) : Prop := legal (encode i) = true

theorem nop : Statement .nop := legal_packWord 0 0 0 0 (by decide) (unusedFieldsZero_packWord_none 0 0 (by decide))
theorem dbl (d s : BlockAddr) : Statement (.dbl d s) :=
  legal_packWord 1 d s 0 (by decide) (unusedFieldsZero_packWord_two 1 0 d s (by decide))
theorem xor (d a b : BlockAddr) : Statement (.xor d a b) :=
  legal_packWord 2 d a b (by decide) (unusedFieldsZero_packWord_xor 0 d a b)
theorem bce (d s : BlockAddr) : Statement (.bce d s) :=
  legal_packWord 3 d s 0 (by decide) (unusedFieldsZero_packWord_two 3 0 d s (by decide))
theorem bcd (d s : BlockAddr) : Statement (.bcd d s) :=
  legal_packWord 4 d s 0 (by decide) (unusedFieldsZero_packWord_two 4 0 d s (by decide))
theorem ltgen : Statement .ltgen := legal_packWord 5 0 0 0 (by decide) (unusedFieldsZero_packWord_none 5 0 (by decide))
theorem emee : Statement .emee := legal_packWord 6 0 0 0 (by decide) (unusedFieldsZero_packWord_none 6 0 (by decide))
theorem emed : Statement .emed := legal_packWord 7 0 0 0 (by decide) (unusedFieldsZero_packWord_none 7 0 (by decide))

end Sys2Proof.Laws.EncodeLegal
end

