-- ==== Sys2Proof/Laws/Step.lean ====
section
/-! SUPPORT. What `exec` and `step` can do, said once; and the decoder's link to the latched command. -/

namespace Sys2Proof.Machine

/-! ## Decoding and the latched command -/

/-- A word that decodes is legal, and its fields select the command it decodes to. -/
theorem decode_ok {w : Word} {i : Instr} (h : decode w = .ok i) :
    legal w = true ∧ commandOf (fieldOp w) (fieldDst w) (fieldSrca w) (fieldSrcb w) = some i := by
  unfold decode at h
  split at h
  · cases h
  · rename_i j hj
    split at h
    · rename_i hr
      split at h
      · rename_i hu
        cases h
        refine ⟨?_, hj⟩
        have hop : (fieldOp w).toNat ≤ 7 := by
          rcases Nat.lt_or_ge 7 (fieldOp w).toNat with h8 | h8
          · have : (fieldOp w).toNat < 16 := (fieldOp w).isLt
            unfold commandOf at hj
            split at hj <;> first | omega | cases hj
          · exact h8
        simp [legal, hop, hr, hu]
      · cases h
    · cases h

/-- The command CUR holds after the accept of a word that decodes. -/
theorem currentCommand_of_decode {s : State} {i : Instr} (hc : s.scratch.cur = latchedCommand s.lastcmd)
    (h : decode s.lastcmd = .ok i) : s.currentCommand = some i := by
  rw [State.currentCommand, hc]
  exact (decode_ok h).2

/-- A legal word decodes. -/
theorem decode_of_legal {w : Word} (h : legal w = true) : ∃ i, decode w = .ok i := by
  simp only [legal, Bool.and_eq_true, decide_eq_true_eq, beq_iff_eq] at h
  obtain ⟨⟨h1, h2⟩, h3⟩ := h
  unfold decode
  have hsome : ∃ i, commandOf (fieldOp w) (fieldDst w) (fieldSrca w) (fieldSrcb w) = some i := by
    unfold commandOf
    generalize (fieldOp w).toNat = n at h1
    interval_cases n <;> exact ⟨_, rfl⟩
  obtain ⟨i, hi⟩ := hsome
  exact ⟨i, by simp [hi, h2, h3]⟩

/-! ## The shape of each command -/

theorem exec_nop (s : State) : exec .nop s = inExec s State.complete := rfl
theorem exec_dbl (d a : BlockAddr) (s : State) :
    exec (.dbl d a) s = inExec s fun s => (s.putBlk d (double (s.blk a))).complete := rfl
theorem exec_xor (d a b : BlockAddr) (s : State) :
    exec (.xor d a b) s = inExec s fun s => (s.putBlk d (xorBlocks (s.blk a) (s.blk b))).complete := rfl
theorem exec_bce (d a : BlockAddr) (s : State) :
    exec (.bce d a) s = withCalls s (singleCallStart .enc a) (singleCallAnswered d) := rfl
theorem exec_bcd (d a : BlockAddr) (s : State) :
    exec (.bcd d a) s = withCalls s (singleCallStart .dec a) (singleCallAnswered d) := rfl
theorem exec_ltgen (s : State) : exec .ltgen s = withCalls s ltgenStart ltgenAnswered := rfl
theorem exec_emee (s : State) : exec .emee s = withCalls s emeStart (emeAnswered .enc) := rfl
theorem exec_emed (s : State) : exec .emed s = withCalls s emeStart (emeAnswered .dec) := rfl

/-! ## What a command's segment can do -/

/-- What `exec` can do to a state: nothing; end the command with an error that the spec produces; end it with success,
having written memory alone; or go on to a cipher call, having written scratch other than CUR alone. -/
inductive Progress (s : State) : State → Prop where
  | stays : Progress s s
  | fails {e : ErrCode} : e ≠ .none → e ≠ .bufferLengthMismatch → s.phase = .exec ∨ e = .underlyingCipherFailure →
      Progress s (s.raiseError e)
  | completes (m : List Host.Cell) : Progress s { s with mem := m }.complete
  | calls (c : Scratch) (n : Nat) (dir : Dir) (x : Block) : c.cur = s.scratch.cur →
      Progress s ({ s with scratch := c }.cipherCall n dir x)

theorem Progress.complete_of_memory {s u : State} (h : u = { s with mem := u.mem }) : Progress s u.complete := by
  rw [h]
  exact .completes _

/-- A checked start: an error of one of its checks, or its body. -/
theorem checked_progress {s : State} {checks : List (Option ErrCode)} {body : State → State} (hp : s.phase = .exec)
    (hc : ∀ e, some e ∈ checks → e ≠ .none ∧ e ≠ .bufferLengthMismatch) (hb : Progress s (body s)) :
    Progress s (s.checked checks body) := by
  rcases s.checked_cases checks body with ⟨e, he, _, h⟩ | ⟨_, h⟩ <;> rw [h]
  · exact .fails (hc e he).1 (hc e he).2 (.inl hp)
  · exact hb

theorem checkBlockSize_error {s : State} {e : ErrCode} (h : s.checkBlockSize = some e) : e = .invalidBlockSize := by
  unfold State.checkBlockSize at h
  split at h <;> simp_all

theorem checkTweak_error {s : State} {e : ErrCode} (h : s.checkTweak = some e) : e = .invalidTweakLength := by
  unfold State.checkTweak at h
  split at h <;> simp_all

theorem checkMessageLength_error {s : State} {e : ErrCode} (h : s.checkMessageLength = some e) :
    e = .invalidMessageLength := by
  unfold State.checkMessageLength at h
  split at h <;> simp_all

theorem singleCallStart_progress {s : State} (hp : s.phase = .exec) (dir : Dir) (a : BlockAddr) :
    Progress s (singleCallStart dir a s) :=
  checked_progress hp
    (fun e he => by
      simp only [List.mem_singleton] at he
      rw [checkBlockSize_error he.symm]
      decide)
    (.calls s.scratch 0 dir (s.blk a) rfl)

theorem ltgenStart_progress {s : State} (hp : s.phase = .exec) : Progress s (ltgenStart s) :=
  checked_progress hp
    (fun e he => by
      simp only [List.mem_cons, List.not_mem_nil, or_false] at he
      rcases he with he | he
      · rw [checkBlockSize_error he.symm]; decide
      · rw [checkMessageLength_error he.symm]; decide)
    (.calls s.latchCount.scratch 0 .enc 0 rfl)

theorem emeStart_progress {s : State} (hp : s.phase = .exec) : Progress s (emeStart s) :=
  checked_progress hp
    (fun e he => by
      simp only [List.mem_cons, List.not_mem_nil, or_false] at he
      rcases he with he | he | he
      · rw [checkBlockSize_error he.symm]; decide
      · rw [checkTweak_error he.symm]; decide
      · rw [checkMessageLength_error he.symm]; decide)
    (.calls s.latchCount.scratch 0 .enc 0 rfl)

theorem ltgenAnswered_progress (s : State) (y : Block) : Progress s (ltgenAnswered y s) := by
  unfold ltgenAnswered
  rw [State.commitOut_memory]
  exact .completes _

theorem emeAnswered_progress (s : State) (dir : Dir) (y : Block) : Progress s (emeAnswered dir y s) := by
  unfold emeAnswered
  dsimp only
  split
  · exact .calls (genL s.scratch.m.toNat y s.scratch) 1 dir _ (genL_cur ..)
  · split
    · unfold emePass1
      dsimp only
      split
      · exact .calls (s.scratch.putW _ y) _ dir _ rfl
      · exact .calls { s.scratch.putW _ y with mp := _ } _ dir _ rfl
    · split
      · exact .calls (mixScratch s.scratch.m.toNat s.tweak y s.scratch) _ dir _ (mixScratch_cur ..)
      · split
        · unfold emePass3
          dsimp only
          split
          · exact .calls (s.scratch.putW _ _) _ dir _ rfl
          · rw [State.commitOut_memory]
            exact .completes _
        · exact .stays

theorem inExec_progress {s t : State} {body : State → State} (h : inExec s body = .next t)
    (hb : s.phase = .exec → Progress s (body s)) : Progress s t := by
  by_cases hp : s.phase = .exec
  · rw [inExec_exec hp] at h
    cases h
    exact hb hp
  · rw [inExec_other hp] at h
    cases h
    exact .stays

theorem withCalls_progress {s t : State} {start : State → State} {answered : Block → State → State}
    (h : withCalls s start answered = .next t) (hs : s.phase = .exec → Progress s (start s))
    (ha : ∀ y, Progress s (answered y s)) : Progress s t := by
  rcases withCalls_cases (s := s) start answered with ⟨hp, e⟩ | ⟨_, r, _, _, e⟩ | ⟨_, r, _, _, e⟩ | ⟨_, _, e⟩ <;>
    rw [e] at h <;> cases h
  · exact hs hp
  · exact .fails (by decide) (by decide) (.inr rfl)
  · exact ha _
  · exact .stays

/-- `exec` answers a next state, in one of the ways of `Progress`. -/
theorem exec_progress (i : Instr) (s : State) : ∃ t, exec i s = .next t ∧ Progress s t := by
  have inExec_next : ∀ body : State → State, ∃ t, inExec s body = .next t := by
    intro body
    by_cases hp : s.phase = .exec
    · exact ⟨_, inExec_exec hp body⟩
    · exact ⟨_, inExec_other hp body⟩
  have withCalls_next : ∀ (st : State → State) (an : Block → State → State), ∃ t, withCalls s st an = .next t := by
    intro st an
    rcases withCalls_cases (s := s) st an with ⟨_, e⟩ | ⟨_, _, _, _, e⟩ | ⟨_, _, _, _, e⟩ | ⟨_, _, e⟩ <;> exact ⟨_, e⟩
  have putBlk_completes : ∀ (d : BlockAddr) (b : Block), Progress s (s.putBlk d b).complete := fun d b =>
    .complete_of_memory (s.putBlock_memory _ _)
  cases i with
  | nop =>
    obtain ⟨t, h⟩ := inExec_next State.complete
    exact ⟨t, h, inExec_progress h fun _ => .completes s.mem⟩
  | dbl d a =>
    obtain ⟨t, h⟩ := inExec_next fun s => (s.putBlk d (double (s.blk a))).complete
    exact ⟨t, h, inExec_progress h fun _ => putBlk_completes d _⟩
  | xor d a b =>
    obtain ⟨t, h⟩ := inExec_next fun s => (s.putBlk d (xorBlocks (s.blk a) (s.blk b))).complete
    exact ⟨t, h, inExec_progress h fun _ => putBlk_completes d _⟩
  | bce d a =>
    obtain ⟨t, h⟩ := withCalls_next (singleCallStart .enc a) (singleCallAnswered d)
    exact ⟨t, h, withCalls_progress h (fun hp => singleCallStart_progress hp .enc a) fun y => putBlk_completes d y⟩
  | bcd d a =>
    obtain ⟨t, h⟩ := withCalls_next (singleCallStart .dec a) (singleCallAnswered d)
    exact ⟨t, h, withCalls_progress h (fun hp => singleCallStart_progress hp .dec a) fun y => putBlk_completes d y⟩
  | ltgen =>
    obtain ⟨t, h⟩ := withCalls_next ltgenStart ltgenAnswered
    exact ⟨t, h, withCalls_progress h ltgenStart_progress fun y => ltgenAnswered_progress s y⟩
  | emee =>
    obtain ⟨t, h⟩ := withCalls_next emeStart (emeAnswered .enc)
    exact ⟨t, h, withCalls_progress h emeStart_progress fun y => emeAnswered_progress s .enc y⟩
  | emed =>
    obtain ⟨t, h⟩ := withCalls_next emeStart (emeAnswered .dec)
    exact ⟨t, h, withCalls_progress h emeStart_progress fun y => emeAnswered_progress s .dec y⟩

/-! ## What a step can do -/

/-- The EXEC step: the command of a legal word's CUR, or ILLEGAL_COMMAND; nothing outside EXEC. -/
theorem execStep_cases (s : State) :
    (s.phase = .exec ∧ ∃ i, s.currentCommand = some i ∧ legal s.lastcmd = true ∧ execStep s = exec i s)
    ∨ (s.phase = .exec ∧ (legal s.lastcmd = true → s.currentCommand = none)
        ∧ execStep s = .next (s.raiseError .illegalCommand))
    ∨ (s.phase ≠ .exec ∧ execStep s = .next s) := by
  unfold execStep
  cases hp : s.phase with
  | exec =>
    cases hl : legal s.lastcmd with
    | true => cases hc : s.currentCommand <;> simp
    | false => simp
  | idle => simp
  | issue => simp
  | await => simp

/-- The response step: the command of CUR with the response, then consumed; nothing outside AWAIT. -/
theorem responseStep_cases (r : Response) (s : State) :
    (s.phase = .await ∧ ∃ i, s.currentCommand = some i
        ∧ responseStep r s = mapNext (fun t => { t with rsp := none }) (exec i { s with rsp := some r }))
    ∨ ((s.phase = .await → s.currentCommand = none) ∧ responseStep r s = .next s) := by
  unfold responseStep
  cases hp : s.phase with
  | await => cases hc : s.currentCommand <;> simp
  | idle => simp
  | exec => simp
  | issue => simp

/-- The sequencer's turn in EXEC on a legal word is `exec` of the command CUR holds. -/
theorem react_sequencer {s : State} {i : Instr} (hr : s.rstN = true) (hp : s.phase = .exec)
    (hl : legal s.lastcmd = true) (hc : s.currentCommand = some i) : react .sequencer s = exec i s := by
  simp [react, hr, execStep, hp, hl, hc]

/-- Taking an event changes the list of inputs or the count of draws, and nothing else. -/
theorem afterEvent_eq (s : State) : s.afterEvent = { s with inputs := s.afterEvent.inputs, draws := s.afterEvent.draws } := by
  unfold State.afterEvent
  split
  · rfl
  · split <;> rfl

@[simp] theorem afterEvent_irqEn (s : State) : s.afterEvent.irqEn = s.irqEn := by rw [afterEvent_eq]
@[simp] theorem afterEvent_busy (s : State) : s.afterEvent.busy = s.busy := by rw [afterEvent_eq]
@[simp] theorem afterEvent_done (s : State) : s.afterEvent.done = s.done := by rw [afterEvent_eq]
@[simp] theorem afterEvent_resultValid (s : State) : s.afterEvent.resultValid = s.resultValid := by rw [afterEvent_eq]
@[simp] theorem afterEvent_ovr (s : State) : s.afterEvent.ovr = s.ovr := by rw [afterEvent_eq]
@[simp] theorem afterEvent_errcode (s : State) : s.afterEvent.errcode = s.errcode := by rw [afterEvent_eq]
@[simp] theorem afterEvent_lastcmd (s : State) : s.afterEvent.lastcmd = s.lastcmd := by rw [afterEvent_eq]
@[simp] theorem afterEvent_mlen (s : State) : s.afterEvent.mlen = s.mlen := by rw [afterEvent_eq]
@[simp] theorem afterEvent_tlen (s : State) : s.afterEvent.tlen = s.tlen := by rw [afterEvent_eq]
@[simp] theorem afterEvent_calls (s : State) : s.afterEvent.calls = s.calls := by rw [afterEvent_eq]
@[simp] theorem afterEvent_tweak (s : State) : s.afterEvent.tweak = s.tweak := by rw [afterEvent_eq]
@[simp] theorem afterEvent_mem (s : State) : s.afterEvent.mem = s.mem := by rw [afterEvent_eq]
@[simp] theorem afterEvent_phase (s : State) : s.afterEvent.phase = s.phase := by rw [afterEvent_eq]
@[simp] theorem afterEvent_k (s : State) : s.afterEvent.k = s.k := by rw [afterEvent_eq]
@[simp] theorem afterEvent_scratch (s : State) : s.afterEvent.scratch = s.scratch := by rw [afterEvent_eq]
@[simp] theorem afterEvent_bcBlockSize (s : State) : s.afterEvent.bcBlockSize = s.bcBlockSize := by rw [afterEvent_eq]
@[simp] theorem afterEvent_rstN (s : State) : s.afterEvent.rstN = s.rstN := by rw [afterEvent_eq]
@[simp] theorem afterEvent_rsp (s : State) : s.afterEvent.rsp = s.rsp := by rw [afterEvent_eq]
@[simp] theorem afterEvent_hAnswer (s : State) : s.afterEvent.hAnswer = s.hAnswer := by rw [afterEvent_eq]
@[simp] theorem afterEvent_epoch (s : State) : s.afterEvent.epoch = s.epoch := by rw [afterEvent_eq]
@[simp] theorem afterEvent_byteAt (s : State) (a : Nat) : s.afterEvent.byteAt a = s.byteAt a := by rw [afterEvent_eq]; rfl
@[simp] theorem afterEvent_currentCommand (s : State) : s.afterEvent.currentCommand = s.currentCommand := by
  rw [afterEvent_eq]; rfl

/-- With outside events listed, the step takes the first of them. -/
theorem step_cons {s : State} {e : Event} {l : List Event} (h : s.inputs = e :: l) :
    step s = react e { s with inputs := l } := by
  unfold step State.nextEvent State.afterEvent
  rw [h]
  rfl

theorem stepWith_eq (e : Event) (s : State) : stepWith e s = react e { s with inputs := [] } := step_cons rfl

end Sys2Proof.Machine
end

