-- ==== Sys2Proof/Laws/Run.lean ====
section
/-! SUPPORT. What one segment of a command does, by the phase it starts in, with the call count and the memory; and the
inversion of a step by its event. -/

namespace Sys2Proof.Machine

/-- Checked bodies whose checks can only answer the codes 1, 2 and 3. -/
theorem checked_codes {s : State} {checks : List (Option ErrCode)} {body : State → State}
    (hc : ∀ c ∈ checks, c = s.checkBlockSize ∨ c = s.checkTweak ∨ c = s.checkMessageLength) :
    (∃ e, s.checked checks body = s.raiseError e
      ∧ (e = .invalidBlockSize ∨ e = .invalidTweakLength ∨ e = .invalidMessageLength))
    ∨ ((∀ c ∈ checks, c = none) ∧ s.checked checks body = body s) := by
  rcases s.checked_cases checks body with ⟨e, he, _, h⟩ | h
  · refine .inl ⟨e, h, ?_⟩
    rcases hc _ he with h | h | h
    · exact .inl (checkBlockSize_error h.symm)
    · exact .inr (.inl (checkTweak_error h.symm))
    · exact .inr (.inr (checkMessageLength_error h.symm))
  · exact .inr h

/-- A passed length check latches a block count that is MLEN's. -/
theorem latchCount_of_check {s : State} (h : s.checkMessageLength = none) :
    s.mlen.toNat = 16 * s.latchCount.scratch.m.toNat ∧ 1 ≤ s.latchCount.scratch.m.toNat
      ∧ s.latchCount.scratch.m.toNat ≤ 128 := by
  have hl := State.length_of_checkMessageLength h
  rw [State.latchCount_m hl.1 hl.2.2]
  exact hl

/-- The EXEC step of a command: an error 1, 2 or 3; success of a command without calls, with a memory written in blocks;
or its call number 0, with the block count latched. -/
theorem exec_start (i : Instr) {s : State} (hp : s.phase = .exec) : ∃ t, exec i s = .next t ∧
    ((∃ e, t = s.raiseError e ∧ (e = .invalidBlockSize ∨ e = .invalidTweakLength ∨ e = .invalidMessageLength))
    ∨ ((∀ m, callCount m i = 0) ∧ usesCount i = false
        ∧ ∃ m, t = { s with mem := m }.complete ∧ (Memory.wf s.mem → Memory.wf m))
    ∨ (∃ c dir x, t = { s with scratch := c }.cipherCall 0 dir x ∧ c.cur = s.scratch.cur ∧ 0 < callCount c.m.toNat i
        ∧ (usesCount i = true → s.mlen.toNat = 16 * c.m.toNat ∧ 1 ≤ c.m.toNat ∧ c.m.toNat ≤ 128))) := by
  have stored : ∀ (d : BlockAddr) (b : Block), ∃ m, (s.putBlk d b).complete = { s with mem := m }.complete
      ∧ (Memory.wf s.mem → Memory.wf m) := fun d b =>
    ⟨(s.putBlk d b).mem, congrArg State.complete (s.putBlock_memory (blkOffset d) b), fun h => State.putBlk_wf h d b⟩
  have single : ∀ (dir : Dir) (a : BlockAddr),
      (∃ e, singleCallStart dir a s = s.raiseError e
        ∧ (e = .invalidBlockSize ∨ e = .invalidTweakLength ∨ e = .invalidMessageLength))
      ∨ singleCallStart dir a s = s.cipherCall 0 dir (s.blk a) := fun dir a =>
    (checked_codes (by simp)).imp_right fun h => h.2
  cases i with
  | nop => exact ⟨s.complete, inExec_exec hp State.complete, .inr (.inl ⟨fun _ => rfl, rfl, s.mem, rfl, id⟩)⟩
  | dbl d a =>
    exact ⟨(s.putBlk d (double (s.blk a))).complete, by rw [exec_dbl, inExec_exec hp],
      .inr (.inl ⟨fun _ => rfl, rfl, stored d _⟩)⟩
  | xor d a b =>
    exact ⟨(s.putBlk d (xorBlocks (s.blk a) (s.blk b))).complete, by rw [exec_xor, inExec_exec hp],
      .inr (.inl ⟨fun _ => rfl, rfl, stored d _⟩)⟩
  | bce d a =>
    refine ⟨_, withCalls_exec hp _ _, ?_⟩
    rcases single .enc a with h | h
    · exact .inl h
    · exact .inr (.inr ⟨s.scratch, .enc, s.blk a, h, rfl, Nat.one_pos, by simp [usesCount]⟩)
  | bcd d a =>
    refine ⟨_, withCalls_exec hp _ _, ?_⟩
    rcases single .dec a with h | h
    · exact .inl h
    · exact .inr (.inr ⟨s.scratch, .dec, s.blk a, h, rfl, Nat.one_pos, by simp [usesCount]⟩)
  | ltgen =>
    refine ⟨_, withCalls_exec hp _ _, ?_⟩
    rcases checked_codes (s := s) (checks := [s.checkBlockSize, s.checkMessageLength])
      (body := fun s => s.latchCount.cipherCall 0 .enc 0) (by simp) with h | ⟨hn, h⟩
    · exact .inl h
    · exact .inr (.inr ⟨s.latchCount.scratch, .enc, 0, h, rfl, Nat.one_pos,
        fun _ => latchCount_of_check (hn _ (by simp))⟩)
  | emee =>
    refine ⟨_, withCalls_exec hp _ _, ?_⟩
    rcases checked_codes (s := s) (checks := [s.checkBlockSize, s.checkTweak, s.checkMessageLength])
      (body := fun s => s.latchCount.cipherCall 0 .enc 0) (by simp) with h | ⟨hn, h⟩
    · exact .inl h
    · exact .inr (.inr ⟨s.latchCount.scratch, .enc, 0, h, rfl, by simp [callCount],
        fun _ => latchCount_of_check (hn _ (by simp))⟩)
  | emed =>
    refine ⟨_, withCalls_exec hp _ _, ?_⟩
    rcases checked_codes (s := s) (checks := [s.checkBlockSize, s.checkTweak, s.checkMessageLength])
      (body := fun s => s.latchCount.cipherCall 0 .enc 0) (by simp) with h | ⟨hn, h⟩
    · exact .inl h
    · exact .inr (.inr ⟨s.latchCount.scratch, .enc, 0, h, rfl, by simp [callCount],
        fun _ => latchCount_of_check (hn _ (by simp))⟩)

/-- A commit to OUT, as a change of memory alone: it keeps the memory's form and every byte below OUT. -/
theorem commitOut_completes {s u : State} (hu : u = { s with scratch := u.scratch }) (n : Nat) (g : Nat → Block) :
    ∃ m, (u.commitOut n g).complete = { s with mem := m }.complete
      ∧ (n ≤ 128 → Memory.wf s.mem → Memory.wf m)
      ∧ ∀ a < 0x1800, ({ s with mem := m } : State).byteAt a = s.byteAt a := by
  have hm : u.mem = s.mem := by rw [hu]
  refine ⟨(u.commitOut n g).mem, ?_, fun hn h => State.commitOut_wf (hm ▸ h) g hn, fun a ha => ?_⟩
  · rw [State.commitOut_memory u n g, hu]
    rfl
  · have e := u.byteAt_commitOut n a g
    rw [if_neg (by omega), State.commitOut_memory] at e
    rw [hu] at e ⊢
    exact e

/-- An answer to one of EME's calls but the last leads to the next call; the last one to the commit. -/
theorem emeAnswered_cases (dir : Dir) (y : Block) {s : State} (hm : 1 ≤ s.scratch.m.toNat)
    (hk : s.k < 2 * s.scratch.m.toNat + 2) :
    (s.k + 1 = 2 * s.scratch.m.toNat + 2 ∧ ∃ m, emeAnswered dir y s = { s with mem := m }.complete
      ∧ (s.scratch.m.toNat ≤ 128 → Memory.wf s.mem → Memory.wf m)
      ∧ ∀ a < 0x1800, ({ s with mem := m } : State).byteAt a = s.byteAt a)
    ∨ (s.k + 1 < 2 * s.scratch.m.toNat + 2 ∧ ∃ c x, emeAnswered dir y s = { s with scratch := c }.cipherCall (s.k + 1) dir x
      ∧ c.cur = s.scratch.cur ∧ c.m = s.scratch.m) := by
  unfold emeAnswered
  dsimp only
  by_cases h0 : s.k = 0
  · rw [if_pos h0]
    refine .inr ⟨by omega, (s.genL y).scratch, xorBlocks (s.inBlock 0) ((s.genL y).scratch.ltAt 0), ?_,
      genL_cur _ _ _, genL_m _ _ _⟩
    rw [h0]
    rfl
  · rw [if_neg h0]
    by_cases h1 : s.k ≤ s.scratch.m.toNat
    · rw [if_pos h1]
      refine .inr ⟨by omega, ?_⟩
      unfold emePass1
      dsimp only
      by_cases h2 : s.k - 1 + 1 < s.scratch.m.toNat
      all_goals simp only [h2, if_true, if_false]
      · exact ⟨s.scratch.putW (s.k - 1) y, _, by
          rw [show s.k + 1 = 1 + (s.k - 1 + 1) by omega]; rfl, rfl, rfl⟩
      · exact ⟨{ s.scratch.putW (s.k - 1) y with mp := foldMp s.scratch.m.toNat s.tweak (s.scratch.putW (s.k - 1) y) }, _, by
          rw [show s.k + 1 = s.scratch.m.toNat + 1 by omega]; rfl, rfl, rfl⟩
    · rw [if_neg h1]
      by_cases h2 : s.k = s.scratch.m.toNat + 1
      · rw [if_pos h2]
        refine .inr ⟨by omega, mixScratch s.scratch.m.toNat s.tweak y s.scratch,
          (mixScratch s.scratch.m.toNat s.tweak y s.scratch).wAt 0, ?_, mixScratch_cur _ _ _ _, mixScratch_m _ _ _ _⟩
        rw [show s.k + 1 = s.scratch.m.toNat + 2 + 0 by omega, emeMix, pass3Call, mixScratch_m]
      · rw [if_neg h2, if_pos hk]
        unfold emePass3
        dsimp only
        by_cases h3 : s.k - (s.scratch.m.toNat + 2) + 1 < s.scratch.m.toNat
        all_goals simp only [h3, if_true, if_false]
        · exact .inr ⟨by omega, s.scratch.putW (s.k - (s.scratch.m.toNat + 2)) (xorBlocks y (s.scratch.ltAt (s.k - (s.scratch.m.toNat + 2)))), _, by
            rw [show s.k + 1 = s.scratch.m.toNat + 2 + (s.k - (s.scratch.m.toNat + 2) + 1) by omega]; rfl, rfl, rfl⟩
        · exact .inl ⟨by omega, commitOut_completes rfl _ _⟩

/-- The response step of a command that is inside a call: failure, with code 5; or after its last call success, with a
memory in which the transforms have written OUT alone; or the next call. -/
theorem exec_answer (i : Instr) {s : State} {r : Response} (hp : s.phase = .await) (hr : s.rsp = some r)
    (hm : usesCount i = true → 1 ≤ s.scratch.m.toNat) (hk : s.k < callCount s.scratch.m.toNat i) :
    ∃ t, exec i s = .next t ∧
    ((r.err = true ∧ t = s.raiseError .underlyingCipherFailure)
    ∨ (r.err = false ∧ s.k + 1 = callCount s.scratch.m.toNat i ∧ ∃ m, t = { s with mem := m }.complete
        ∧ (usesCount i = false ∨ s.scratch.m.toNat ≤ 128 → Memory.wf s.mem → Memory.wf m)
        ∧ (usesCount i = true → ∀ a < 0x1800, ({ s with mem := m } : State).byteAt a = s.byteAt a))
    ∨ (r.err = false ∧ s.k + 1 < callCount s.scratch.m.toNat i
        ∧ ∃ c dir x, t = { s with scratch := c }.cipherCall (s.k + 1) dir x ∧ c.cur = s.scratch.cur
          ∧ c.m = s.scratch.m)) := by
  obtain ⟨err, y⟩ := r
  cases err with
  | true =>
    cases i with
    | nop => simp [callCount] at hk
    | dbl d a => simp [callCount] at hk
    | xor d a b => simp [callCount] at hk
    | bce d a => exact ⟨_, withCalls_failure hp hr _ _, .inl ⟨rfl, rfl⟩⟩
    | bcd d a => exact ⟨_, withCalls_failure hp hr _ _, .inl ⟨rfl, rfl⟩⟩
    | ltgen => exact ⟨_, withCalls_failure hp hr _ _, .inl ⟨rfl, rfl⟩⟩
    | emee => exact ⟨_, withCalls_failure hp hr _ _, .inl ⟨rfl, rfl⟩⟩
    | emed => exact ⟨_, withCalls_failure hp hr _ _, .inl ⟨rfl, rfl⟩⟩
  | false =>
    have eme : ∀ dir, i = .emee ∨ i = .emed → s.k < 2 * s.scratch.m.toNat + 2 →
        (false = true ∧ emeAnswered dir y s = s.raiseError .underlyingCipherFailure)
        ∨ (false = false ∧ s.k + 1 = callCount s.scratch.m.toNat i ∧ ∃ m, emeAnswered dir y s = { s with mem := m }.complete
          ∧ (usesCount i = false ∨ s.scratch.m.toNat ≤ 128 → Memory.wf s.mem → Memory.wf m)
          ∧ (usesCount i = true → ∀ a < 0x1800, ({ s with mem := m } : State).byteAt a = s.byteAt a))
        ∨ (false = false ∧ s.k + 1 < callCount s.scratch.m.toNat i
          ∧ ∃ c dir' x, emeAnswered dir y s = { s with scratch := c }.cipherCall (s.k + 1) dir' x
            ∧ c.cur = s.scratch.cur ∧ c.m = s.scratch.m) := by
      intro dir hi hk
      rcases emeAnswered_cases dir y (hm (by rcases hi with rfl | rfl <;> rfl)) hk with ⟨h1, m, e, h2, h3⟩ | ⟨h1, c, x, e, h2, h3⟩
      · refine .inr (.inl ⟨rfl, ?_, m, e, fun h => h2 ?_, fun _ => h3⟩)
        · rcases hi with rfl | rfl <;> exact h1
        · rcases h with h | h
          · rcases hi with rfl | rfl <;> simp [usesCount] at h
          · exact h
      · refine .inr (.inr ⟨rfl, ?_, c, dir, x, e, h2, h3⟩)
        rcases hi with rfl | rfl <;> exact h1
    cases i with
    | nop => simp [callCount] at hk
    | dbl d a => simp [callCount] at hk
    | xor d a b => simp [callCount] at hk
    | bce d a =>
      exact ⟨_, withCalls_answer hp hr _ _, .inr (.inl ⟨rfl, by simp only [callCount] at hk ⊢; omega, (s.putBlk d y).mem,
        congrArg State.complete (s.putBlock_memory (blkOffset d) y), fun _ h => State.putBlk_wf h d y, by simp [usesCount]⟩)⟩
    | bcd d a =>
      exact ⟨_, withCalls_answer hp hr _ _, .inr (.inl ⟨rfl, by simp only [callCount] at hk ⊢; omega, (s.putBlk d y).mem,
        congrArg State.complete (s.putBlock_memory (blkOffset d) y), fun _ h => State.putBlk_wf h d y, by simp [usesCount]⟩)⟩
    | ltgen =>
      obtain ⟨m, e, h2, h3⟩ := commitOut_completes (s := s) (u := s.genL y) rfl s.scratch.m.toNat (s.genL y).scratch.ltAt
      refine ⟨_, withCalls_answer hp hr _ _, .inr (.inl ⟨rfl, by simp only [callCount] at hk ⊢; omega, m, e, fun h => h2 ?_,
        fun _ => h3⟩)⟩
      rcases h with h | h
      · simp [usesCount] at h
      · exact h
    | emee => exact ⟨_, withCalls_answer hp hr _ _, eme .enc (.inl rfl) hk⟩
    | emed => exact ⟨_, withCalls_answer hp hr _ _, eme .dec (.inr rfl) hk⟩

/-! ## A step by its event -/

/-- What a step can be: the state after a host access, an EXEC step, an accept of the request, a response step, a change
on a pin, or nothing but the event taken. -/
theorem step_cases {s t : State} (h : step s = .next t) :
    (∃ x, s.nextEvent = .host x ∧ t = s.afterEvent.hostAccess x)
    ∨ (s.nextEvent = .sequencer ∧ s.rstN = true ∧ s.phase = .exec ∧ legal s.lastcmd = true
        ∧ ∃ i, s.currentCommand = some i ∧ exec i s.afterEvent = .next t)
    ∨ (s.nextEvent = .sequencer ∧ s.rstN = true ∧ s.phase = .exec
        ∧ (legal s.lastcmd = true → s.currentCommand = none) ∧ t = s.afterEvent.raiseError .illegalCommand)
    ∨ (s.nextEvent = .reqReady ∧ s.rstN = true ∧ s.phase = .issue
        ∧ t = { s.afterEvent with calls := s.afterEvent.calls + 1, phase := .await })
    ∨ (∃ r i u, s.nextEvent = .rsp r ∧ s.rstN = true ∧ s.phase = .await ∧ s.currentCommand = some i
        ∧ exec i { s.afterEvent with rsp := some r } = .next u ∧ t = { u with rsp := none })
    ∨ (∃ v, s.nextEvent = .blockSize v ∧ t = { s.afterEvent with bcBlockSize := v })
    ∨ (s.nextEvent = .resetLow ∧ s.rstN = true ∧ t = { s.afterEvent.resetRegisters with rstN := false })
    ∨ (s.nextEvent = .resetHigh ∧ s.rstN = false ∧ t = { s.afterEvent.resetRegisters with rstN := true })
    ∨ ((∀ x, s.nextEvent ≠ .host x) ∧ t = s.afterEvent) := by
  unfold step at h
  cases he : s.nextEvent with
  | host x =>
    rw [he] at h
    cases h
    exact .inl ⟨x, rfl, rfl⟩
  | sequencer =>
    simp only [he, react, afterEvent_rstN] at h
    split at h
    · rename_i hr
      rcases execStep_cases s.afterEvent with ⟨hp, i, hc, hl, e⟩ | ⟨hp, hc, e⟩ | ⟨hp, e⟩ <;> rw [e] at h
      · exact .inr (.inl ⟨rfl, hr, by simpa using hp, by simpa using hl, i, by simpa using hc, h⟩)
      · cases h
        exact .inr (.inr (.inl ⟨rfl, hr, by simpa using hp, by simpa using hc, rfl⟩))
      · cases h
        exact .inr (.inr (.inr (.inr (.inr (.inr (.inr (.inr ⟨nofun, rfl⟩)))))))
    · cases h
      exact .inr (.inr (.inr (.inr (.inr (.inr (.inr (.inr ⟨nofun, rfl⟩)))))))
  | reqReady =>
    simp only [he, react, afterEvent_rstN] at h
    split at h
    · rename_i hr
      unfold State.requestAccepted at h
      split at h
      · rename_i hp
        cases h
        exact .inr (.inr (.inr (.inl ⟨rfl, hr, by simpa using hp, rfl⟩)))
      · cases h
        exact .inr (.inr (.inr (.inr (.inr (.inr (.inr (.inr ⟨nofun, rfl⟩)))))))
    · cases h
      exact .inr (.inr (.inr (.inr (.inr (.inr (.inr (.inr ⟨nofun, rfl⟩)))))))
  | rsp r =>
    simp only [he, react, afterEvent_rstN] at h
    split at h
    · rename_i hr
      rcases responseStep_cases r s.afterEvent with ⟨hp, i, hc, e⟩ | ⟨_, e⟩ <;> rw [e] at h
      · obtain ⟨u, hu, _⟩ := exec_progress i { s.afterEvent with rsp := some r }
        rw [hu] at h
        cases h
        exact .inr (.inr (.inr (.inr (.inl ⟨r, i, u, rfl, hr, by simpa using hp, by simpa using hc, hu, rfl⟩))))
      · cases h
        exact .inr (.inr (.inr (.inr (.inr (.inr (.inr (.inr ⟨nofun, rfl⟩)))))))
    · cases h
      exact .inr (.inr (.inr (.inr (.inr (.inr (.inr (.inr ⟨nofun, rfl⟩)))))))
  | blockSize v =>
    rw [he] at h
    cases h
    exact .inr (.inr (.inr (.inr (.inr (.inl ⟨v, rfl, rfl⟩)))))
  | resetLow =>
    simp only [he, react, State.setReset, afterEvent_rstN] at h
    split at h
    · cases h
      exact .inr (.inr (.inr (.inr (.inr (.inr (.inr (.inr ⟨nofun, rfl⟩)))))))
    · rename_i hr
      cases h
      exact .inr (.inr (.inr (.inr (.inr (.inr (.inl ⟨rfl, by simpa using Ne.symm hr, rfl⟩))))))
  | resetHigh =>
    simp only [he, react, State.setReset, afterEvent_rstN] at h
    split at h
    · cases h
      exact .inr (.inr (.inr (.inr (.inr (.inr (.inr (.inr ⟨nofun, rfl⟩)))))))
    · rename_i hr
      cases h
      exact .inr (.inr (.inr (.inr (.inr (.inr (.inr (.inl ⟨rfl, by simpa using Ne.symm hr, rfl⟩)))))))
  | quiet =>
    rw [he] at h
    cases h
    exact .inr (.inr (.inr (.inr (.inr (.inr (.inr (.inr ⟨nofun, rfl⟩)))))))

end Sys2Proof.Machine
end

