-- ==== Sys2Proof/Laws/Window.lean ====
section
/-! SUPPORT. What a host access can do to the state, said once. -/

namespace Sys2Proof.Machine

/-- The legal accesses are the aligned ones of 32 bits (R83). -/
theorem HostAccess.legal_iff (x : HostAccess) : x.legal = true ↔ x.size = 2 ∧ x.addr.toNat % 4 = 0 := by
  have h : x.addr.extractLsb' 0 2 = 0 ↔ x.addr.toNat % 4 = 0 := by
    rw [← BitVec.toNat_inj]
    simp
  simp only [HostAccess.legal, Bool.and_eq_true, beq_iff_eq, h]

/-- The effect of a write at an aligned offset. -/
inductive WriteEffect (s : State) (a : Offset) (v : Word) : State → Prop where
  | ignored : WriteEffect s a v s
  | ctrl : a = 0x004 → WriteEffect s a v (s.writeCtrl v)
  | status : a = 0x008 → WriteEffect s a v (s.writeStatus v)
  | dropped : s.busy = true →
      a.toNat = 0x00C ∨ a.toNat = 0x010 ∨ a.toNat = 0x014 ∨ (0x020 ≤ a.toNat ∧ a.toNat < 0x030)
        ∨ (0x1000 ≤ a.toNat ∧ a.toNat < 0x1800) →
      WriteEffect s a v { s with ovr := true }
  | accepted : s.busy = false → a = 0x00C → WriteEffect s a v (s.accept v)
  | mlen : s.busy = false → WriteEffect s a v { s with mlen := v }
  | tlen : s.busy = false → WriteEffect s a v { s with tlen := v }
  | tweak (b : Block) : s.busy = false → WriteEffect s a v { s with tweak := b }
  | bytes : s.busy = false → 0x1000 ≤ a.toNat → a.toNat + 4 ≤ 0x1800 → WriteEffect s a v (s.putWord a.toNat v)

theorem State.writeWord_effect (s : State) {a : Offset} (v : Word) (h4 : a.toNat % 4 = 0) :
    WriteEffect s a v (s.writeWord a v) := by
  have eq_of : ∀ n, n < 0x2000 → a.toNat = n → a = BitVec.ofNat 13 n := fun n hn h => by
    apply BitVec.eq_of_toNat_eq
    rw [h, BitVec.toNat_ofNat, Nat.mod_eq_of_lt hn]
  have input : ∀ effect : State → State,
      (a.toNat = 0x00C ∨ a.toNat = 0x010 ∨ a.toNat = 0x014 ∨ (0x020 ≤ a.toNat ∧ a.toNat < 0x030)
        ∨ (0x1000 ≤ a.toNat ∧ a.toNat < 0x1800)) →
      (s.busy = false → WriteEffect s a v (effect s)) → WriteEffect s a v (s.unlessBusy effect) := by
    intro effect ha he
    unfold State.unlessBusy
    split
    · rename_i hb
      exact .dropped hb ha
    · rename_i hb
      exact he (by simpa using hb)
  unfold State.writeWord regionOf
  by_cases h1 : a.toNat < 0x004
  · simp only [h1, if_true]; exact .ignored
  by_cases h2 : a.toNat < 0x008
  · simp only [h1, h2, if_true, if_false]; exact .ctrl (eq_of 0x004 (by decide) (by omega))
  by_cases h3 : a.toNat < 0x00C
  · simp only [h1, h2, h3, if_true, if_false]; exact .status (eq_of 0x008 (by decide) (by omega))
  by_cases h4' : a.toNat < 0x010
  · simp only [h1, h2, h3, h4', if_true, if_false]
    exact input _ (by omega) fun hb => .accepted hb (eq_of 0x00C (by decide) (by omega))
  by_cases h5 : a.toNat < 0x014
  · simp only [h1, h2, h3, h4', h5, if_true, if_false]; exact input _ (by omega) .mlen
  by_cases h6 : a.toNat < 0x018
  · simp only [h1, h2, h3, h4', h5, h6, if_true, if_false]; exact input _ (by omega) .tlen
  by_cases h7 : a.toNat < 0x01C
  · simp only [h1, h2, h3, h4', h5, h6, h7, if_true, if_false]; exact .ignored
  by_cases h8 : a.toNat < 0x020
  · simp only [h1, h2, h3, h4', h5, h6, h7, h8, if_true, if_false]; exact .ignored
  by_cases h9 : a.toNat < 0x030
  · simp only [h1, h2, h3, h4', h5, h6, h7, h8, h9, if_true, if_false]; exact input _ (by omega) (.tweak _)
  by_cases h10 : a.toNat < 0x1000
  · simp only [h1, h2, h3, h4', h5, h6, h7, h8, h9, h10, if_true, if_false]; exact .ignored
  by_cases h11 : a.toNat < 0x1800
  · simp only [h1, h2, h3, h4', h5, h6, h7, h8, h9, h10, h11, if_true, if_false]
    exact input _ (by omega) fun hb => .bytes hb (by omega) (by omega)
  · simp only [h1, h2, h3, h4', h5, h6, h7, h8, h9, h10, h11, if_false]; exact .ignored

/-- An access made in reset changes nothing but the answer, a bus error, and the count of draws. -/
theorem State.accessInReset_eq (s : State) (x : HostAccess) :
    ∃ r n, s.accessInReset x = { s with hAnswer := { rdata := r, err := true }, draws := n } := by
  unfold State.accessInReset
  split
  · rename_i h
    exact ⟨(s.answerTo x).rdata, s.draws, by rw [← h]⟩
  · exact ⟨_, _, rfl⟩

/-- A host access changes the answer (and in reset the count of draws) alone, or out of reset is a legal write with its
effect. -/
theorem State.hostAccess_cases (s : State) (x : HostAccess) :
    s.hostAccess x = { s with hAnswer := (s.hostAccess x).hAnswer, draws := (s.hostAccess x).draws }
    ∨ (s.rstN = true ∧ x.legal = true ∧ x.write = true ∧ ∃ u, WriteEffect s x.addr x.wdata u
      ∧ s.hostAccess x = { u with hAnswer := (s.hostAccess x).hAnswer }) := by
  unfold State.hostAccess
  by_cases hr : s.rstN = true
  · rw [if_pos hr]
    by_cases hw : (x.legal && x.write) = true
    · rw [if_pos hw]
      obtain ⟨hl, hw⟩ := Bool.and_eq_true_iff.1 hw
      exact .inr ⟨hr, hl, hw, _, s.writeWord_effect _ (x.legal_iff.1 hl).2, rfl⟩
    · rw [if_neg hw]
      exact .inl rfl
  · rw [if_neg hr]
    obtain ⟨r, n, h⟩ := s.accessInReset_eq x
    exact .inl (by rw [h])

/-- While BUSY = 1 a host access changes the answer, IRQ_EN, DONE (to 0), OVR and the count of draws alone. -/
theorem State.hostAccess_busy {s : State} (hb : s.busy = true) (x : HostAccess) :
    s.hostAccess x = { s with
      irqEn := (s.hostAccess x).irqEn
      done := (s.hostAccess x).done
      ovr := (s.hostAccess x).ovr
      hAnswer := (s.hostAccess x).hAnswer
      draws := (s.hostAccess x).draws }
    ∧ (s.done = false → (s.hostAccess x).done = false) := by
  rcases s.hostAccess_cases x with h | ⟨_, _, _, u, hu, h⟩
  · rw [h]; exact ⟨rfl, id⟩
  · have idle : s.busy ≠ false := by rw [hb]; decide
    cases hu with
    | ignored => rw [h]; exact ⟨rfl, id⟩
    | ctrl _ => rw [h]; exact ⟨rfl, id⟩
    | status _ => rw [h]; exact ⟨rfl, fun hd => by simp [State.writeStatus, hd]⟩
    | dropped _ _ => rw [h]; exact ⟨rfl, id⟩
    | accepted hn _ => exact absurd hn idle
    | mlen hn => exact absurd hn idle
    | tlen hn => exact absurd hn idle
    | tweak _ hn => exact absurd hn idle
    | bytes hn _ _ => exact absurd hn idle

end Sys2Proof.Machine
end

