-- ==== Sys2Proof/Tests/Slice0.lean ====
section
/-! SUPPORT. The model's own tests, on values written out in spec/ (95_test_vectors.md unless a comment says otherwise), each
one step; and for every obligation with hypotheses a witness, a concrete state and operands that meet all of them. -/

namespace Sys2Proof.Tests

open Sys2Proof.Machine

/-! ## Helpers -/

/-- A block from its 32 hex digits as the spec writes them, byte 0 first (95_test_vectors.md section 1). -/
def bytes (n : Nat) : Block := blockOf fun k => BitVec.ofNat 8 (n / 256 ^ (15 - k))

/-- The state after reset with command `i` accepted: its EXEC step is next. -/
def accepted (i : Instr) : State := State.reset.accept (encode i)

/-- The same, the message length being `n` bytes. -/
def acceptedFor (n : Word) (i : Instr) : State := { State.reset with mlen := n }.accept (encode i)

/-- `s` in call number `k`, accepted, the block count being `m`, with answer `y` on the port. -/
def answering (s : State) (m : BitVec 8) (k : Nat) (y : Block) : State :=
  { s with
    scratch := { s.scratch with m := m }
    phase := .await, k := k, calls := BitVec.ofNat 32 (k + 1)
    rsp := some { err := false, data := y } }

/-- A property of the next state. -/
def after (o : Host.Outcome State Fault Refusal) (p : State → Bool) : Bool :=
  match o with
  | .next t => p t
  | .fault _ => false
  | .refused _ => false

/-! ## The assembler's checks, and illegal words -/

theorem test_in127_is_well_formed : (BlockName.inp 127).wellFormed = true ∧ (BlockName.inp 127).addr = 0x7F := by decide
theorem test_in128_is_refused : (BlockName.inp 128).wellFormed = false := by decide
theorem test_out127_is_well_formed : (BlockName.out 127).wellFormed = true ∧ (BlockName.out 127).addr = 0xFF := by decide
theorem test_out128_is_refused : (BlockName.out 128).wellFormed = false := by decide
theorem test_raw_100_is_refused : (BlockName.raw 0xFF).wellFormed = true ∧ (BlockName.raw 0x100).wellFormed = false := by
  decide
theorem test_each_operand_is_checked :
    (AsmCommand.dbl (.inp 128) (.inp 0)).lower = none ∧ (AsmCommand.dbl (.inp 0) (.out 128)).lower = none
    ∧ (AsmCommand.xor (.inp 128) (.inp 0) (.inp 0)).lower = none
    ∧ (AsmCommand.xor (.inp 0) (.inp 128) (.inp 0)).lower = none
    ∧ (AsmCommand.xor (.inp 0) (.inp 0) (.inp 128)).lower = none
    ∧ (AsmCommand.bce (.out 128) (.inp 0)).lower = none ∧ (AsmCommand.bce (.inp 0) (.raw 0x100)).lower = none
    ∧ (AsmCommand.bcd (.out 128) (.inp 0)).lower = none ∧ (AsmCommand.bcd (.inp 0) (.inp 128)).lower = none
    ∧ (AsmCommand.clr (.out 128)).lower = none := by decide

/-- Section 3's illegal words, one or two for each clause of R117. -/
theorem test_illegal_words :
    [0x08, 0x0F, 0x10, 0x80, 0x100, 0x10000, 0x1000000, 0x01000001, 0x01000003, 0x01000004, 0x00100005, 0x16].all
      (fun w => !legal (BitVec.ofNat 32 w)) = true := by decide

/-! ## Words written out field by field (R110: SRCB, SRCA, DST, RSV, OP) -/

theorem test_decode_nop : decode 0b00000000_00000000_00000000_0000_0000 = .ok .nop := by decide
theorem test_decode_dbl : decode 0b00000000_10000000_10000001_0000_0001 = .ok (.dbl 0x81 0x80) := by decide
theorem test_decode_xor : decode 0b00000101_10000000_10000010_0000_0010 = .ok (.xor 0x82 0x80 0x05) := by decide
theorem test_decode_bce : decode 0b00000000_00000000_10000000_0000_0011 = .ok (.bce 0x80 0x00) := by decide
theorem test_decode_bcd : decode 0b00000000_10000000_10000001_0000_0100 = .ok (.bcd 0x81 0x80) := by decide
theorem test_decode_ltgen : decode 0b00000000_00000000_00000000_0000_0101 = .ok .ltgen := by decide
theorem test_decode_emee : decode 0b00000000_00000000_00000000_0000_0110 = .ok .emee := by decide
theorem test_decode_emed : decode 0b00000000_00000000_00000000_0000_0111 = .ok .emed := by decide

/-- `CLR OUT127` and `XOR IN0, IN0, OUT127` of section 3. -/
theorem test_encode_clr_and_xor :
    (AsmCommand.clr (.out 127)).lower.map encode = some 0xFFFFFF02
    ∧ (AsmCommand.xor (.inp 0) (.inp 0) (.out 127)).lower.map encode = some 0xFF000002 := by decide

/-- Every row of the opcode table is read by number and is run by the step after it is placed: NOP, DBL and XOR complete,
BCE and BCD send their request, LTGEN, EMEE and EMED stop at MLEN = 0 with code 3 (section 8.3, L1). -/
theorem test_placed_words_run :
    [(0x00, 0x006), (0x01, 0x006), (0x02, 0x006), (0x03, 0x001), (0x04, 0x001), (0x05, 0x302), (0x06, 0x302),
      (0x07, 0x302)].all (fun p => (decodeTableWord 32 p.1).isSome
        && after (step (State.reset.withFetchWord 32 p.1)) fun t => t.statusWord == BitVec.ofNat 32 p.2) = true := by
  decide

/-! ## The commands, one step each -/

/-- N2: NOP after an error leaves STATUS = 6. -/
theorem test_nop_clears_an_error :
    after (exec .nop ({ State.reset with done := true, errcode := .invalidMessageLength }.accept 0))
      (fun t => t.statusWord == 6 && t.calls == 0) = true := by decide

/-- D8, in place: the carry out of every byte, reduced into byte 0. -/
theorem test_dbl_all_ones :
    after (exec (.dbl 0x00 0x00) ((State.reset.putBlk 0x00 (bytes 0xffffffffffffffffffffffffffffffff)).accept 0x00000001))
      (fun t => t.blk 0x00 == bytes 0x79ffffffffffffffffffffffffffffff && t.statusWord == 6) = true := by decide

/-- D4, D7 and D10. -/
theorem test_double_corners :
    double (bytes 0x00000000000000000000000000000080) = bytes 0x87000000000000000000000000000000
    ∧ double (bytes 0x80000000000000000000000000000080) = bytes 0x87010000000000000000000000000000
    ∧ double (bytes 0x000102030405060708090a0b0c0d0e0f) = bytes 0x00020406080a0c0e10121416181a1c1e := by decide

/-- X2, with the destination one of the sources. -/
theorem test_xor_complement :
    after (exec (.xor 0x01 0x00 0x01)
        (((State.reset.putBlk 0x00 (bytes 0xffffffffffffffffffffffffffffffff)).putBlk 0x01
          (bytes 0x000102030405060708090a0b0c0d0e0f)).accept 0x01000102))
      (fun t => t.blk 0x01 == bytes 0xfffefdfcfbfaf9f8f7f6f5f4f3f2f1f0 && t.statusWord == 6) = true := by decide

/-- B2, the request. -/
theorem test_bce_request :
    after (exec (.bce 0x80 0x00) ((State.reset.putBlk 0x00 (bytes 0x000102030405060708090a0b0c0d0e0f)).accept 0x00008003))
      (fun t => t.bcReqValid && !t.bcReqDir && t.bcReqData == bytes 0x000102030405060708090a0b0c0d0e0f && t.statusWord == 1)
      = true := by decide

/-- B2, the answer. -/
theorem test_bce_answer :
    after (exec (.bce 0x80 0x00) (answering (accepted (.bce 0x80 0x00)) 0 0 (bytes 0xf1f3f1f7f1f3f1fff1f3f1f7f1f3f1ff)))
      (fun t => t.outBlock 0 == bytes 0xf1f3f1f7f1f3f1fff1f3f1f7f1f3f1ff && t.statusWord == 6 && t.calls == 1) = true := by
  decide

/-- B3, the request, in the DEC direction. -/
theorem test_bcd_request :
    after (exec (.bcd 0x81 0x80) ((State.reset.putBlk 0x80 (bytes 0xf1f3f1f7f1f3f1fff1f3f1f7f1f3f1ff)).accept 0x00808104))
      (fun t => t.bcReqValid && t.bcReqDir && t.bcReqData == bytes 0xf1f3f1f7f1f3f1fff1f3f1f7f1f3f1ff) = true := by decide

/-- B7: a block size of 272. -/
theorem test_bcd_block_size_272 :
    after (exec (.bcd 0x81 0x80) ({ State.reset with bcBlockSize := 272 }.accept 0x00808104))
      (fun t => t.statusWord == 0x102 && t.calls == 0 && !t.bcReqValid) = true := by decide

/-- Section 8.1: LT[3] published by LTGEN, from E0 of MOCK-K with MLEN = 64. -/
theorem test_ltgen_answer :
    after (exec .ltgen (answering (acceptedFor 64 .ltgen) 4 0 (bytes 0xf0f1f2f3f4f5f6f7f8f9fafbfcfdfeff)))
      (fun t => t.outBlock 3 == bytes 0xad182f3f4f5f6f7f8f9fafbfcfdfefff && t.statusWord == 6) = true := by
  decide +kernel

/-- L2: MLEN = 17. -/
theorem test_ltgen_length_17 :
    after (exec .ltgen (acceptedFor 17 .ltgen)) (fun t => t.statusWord == 0x302 && t.calls == 0) = true := by decide

/-- V-EME-M3, call 3: the fold's answer gives W[1], the closure and the request of call 4. -/
def foldOfM3 : State :=
  let s := answering { acceptedFor 32 .emee with tweak := bytes 0x0f0e0d0c0b0a09080706050403020100 } 2 3
    (bytes 0xd2d7c0c1cecbe4edeaeff8f9f6f3d0d4)
  { s with
    scratch := { s.scratch with
      w := [(0, bytes 0x1314151a1f1819060b0c0d0207000198), (1, bytes 0x37383e2426282e1c16181e0406080eb6)]
      mp := bytes 0x2b222632323a3e121a121602020a0e2e } }

theorem test_emee_fold_answer :
    after (exec .emee foldOfM3)
      (fun t => t.bcReqData == bytes 0x9f0a3e0e1a0a76061a0a3e0e1a0a6297 && t.k == 4 && !t.bcReqDir
        && t.scratch.wAt 1 == bytes 0x42d3f3c3dfcb9be3f7e3c3f3effbb343) = true := by
  decide +kernel

/-- V-EME-M4, call 5: the last answer commits both blocks. -/
def lastOfM4 : State :=
  let s := answering (acceptedFor 32 .emed) 2 5 (bytes 0x1996e9353f2c17322128431605142f0a)
  { s with
    scratch := { s.scratch with
      lt := [(0, bytes 0x67e3e5e7e9ebedeff1f3f5f7f9fbfdff), (1, bytes 0x49c6cbcfd3d7dbdfe3e7ebeff3f7fbff)]
      w := [(0, bytes 0x808df20e011f24151e1378011a073c0d)] } }

theorem test_emed_last_answer :
    after (exec .emed lastOfM4)
      (fun t => t.outBlock 0 == bytes 0x808df20e011f24151e1378011a073c0d
        && t.outBlock 1 == bytes 0x505022faecfbccedc2cfa8f9f6e3d4f5 && t.statusWord == 6 && t.calls == 6) = true := by
  decide +kernel

/-- R222: EMED, too, sends the zero block in the ENC direction first. -/
theorem test_emed_first_request :
    after (exec .emed (acceptedFor 16 .emed)) (fun t => t.bcReqValid && !t.bcReqDir && t.bcReqData == 0) = true := by decide

/-! ## The window, one access each -/

/-- Section 1: the words of block `000102..0f`, at IN0, are stored and read little-endian. -/
theorem test_words_are_little_endian :
    ((State.reset.hostAccess { write := true, size := 2, addr := 0x1004, wdata := 0x07060504 }).byteAt 0x1004,
      ((State.reset.putBlk 0x00 (bytes 0x000102030405060708090a0b0c0d0e0f)).hostAccess
        { write := false, size := 2, addr := 0x100C, wdata := 0 }).hAnswer)
      = (0x04, { rdata := 0x0f0e0d0c, err := false }) := by decide

/-- Program P3: the read of offset 0x030 is a bus error and reads 0. -/
theorem test_reserved_offset_is_a_bus_error :
    (State.reset.hostAccess { write := false, size := 2, addr := 0x030, wdata := 0 }).hAnswer
      = { rdata := 0, err := true } := by decide

/-- R280: a write of CMD in reset is answered with an error and is not accepted. -/
theorem test_write_in_reset :
    ({ State.reset with rstN := false }.hostAccess { write := true, size := 2, addr := 0x00C, wdata := 0 }).hAnswer.err = true
    ∧ ({ State.reset with rstN := false }.hostAccess { write := true, size := 2, addr := 0x00C, wdata := 0 }).busy = false := by
  decide

/-- Program P5, step 3: MLEN written while busy is dropped, and STATUS then reads 9 (step 10). -/
theorem test_write_while_busy_sets_ovr :
    ((acceptedFor 32 .emee).hostAccess { write := true, size := 2, addr := 0x010, wdata := 16 }).mlen = 32
    ∧ ((acceptedFor 32 .emee).hostAccess { write := true, size := 2, addr := 0x010, wdata := 16 }).statusWord = 9 := by
  decide

/-! ## Witnesses: for each obligation with hypotheses, a state and operands that meet them all -/

/-- BCE OUT0, IN0 in its EXEC step, in its call's ISSUE, and in its AWAIT with no response yet. -/
def bceExec : State := accepted (.bce 0x80 0x00)
def bceIssue : State := { bceExec with phase := .issue }
def bceAwait : State := { bceExec with phase := .await, calls := 1 }

theorem inv_bceExec : MachineInv bceExec where
  memory := by decide
  busy := by decide
  running := by decide
  atExec := by decide
  atIssue := nofun
  atAwait := nofun
  noCode4 := by decide
  validHasNoError := by decide
  calls := by decide
  index := by decide
  inReset := nofun
  noResponse := rfl

theorem inv_bceIssue : MachineInv bceIssue where
  memory := by decide
  busy := by decide
  running := by decide
  atExec := nofun
  atIssue := fun _ => ⟨rfl, .bce 0x80 0x00, ⟨by decide, by decide, nofun⟩⟩
  atAwait := nofun
  noCode4 := by decide
  validHasNoError := by decide
  calls := by decide
  index := by decide
  inReset := nofun
  noResponse := rfl

theorem inv_bceAwait : MachineInv bceAwait where
  memory := by decide
  busy := by decide
  running := by decide
  atExec := nofun
  atIssue := nofun
  atAwait := fun _ => ⟨rfl, .bce 0x80 0x00, ⟨by decide, by decide, nofun⟩⟩
  noCode4 := by decide
  validHasNoError := by decide
  calls := by decide
  index := by decide
  inReset := nofun
  noResponse := rfl

/-- An idle state, after a command that failed. -/
def idleState : State := { State.reset with done := true, errcode := .invalidBlockSize, lastcmd := 0x00008003 }

theorem inv_idleState : MachineInv idleState where
  memory := by decide
  busy := by decide
  running := by decide
  atExec := by decide
  atIssue := nofun
  atAwait := nofun
  noCode4 := by decide
  validHasNoError := by decide
  calls := by decide
  index := by decide
  inReset := nofun
  noResponse := rfl

/-- A block held in reset. -/
def heldInReset : State := { State.reset with rstN := false }

theorem inv_heldInReset : MachineInv heldInReset where
  memory := by decide
  busy := by decide
  running := by decide
  atExec := by decide
  atIssue := nofun
  atAwait := nofun
  noCode4 := by decide
  validHasNoError := by decide
  calls := by decide
  index := by decide
  inReset := by decide
  noResponse := rfl

/-- The invariant says nothing of the list of events. -/
theorem inv_inputs {s : State} (h : MachineInv s) (l : List Event) : MachineInv { s with inputs := l } :=
  ⟨h.memory, h.busy, h.running, h.atExec,
    fun hp => ⟨(h.atIssue hp).1, (h.atIssue hp).2.imp fun _ g => ⟨g.command, g.index, g.count⟩⟩,
    fun hp => ⟨(h.atAwait hp).1, (h.atAwait hp).2.imp fun _ g => ⟨g.command, g.index, g.count⟩⟩,
    h.noCode4, h.validHasNoError, h.calls, h.index, h.inReset, h.noResponse⟩

/-- EMEE and EMED of one block, with the block and the tweak written, in their EXEC step. -/
def oneBlock (b : Block) : State := { State.reset with mlen := 16, tweak := bytes 0x0f }.putBlk 0x00 b
def emeExec (i : Instr) (b : Block) : State := (oneBlock b).accept (encode i)

theorem emeExec_accepted (i : Instr) (b : Block) : Accepted i (emeExec i b) :=
  ⟨(oneBlock b).accept_rstN _ |>.trans (State.putBlock_rstN _ _ _), rfl, rfl, rfl, rfl, rfl⟩

theorem emeExec_ready (i : Instr) (b : Block) : TransformReady 1 (emeExec i b) :=
  ⟨(oneBlock b).accept_bcBlockSize _ |>.trans (State.putBlock_bcBlockSize _ _ _),
    (oneBlock b).accept_tlen _ |>.trans (State.putBlock_tlen _ _ _),
    congrArg BitVec.toNat ((oneBlock b).accept_mlen _ |>.trans (State.putBlock_mlen _ _ _)), Nat.le_refl _, by decide⟩

/-- A next state with a property, from a computed check. -/
theorem next_of_after {o : Host.Outcome State Fault Refusal} {p : State → Bool} (h : after o p = true) :
    ∃ t, o = .next t ∧ p t = true := by
  cases o with
  | next t => exact ⟨t, rfl, h⟩
  | fault r => cases h
  | refused r => cases h

/-- A word that decodes and one that is legal; and an operand of each kind. -/
theorem witness_DecodeAndEncodeAgree : decode 0x05808202 = .ok (.xor 0x82 0x80 0x05) := by decide

theorem witness_StepRunsTheDecodedCommand :
    let s := { bceExec with inputs := [.sequencer] }
    s.rstN = true ∧ s.phase = .exec ∧ s.nextEvent = .sequencer ∧ s.scratch.cur = latchedCommand s.lastcmd
      ∧ decode s.lastcmd = .ok (.bce 0x80 0x00) := by decide

theorem witness_ResponseStepResumesTheDecodedCommand :
    let s := { bceAwait with inputs := [.rsp ⟨false, 1⟩] }
    s.rstN = true ∧ s.phase = .await ∧ s.nextEvent = .rsp ⟨false, 1⟩ ∧ s.scratch.cur = latchedCommand s.lastcmd
      ∧ decode s.lastcmd = .ok (.bce 0x80 0x00) := by decide

theorem witness_PlacedWordIsRunNext : decodeTableWord 32 0x00808104 = some (.bcd 0x81 0x80) := by decide

theorem witness_IllegalWordEndsWithCode6 :
    let s := { State.reset.accept 0x01000003 with inputs := [.sequencer] }
    s.rstN = true ∧ s.phase = .exec ∧ s.nextEvent = .sequencer ∧ legal s.lastcmd = false := by decide

/-- The EXEC step of NOP, DBL and XOR; the sources equal; the ends of the block names. -/
theorem witness_NopCompletes_DblCompletes_XorCompletes :
    (accepted .nop).phase = .exec ∧ (accepted (.dbl 0xFF 0x7F)).phase = .exec
    ∧ (accepted (.xor 0x00 0x80 0x80)).phase = .exec ∧ (0x80 : BlockAddr) = 0x80
    ∧ (BlockName.inp 127).wellFormed = true ∧ (BlockName.out 0).wellFormed = true
    ∧ (BlockName.raw 0x80).wellFormed = true := by decide

theorem witness_BlockAddressesNameDistinctBlocks : (0 : Nat) < 128 ∧ 127 < 128 ∧ 0 < 16 ∧ 15 < 16 := by decide

theorem witness_DoubleFollowsTheByteProcedure : (1 ≤ 1 ∧ 1 ≤ 15) ∧ 1 ≤ 15 ∧ 15 ≤ 15 := by decide

theorem witness_SingleCallSendsItsRequest : bceExec.phase = .exec ∧ bceExec.bcBlockSize = 16 := by decide

theorem witness_SingleCallCompletes :
    let s := { bceAwait with rsp := some { err := false, data := 1 } }
    s.phase = .await ∧ s.rsp = some { err := false, data := 1 } := by decide

theorem witness_SingleCallRunsToItsEnd :
    (bceExec.bcBlockSize = 16 ∧ Accepted (.bce 0x80 0x00) bceExec)
    ∧ ((accepted (.bcd 0x81 0x80)).bcBlockSize = 16 ∧ Accepted (.bcd 0x81 0x80) (accepted (.bcd 0x81 0x80))) :=
  ⟨⟨rfl, rfl, rfl, rfl, rfl, rfl, rfl⟩, rfl, rfl, rfl, rfl, rfl, rfl, rfl⟩

/-- Block sizes 0, 15, 17 and 272, for a command of each kind. -/
theorem witness_WrongBlockSizeEndsWithCode1 :
    ∀ b ∈ [0, 15, 17, 272], { accepted .emed with bcBlockSize := BitVec.ofNat 16 b }.phase = .exec
      ∧ { accepted .emed with bcBlockSize := BitVec.ofNat 16 b }.bcBlockSize ≠ 16 := by decide

/-- Tweak lengths 0, 15, 17 and 0x00010010 fail (R257), 16 passes. -/
theorem witness_WrongTweakLengthEndsWithCode2 :
    (∀ n ∈ [0, 15, 17, 0x00010010],
      let s := { State.reset with tlen := BitVec.ofNat 32 n }.accept (encode .emee)
      s.phase = .exec ∧ s.bcBlockSize = 16 ∧ s.tlen.toNat ≠ 16)
    ∧ (accepted .emee).phase = .exec ∧ (accepted .emee).bcBlockSize = 16 ∧ (accepted .emee).tlen.toNat = 16 := by decide

/-- Message lengths 0, 15, 17, 2047, 2049, 2064 and 2^32 - 16 fail, 16 and 2048 pass. -/
theorem witness_WrongMessageLengthEndsWithCode3 :
    (∀ n ∈ [0, 15, 17, 2047, 2049, 2064, 4294967280],
      let s := acceptedFor (BitVec.ofNat 32 n) .ltgen
      s.phase = .exec ∧ s.bcBlockSize = 16
      ∧ (s.mlen.toNat % 16 ≠ 0 ∨ s.mlen.toNat / 16 = 0 ∨ s.mlen.toNat / 16 > 128) ∧ s.tlen = 16)
    ∧ ∀ m ∈ [1, 128],
      let s := acceptedFor (BitVec.ofNat 32 (16 * m)) .emee
      s.phase = .exec ∧ s.bcBlockSize = 16 ∧ 1 ≤ m ∧ m ≤ 128 ∧ s.mlen.toNat = 16 * m ∧ s.tlen = 16 := by decide

theorem witness_CipherFailureEndsWithCode5 :
    let s := { bceAwait with rsp := some { err := true, data := 1 } }
    s.phase = .await ∧ s.rsp = some { err := true, data := 1 } := by decide

/-- The least and the greatest block count. -/
theorem witness_TheZeroBlockIsEncryptedFirst :
    ∀ m ∈ [1, 128],
      let s := acceptedFor (BitVec.ofNat 32 (16 * m)) .emed
      s.phase = .exec ∧ s.bcBlockSize = 16 ∧ s.mlen.toNat = 16 * m ∧ 1 ≤ m ∧ m ≤ 128 ∧ s.tlen = 16 := by decide

theorem witness_LtgenCompletes :
    ∀ m ∈ [1, 128],
      let s := answering (acceptedFor (BitVec.ofNat 32 (16 * m)) .ltgen) (BitVec.ofNat 8 m) 0 1
      s.phase = .await ∧ s.rsp = some { err := false, data := 1 } ∧ 1 ≤ s.scratch.m.toNat ∧ s.scratch.m.toNat ≤ 128 := by
  decide

theorem witness_LtgenRunsToItsEnd :
    Accepted .ltgen (acceptedFor 2048 .ltgen) ∧ (acceptedFor 2048 .ltgen).bcBlockSize = 16
    ∧ (acceptedFor 2048 .ltgen).mlen.toNat = 16 * 128 :=
  ⟨⟨rfl, rfl, rfl, rfl, rfl, rfl⟩, rfl, rfl⟩

theorem witness_TableAnswerStartsPass1 :
    ∀ m ∈ [1, 128],
      let s := answering (acceptedFor (BitVec.ofNat 32 (16 * m)) .emee) (BitVec.ofNat 8 m) 0 1
      s.phase = .await ∧ s.rsp = some { err := false, data := 1 } ∧ s.k = 0 ∧ 1 ≤ s.scratch.m.toNat
      ∧ s.scratch.m.toNat ≤ 128 := by decide

/-- With two blocks, block 0 (another follows) and block 1 (the fold follows). -/
theorem witness_Pass1AnswerIsKeptAndGoesOn :
    ∀ j ∈ [0, 1],
      let s := answering (acceptedFor 32 .emee) 2 (1 + j) 1
      s.phase = .await ∧ s.rsp = some { err := false, data := 1 } ∧ s.k = 1 + j ∧ j < s.scratch.m.toNat
      ∧ (j + 1 < s.scratch.m.toNat ↔ j = 0) ∧ (j + 1 = s.scratch.m.toNat ↔ j = 1) := by decide

theorem witness_FoldAnswerMixesTheBlocks :
    foldOfM3.phase = .await ∧ foldOfM3.rsp = some { err := false, data := bytes 0xd2d7c0c1cecbe4edeaeff8f9f6f3d0d4 }
    ∧ 1 ≤ foldOfM3.scratch.m.toNat ∧ foldOfM3.k = foldOfM3.scratch.m.toNat + 1 := by decide

theorem witness_Pass3AnswerIsUnmixedAndGoesOn :
    let s := answering (acceptedFor 32 .emee) 2 4 1
    s.phase = .await ∧ s.rsp = some { err := false, data := 1 } ∧ s.k = s.scratch.m.toNat + 2 + 0
      ∧ 0 + 1 < s.scratch.m.toNat := by decide

theorem witness_LastAnswerCommitsAndCompletes :
    lastOfM4.phase = .await ∧ lastOfM4.rsp = some { err := false, data := bytes 0x1996e9353f2c17322128431605142f0a }
    ∧ 1 ≤ lastOfM4.scratch.m.toNat ∧ lastOfM4.scratch.m.toNat ≤ 128 ∧ lastOfM4.k = 2 * lastOfM4.scratch.m.toNat + 1 := by
  decide

theorem witness_TransformRunsToItsEnd :
    (Accepted .emee (emeExec .emee 1) ∧ TransformReady 1 (emeExec .emee 1))
    ∧ Accepted .emed (emeExec .emed 1) ∧ TransformReady 1 (emeExec .emed 1) :=
  ⟨⟨emeExec_accepted _ _, emeExec_ready _ _⟩, emeExec_accepted _ _, emeExec_ready _ _⟩

/-- A cipher for the witnesses of runs, whose two directions undo each other. -/
def xorCipher (_ : Dir) (x : Block) : Block := x ^^^ 0xF0

theorem xorCipher_undoes (d e : Dir) (x : Block) : xorCipher d (xorCipher e x) = x := by
  simp [xorCipher]

/-- A prompt run that ends is a run of the command. -/
theorem commandRun_of_promptRun {f : Dir → Block → Block} {s0 : State} (n : Nat) :
    ∀ s, CommandRun f s0 s → after (promptRun f n s) (fun t => !t.busy) = true →
      ∃ t, CommandRun f s0 t ∧ t.busy = false := by
  induction n with
  | zero => exact fun s hs h => ⟨s, hs, by simpa [agentRun, after] using h⟩
  | succ n ih =>
    intro s hs h
    cases hb : s.busy with
    | false => exact ⟨s, hs, hb⟩
    | true =>
      have hd : Dutiful f s (agentEvent f (fun _ => false) s) := by
        unfold agentEvent
        cases s.phase <;> simp [Dutiful]
      rw [promptRun, agentRun] at h
      cases hstep : stepWith (agentEvent f (fun _ => false) s) s with
      | next t =>
        rw [hstep] at h
        exact ih t (.more hs hb hd hstep) h
      | fault r => rw [hstep] at h; cases h
      | refused r => rw [hstep] at h; cases h

theorem inv_emeExec : MachineInv (emeExec .emee 1) where
  memory := by decide
  busy := by decide
  running := by decide
  atExec := by decide
  atIssue := nofun
  atAwait := nofun
  noCode4 := by decide
  validHasNoError := by decide
  calls := by decide
  index := by decide
  inReset := nofun
  noResponse := rfl

theorem witness_TransformsUndoEachOther : (∀ x, xorCipher .dec (xorCipher .enc x) = x) ∧ 127 < 128 :=
  ⟨xorCipher_undoes _ _, by decide⟩

/-- The same EXEC step with another scratch. -/
def dirty (s : State) : State := { s with scratch := { s.scratch with lw := 7 } }
def emeExecDirty : State := dirty (emeExec .emee 1)

theorem dirty_accepted {i : Instr} {s : State} (h : Accepted i s) : Accepted i (dirty s) :=
  ⟨h.rstN, h.phase, h.busy, h.command, h.latched, h.calls⟩

theorem dirty_ready {m : Nat} {i : Instr} {s : State} (h : CommandReady m i s) : CommandReady m i (dirty s) :=
  ⟨h.blockSize, h.tweak, h.length, h.positive, h.bounded⟩

theorem ready_of_transformReady {m : Nat} {i : Instr} {s : State} (h : TransformReady m s) : CommandReady m i s :=
  ⟨h.blockSize, fun _ => h.tweak, h.length, h.positive, h.bounded⟩

theorem emeExec_runs : after (promptRun xorCipher (1 + 2 * (2 * 1 + 2)) (emeExec .emee 1)) (fun t => !t.busy) = true := by
  decide +kernel

theorem emeExecDirty_runs : after (promptRun xorCipher (1 + 2 * (2 * 1 + 2)) emeExecDirty) (fun t => !t.busy) = true := by
  decide +kernel

theorem witness_TransformIsRightUnderEveryInterleaving :
    MachineInv (emeExec .emee 1) ∧ Accepted .emee (emeExec .emee 1) ∧ TransformReady 1 (emeExec .emee 1)
    ∧ ∃ t, CommandRun xorCipher (emeExec .emee 1) t ∧ t.busy = false :=
  ⟨inv_emeExec, emeExec_accepted _ _, emeExec_ready _ _, commandRun_of_promptRun _ _ .start emeExec_runs⟩

theorem witness_DecryptionRunUndoesEncryptionRun : ∃ s1 t1 s2,
    (∀ x, xorCipher .dec (xorCipher .enc x) = x) ∧ (∀ x, xorCipher .enc (xorCipher .dec x) = x)
    ∧ Accepted .emee s1 ∧ TransformReady 1 s1 ∧ promptRun xorCipher (1 + 2 * (2 * 1 + 2)) s1 = .next t1
    ∧ Accepted .emed s2 ∧ TransformReady 1 s2 ∧ s2.tweak = s1.tweak ∧ ∀ j < 1, s2.inBlock j = t1.outBlock j := by
  obtain ⟨t1, h, _⟩ := next_of_after emeExec_runs
  refine ⟨emeExec .emee 1, t1, emeExec .emed (t1.outBlock 0), xorCipher_undoes _ _, xorCipher_undoes _ _,
    emeExec_accepted _ _, emeExec_ready _ _, h, emeExec_accepted _ _, emeExec_ready _ _, ?_, fun j hj => ?_⟩
  · simp [emeExec, oneBlock]
  · obtain rfl : j = 0 := by omega
    rw [emeExec, State.accept_inBlock, State.inBlock, oneBlock, State.putBlk, show blkOffset 0x00 = inOffset 0 by decide]
    exact State.blockAt_putBlock_self _ _ _

/-- LTGEN of one block with TLEN = 15 and no tweak, and the same with another tweak. -/
def ltgenExec (tweak : Block) : State := { State.reset with mlen := 16, tlen := 15, tweak := tweak }.accept (encode .ltgen)

theorem ltgenExec_accepted (b : Block) : Accepted .ltgen (ltgenExec b) := ⟨rfl, rfl, rfl, rfl, rfl, rfl⟩

theorem ltgenExec_ready (b : Block) : CommandReady 1 .ltgen (ltgenExec b) :=
  ⟨rfl, fun h => absurd rfl h, rfl, Nat.le_refl _, by decide⟩

theorem ltgenExec_runs :
    after (promptRun xorCipher (1 + 2 * callCount 1 .ltgen) (ltgenExec 0)) (fun _ => true) = true
    ∧ after (promptRun xorCipher (1 + 2 * callCount 1 .ltgen) (ltgenExec 1)) (fun _ => true) = true := by
  decide +kernel

/-- Two states whose scratch differs, for EMEE; two whose tweak differs, for LTGEN. -/
theorem witness_NoHiddenStateEntersAResult :
    (∃ s s' t t', Accepted .emee s ∧ Accepted .emee s' ∧ CommandReady 1 .emee s ∧ CommandReady 1 .emee s'
      ∧ (Instr.emee ≠ .ltgen → s'.tweak = s.tweak ∧ ∀ j < 1, s'.inBlock j = s.inBlock j)
      ∧ promptRun xorCipher (1 + 2 * callCount 1 .emee) s = .next t
      ∧ promptRun xorCipher (1 + 2 * callCount 1 .emee) s' = .next t' ∧ s'.ovr = s.ovr ∧ s'.scratch.lw ≠ s.scratch.lw)
    ∧ ∃ s s' t t', Accepted .ltgen s ∧ Accepted .ltgen s' ∧ CommandReady 1 .ltgen s ∧ CommandReady 1 .ltgen s'
      ∧ (Instr.ltgen ≠ .ltgen → s'.tweak = s.tweak ∧ ∀ j < 1, s'.inBlock j = s.inBlock j)
      ∧ promptRun xorCipher (1 + 2 * callCount 1 .ltgen) s = .next t
      ∧ promptRun xorCipher (1 + 2 * callCount 1 .ltgen) s' = .next t' ∧ s'.ovr = s.ovr ∧ s'.tweak ≠ s.tweak := by
  obtain ⟨t, h, _⟩ := next_of_after emeExec_runs
  obtain ⟨t', h', _⟩ := next_of_after emeExecDirty_runs
  obtain ⟨u, g, _⟩ := next_of_after ltgenExec_runs.1
  obtain ⟨u', g', _⟩ := next_of_after ltgenExec_runs.2
  have ha := emeExec_accepted .emee 1
  have hr : CommandReady 1 .emee (emeExec .emee 1) := ready_of_transformReady (emeExec_ready .emee 1)
  have keep : ∀ s : State, (dirty s).tweak = s.tweak ∧ (∀ j, (dirty s).inBlock j = s.inBlock j) ∧ (dirty s).ovr = s.ovr :=
    fun s => ⟨rfl, fun _ => rfl, rfl⟩
  have hk := keep (emeExec .emee 1)
  exact ⟨⟨emeExec .emee 1, emeExecDirty, t, t', ha, dirty_accepted ha, hr, dirty_ready hr,
      fun _ => ⟨hk.1, fun j _ => hk.2.1 j⟩, h, h', hk.2.2, by decide⟩,
    ⟨ltgenExec 0, ltgenExec 1, u, u', ltgenExec_accepted _, ltgenExec_accepted _, ltgenExec_ready _, ltgenExec_ready _,
      fun h => absurd rfl h, g, g', rfl, by decide⟩⟩

/-- The first and the last call of EMEE for one block, and LTGEN's one call. -/
theorem witness_FailingCallEndsTheTransform :
    (∀ n ∈ [0, 3], Accepted .emee (emeExec .emee 1) ∧ CommandReady 1 .emee (emeExec .emee 1) ∧ n < callCount 1 .emee
      ∧ (fun k => k == n) n = true ∧ ∀ k < n, (fun k => k == n) k = false)
    ∧ Accepted .ltgen (ltgenExec 0) ∧ CommandReady 1 .ltgen (ltgenExec 0) ∧ 0 < callCount 1 .ltgen := by
  refine ⟨fun n hn => ⟨emeExec_accepted _ _, ready_of_transformReady (emeExec_ready _ _), ?_, by simp, ?_⟩,
    ltgenExec_accepted _, ltgenExec_ready _, by decide⟩
  · revert n; decide
  · intro k hk
    exact beq_false_of_ne (Nat.ne_of_lt hk)

/-- Idle and busy. -/
theorem witness_WriteToCmdAcceptsTheWord :
    let s1 := { State.reset with inputs := [hostWr 0x00C 0x08] }
    let s2 := { bceAwait with inputs := [hostWr 0x00C 0x08] }
    (s1.rstN = true ∧ s1.nextEvent = hostWr 0x00C 0x08 ∧ s1.busy = false)
    ∧ s2.rstN = true ∧ s2.nextEvent = hostWr 0x00C 0x08 ∧ s2.busy = true := by decide

/-- The first and the last offset of each region. -/
theorem witness_WritesToInputsAreDroppedWhileBusy :
    (bceExec.rstN = true ∧ bceExec.busy = true)
    ∧ ∀ a ∈ [0x00C, 0x010, 0x014, 0x020, 0x02C, 0x1000, 0x17FC],
      InputWrite { write := true, size := 2, addr := BitVec.ofNat 13 a, wdata := 1 } := by
  simp only [InputWrite]
  decide

/-- A byte access, a misaligned one at each end of the window, the ends of the reserved range. -/
theorem witness_BusErrorsChangeNothing :
    ∀ p ∈ [(0, 0x1000), (2, 0x001), (2, 0x1FFF), (2, 0x030), (2, 0xFFC)],
      let x : HostAccess := { write := true, size := BitVec.ofNat 2 p.1, addr := BitVec.ofNat 13 p.2, wdata := 1 }
      (x.size ≠ 2 ∨ x.addr.toNat % 4 ≠ 0 ∨ (0x030 ≤ x.addr.toNat ∧ x.addr.toNat < 0x1000)) := by decide

theorem witness_WritesToReadOnlyAreIgnored :
    ∀ a ∈ [0x000, 0x018, 0x01C, 0x1800, 0x1FFC],
      let x : HostAccess := { write := true, size := 2, addr := BitVec.ofNat 13 a, wdata := 1 }
      State.reset.rstN = true ∧ x.legal = true ∧ x.write = true
      ∧ (x.addr.toNat = 0x000 ∨ x.addr.toNat = 0x018 ∨ x.addr.toNat = 0x01C ∨ 0x1800 ≤ x.addr.toNat) := by decide

/-- Each register's value after a failed command with OVR set, against R38's layout and the registers themselves. -/
theorem witness_RegistersReadAsTheRulesSay :
    let s := { State.reset with irqEn := true, done := true, ovr := true, errcode := .underlyingCipherFailure, calls := 4 }
    s.rstN = true ∧ (1 : Word) = (if s.irqEn then 1 else 0)
    ∧ (0x50A : Word).toNat = 256 * s.errcode.code.toNat + 8 * s.ovr.toNat + 4 * s.resultValid.toNat + 2 * s.done.toNat
      + s.busy.toNat
    ∧ (0 : Word) = s.lastcmd ∧ (0 : Word) = s.mlen ∧ (16 : Word) = s.tlen ∧ (4 : Word) = s.calls
    ∧ (16 : Word).toNat = s.bcBlockSize.toNat := by decide

theorem witness_BuffersReadLittleEndian :
    ∀ a ∈ [0x020, 0x02C, 0x1000, 0x17FC, 0x1800, 0x1FFC],
      State.reset.rstN = true ∧ (BitVec.ofNat 13 a).toNat % 4 = 0 ∧ 3 < 4
      ∧ (0x1000 ≤ (BitVec.ofNat 13 a).toNat ∨ (0x020 ≤ (BitVec.ofNat 13 a).toNat ∧ (BitVec.ofNat 13 a).toNat < 0x030)) := by
  decide

theorem witness_WritesStoreTheWord :
    (let s := { State.reset with inputs := [hostWr 0x010 16] };
      s.nextEvent = .host { write := true, size := 2, addr := 0x010, wdata := 16 })
    ∧ State.reset.rstN = true ∧ State.reset.busy = false
    ∧ ∀ a ∈ [0x1000, 0x17FC], (BitVec.ofNat 13 a).toNat % 4 = 0 ∧ 0x1000 ≤ (BitVec.ofNat 13 a).toNat
      ∧ (BitVec.ofNat 13 a).toNat < 0x1800 := by decide

theorem witness_WritesToCtrlAndStatusTakeEffect : bceExec.rstN = true ∧ State.reset.rstN = true := by decide

theorem witness_InterruptFollowsDoneAndEnable :
    bceExec.rstN = true ∧ Succeeded bceExec.complete ∧ bceExec.complete.irqEn = bceExec.irqEn
    ∧ Failed .invalidBlockSize (bceExec.raiseError .invalidBlockSize) :=
  ⟨rfl, ⟨rfl, rfl, rfl, rfl, rfl⟩, rfl, rfl, rfl, rfl, rfl, rfl⟩

/-- A ready signal in ISSUE, in AWAIT and in reset, a response in IDLE and in reset, a turn of the sequencer in IDLE and in
AWAIT, a change of the block size. -/
theorem witness_PortEventsActInTheirPhaseAlone :
    (let s := { bceIssue with inputs := [.reqReady] }; s.rstN = true ∧ s.nextEvent = .reqReady ∧ s.phase = .issue)
    ∧ (∀ s ∈ [bceAwait, heldInReset], { s with inputs := [.reqReady] }.nextEvent = .reqReady ∧ s.phase ≠ .issue)
    ∧ (∀ s ∈ [State.reset, heldInReset], { s with inputs := [.rsp ⟨false, 1⟩] }.nextEvent = .rsp ⟨false, 1⟩
      ∧ s.phase ≠ .await)
    ∧ (∀ s ∈ [State.reset, bceAwait], { s with inputs := [.sequencer] }.nextEvent = .sequencer ∧ s.phase ≠ .exec)
    ∧ { bceAwait with inputs := [.blockSize 8] }.nextEvent = .blockSize 8 := by decide

/-- A host write to OUT while a request stands. -/
theorem witness_RequestIsStableUntilAccepted : ∃ s t, step s = .next t ∧ MachineInv s ∧ s.phase = .issue
    ∧ s.nextEvent ≠ .reqReady ∧ s.nextEvent ≠ .resetLow :=
  ⟨{ bceIssue with inputs := [hostWr 0x1800 1] }, _, rfl, inv_inputs inv_bceIssue _, by decide, by decide, by decide⟩

/-- Into reset while a command waits, and out of reset. -/
theorem witness_ResetAbandonsTheCommand :
    (let s := { bceAwait with inputs := [.resetLow] }; s.rstN = true ∧ s.nextEvent = .resetLow)
    ∧ (let s := { State.reset with rstN := false, inputs := [.resetHigh] }; s.rstN = false ∧ s.nextEvent = .resetHigh) := by
  decide

theorem witness_EveryStepKeepsTheInvariant : ∃ s t, MachineInv s ∧ step s = .next t ∧ t.phase = .issue :=
  ⟨{ bceExec with inputs := [.sequencer] }, _, inv_inputs inv_bceExec _, rfl, by decide⟩

theorem witness_PhasesChangeOnlyAsTheTableSays : ∃ s t, MachineInv s ∧ step s = .next t ∧ t.phase ≠ s.phase := by
  obtain ⟨t, h, hp⟩ := next_of_after (o := step { bceAwait with inputs := [.rsp ⟨false, 1⟩] })
    (p := fun t => t.phase != .await) (by decide)
  refine ⟨_, t, inv_inputs inv_bceAwait _, h, ?_⟩
  show t.phase ≠ .await
  simpa using hp

/-- A failed response: the command ends, with no valid result. -/
theorem witness_ARunningCommandFreezesInputsAndHidesResults : ∃ s t, MachineInv s ∧ step s = .next t ∧ s.busy = true
    ∧ t.rstN = true ∧ (t.busy = true ∨ t.resultValid = false) := by
  obtain ⟨t, h, hp⟩ := next_of_after (o := step { bceAwait with inputs := [.rsp ⟨true, 1⟩] })
    (p := fun t => t.rstN && !t.resultValid) (by decide)
  simp only [Bool.and_eq_true, Bool.not_eq_true'] at hp
  exact ⟨_, t, inv_inputs inv_bceAwait _, h, rfl, hp.1, .inr hp.2⟩

theorem witness_TransformNeverWritesIn : ∃ s t, MachineInv s ∧ step s = .next t ∧ s.busy = true ∧ t.rstN = true
    ∧ decode s.lastcmd = .ok .emee := by
  obtain ⟨t, h, hp⟩ := next_of_after (o := step { emeExec .emee 1 with inputs := [.sequencer] }) (p := fun t => t.rstN)
    (by decide)
  exact ⟨_, t, inv_inputs inv_emeExec _, h, rfl, hp, rfl⟩

/-- A command that ends with success, one that ends with code 6, one that ends with code 5. -/
theorem witness_CallsCountsTheCommandsCalls :
    (∃ s t, MachineInv s ∧ step s = .next t ∧ s.busy = true ∧ t.busy = false ∧ t.rstN = true ∧ t.resultValid = true)
    ∧ (∃ s t, MachineInv s ∧ step s = .next t ∧ s.busy = true ∧ t.busy = false ∧ t.rstN = true
      ∧ t.errcode = .invalidBlockSize)
    ∧ ∃ s t, MachineInv s ∧ step s = .next t ∧ s.busy = true ∧ t.busy = false ∧ t.rstN = true
      ∧ t.errcode = .underlyingCipherFailure := by
  have size8 : MachineInv { bceExec with bcBlockSize := 8 } :=
    have h := inv_bceExec
    ⟨h.memory, h.busy, h.running, h.atExec, nofun, nofun, h.noCode4, h.validHasNoError, h.calls, h.index, nofun, rfl⟩
  refine ⟨?_, ?_, ?_⟩
  · obtain ⟨t, h, hp⟩ := next_of_after (o := step { bceAwait with inputs := [.rsp ⟨false, 1⟩] })
      (p := fun t => !t.busy && t.rstN && t.resultValid) (by decide)
    simp only [Bool.and_eq_true, Bool.not_eq_true'] at hp
    exact ⟨_, t, inv_inputs inv_bceAwait _, h, rfl, hp.1.1, hp.1.2, hp.2⟩
  · obtain ⟨t, h, hp⟩ := next_of_after (o := step { { bceExec with bcBlockSize := 8 } with inputs := [.sequencer] })
      (p := fun t => !t.busy && t.rstN && t.errcode == .invalidBlockSize) (by decide)
    simp only [Bool.and_eq_true, Bool.not_eq_true', beq_iff_eq] at hp
    exact ⟨_, t, inv_inputs size8 _, h, rfl, hp.1.1, hp.1.2, hp.2⟩
  · obtain ⟨t, h, hp⟩ := next_of_after (o := step { bceAwait with inputs := [.rsp ⟨true, 1⟩] })
      (p := fun t => !t.busy && t.rstN && t.errcode == .underlyingCipherFailure) (by decide)
    simp only [Bool.and_eq_true, Bool.not_eq_true', beq_iff_eq] at hp
    exact ⟨_, t, inv_inputs inv_bceAwait _, h, rfl, hp.1.1, hp.1.2, hp.2⟩

/-- A handshake, an accept, a reset. -/
theorem witness_CallsChangesOnlyAsTheRuleSays :
    (∃ s t, MachineInv s ∧ step s = .next t ∧ s.phase = .issue ∧ t.phase = .await ∧ t.calls ≠ s.calls)
    ∧ (∃ s t, MachineInv s ∧ step s = .next t ∧ s.phase = .idle ∧ t.phase = .exec)
    ∧ ∃ s t, MachineInv s ∧ step s = .next t ∧ t.rstN ≠ s.rstN := by
  refine ⟨⟨{ bceIssue with inputs := [.reqReady] }, _, inv_inputs inv_bceIssue _, rfl, rfl, rfl, by decide⟩, ?_,
    { bceIssue with inputs := [.resetLow] }, _, inv_inputs inv_bceIssue _, rfl, by decide⟩
  obtain ⟨t, h, hp⟩ := next_of_after (o := step { idleState with inputs := [hostWr 0x00C 0] })
    (p := fun t => t.phase == .exec) (by decide)
  exact ⟨_, t, inv_inputs inv_idleState _, h, rfl, by simpa using hp⟩

/-- A completion, an accepted write to CMD, a write to STATUS with bit 1 set, a fall and a rise of `rst_n`. -/
theorem witness_StatusChangesOnlyAsTheRulesSay :
    (∃ s t, MachineInv s ∧ step s = .next t ∧ s.phase ≠ .idle ∧ t.phase = .idle ∧ t.rstN = true)
    ∧ (∃ s t, MachineInv s ∧ step s = .next t ∧ s.rstN = true ∧ s.busy = false
      ∧ ∃ v : Word, s.nextEvent = .host { write := true, size := 2, addr := 0x00C, wdata := v })
    ∧ (∃ s t, MachineInv s ∧ step s = .next t ∧ s.rstN = true ∧ s.done = true ∧ ∃ v : Word, v.getLsbD 1 = true
      ∧ s.nextEvent = .host { write := true, size := 2, addr := 0x008, wdata := v })
    ∧ (∃ s t, MachineInv s ∧ step s = .next t ∧ s.rstN = true ∧ t.rstN = false)
    ∧ ∃ s t, MachineInv s ∧ step s = .next t ∧ s.rstN = false ∧ t.rstN = true := by
  refine ⟨?_, ⟨{ idleState with inputs := [hostWr 0x00C 0] }, _, inv_inputs inv_idleState _, rfl, rfl, rfl, 0, rfl⟩,
    ⟨{ idleState with inputs := [hostWr 0x008 2] }, _, inv_inputs inv_idleState _, rfl, rfl, rfl, 2, by decide, rfl⟩,
    ⟨{ bceIssue with inputs := [.resetLow] }, _, inv_inputs inv_bceIssue _, rfl, rfl, rfl⟩,
    ⟨{ heldInReset with inputs := [.resetHigh] }, _, inv_inputs inv_heldInReset _, rfl, rfl, rfl⟩⟩
  obtain ⟨t, h, hp⟩ := next_of_after (o := step { bceAwait with inputs := [.rsp ⟨false, 1⟩] })
    (p := fun t => t.phase == .idle && t.rstN) (by decide)
  simp only [Bool.and_eq_true, beq_iff_eq] at hp
  exact ⟨_, t, inv_inputs inv_bceAwait _, h, nofun, hp⟩

/-- OVR set by a dropped write, cleared by STATUS bit 3, and by a reset. -/
theorem witness_OvrChangesOnlyAsTheRuleSays :
    (∃ s t, step s = .next t ∧ s.ovr = false ∧ t.ovr = true ∧ s.rstN = true ∧ s.busy = true
      ∧ ∃ x, s.nextEvent = .host x ∧ InputWrite x)
    ∧ (∃ s t, step s = .next t ∧ s.ovr = true ∧ t.ovr = false ∧ s.rstN = true
      ∧ ∃ v : Word, v.getLsbD 3 = true
        ∧ s.nextEvent = .host { write := true, size := 2, addr := 0x008, wdata := v })
    ∧ ∃ s t, step s = .next t ∧ t.rstN ≠ s.rstN :=
  ⟨⟨{ bceExec with inputs := [hostWr 0x17FC 0] }, _, rfl, by decide, by decide, rfl, rfl,
      { write := true, size := 2, addr := 0x17FC, wdata := 0 }, rfl, by simp only [InputWrite]; decide⟩,
    ⟨{ bceExec with ovr := true, inputs := [hostWr 0x008 8] }, _, rfl, by decide, by decide, rfl, 8, by decide, rfl⟩,
    { bceExec with inputs := [.resetLow] }, _, rfl, by decide⟩

theorem witness_NothingHappensWhileNobodyActs :
    { bceAwait with inputs := [.quiet] }.nextEvent = .quiet ∧ State.reset.inputs = [] ∧ State.reset.phase = .idle := by
  decide

end Sys2Proof.Tests
end

section
/-! PROOFS. The state family: host accesses in closed form, the ways of a step from a state that meets the invariant
(`StepEffect`), the invariant itself, and how CALLS, OVR, STATUS and the bytes of IN change. -/

namespace Sys2Proof.Machine

/-! ## Host accesses in closed form -/

/-- A step whose event is a host access is that access (R83, R93). -/
theorem step_host {s : State} {x : HostAccess} (h : s.nextEvent = .host x) :
    step s = .next (s.afterEvent.hostAccess x) := by rw [step, h, react]

theorem eq_hostAccess_of_step {s t : State} {x : HostAccess} (hs : step s = .next t) (h : s.nextEvent = .host x) :
    t = s.afterEvent.hostAccess x := Host.Outcome.next.inj (hs.symm.trans (step_host h))

theorem State.hostAccess_read {s : State} (hr : s.rstN = true) {x : HostAccess} (hw : x.write = false) :
    s.hostAccess x = { s with hAnswer := s.answerTo x } := by
  simp [State.hostAccess, hr, hw]

theorem State.answerTo_read {s : State} {a : Offset} {v : Word} (h4 : a.toNat % 4 = 0) (hv : s.readWord a = some v) :
    s.answerTo { write := false, size := 2, addr := a, wdata := 0 } = { rdata := v, err := false } := by
  unfold State.answerTo
  rw [if_pos ((HostAccess.legal_iff _).2 ⟨rfl, h4⟩)]
  simp [hv]

/-- Only a reserved offset has no word (R84, R88). -/
theorem State.readWord_isSome (s : State) {a : Offset} (h : regionOf a ≠ .reserved) : ∃ v, s.readWord a = some v := by
  unfold State.readWord
  cases hr : regionOf a with
  | reserved => exact absurd hr h
  | _ => exact ⟨_, rfl⟩

/-- A legal write to a mapped offset, out of reset: its effect, answered with 0 and no error (R85). -/
theorem State.hostAccess_write {s : State} (hr : s.rstN = true) {a : Offset} (v : Word) (h4 : a.toNat % 4 = 0)
    (hm : regionOf a ≠ .reserved) :
    s.hostAccess { write := true, size := 2, addr := a, wdata := v }
      = { s.writeWord a v with hAnswer := { rdata := 0, err := false } } := by
  have hl := (HostAccess.legal_iff { write := true, size := 2, addr := a, wdata := v }).2 ⟨rfl, h4⟩
  obtain ⟨w, hw⟩ := s.readWord_isSome hm
  unfold State.hostAccess State.answerTo
  simp only [hl, hr, hw, Bool.and_true, if_true]

/-- A legal write access to a given address is spelled out by its word. -/
theorem HostAccess.eq_write {x : HostAccess} {a : Offset} (hl : x.legal = true) (hw : x.write = true) (ha : x.addr = a) :
    x = { write := true, size := 2, addr := a, wdata := x.wdata } := by
  obtain ⟨hs, -⟩ := x.legal_iff.1 hl
  cases x
  simp_all

theorem regionOf_inBuffer {a : Offset} (h1 : 0x1000 ≤ a.toNat) (h2 : a.toNat < 0x1800) : regionOf a = .inBuffer := by
  unfold regionOf
  repeat rw [if_neg (by omega)]
  rw [if_pos h2]

theorem regionOf_tweak {a : Offset} (h1 : 0x020 ≤ a.toNat) (h2 : a.toNat < 0x030) :
    regionOf a = .tweak ((a.toNat - 0x020) / 4) := by
  unfold regionOf
  repeat rw [if_neg (by omega)]
  rw [if_pos h2]

/-- A legal write to an input of the commands while one runs sets OVR and does nothing else (R90). -/
theorem State.hostAccess_inputWrite {s : State} (hr : s.rstN = true) (hb : s.busy = true) {x : HostAccess}
    (hx : InputWrite x) : s.hostAccess x = { s with ovr := true, hAnswer := { rdata := 0, err := false } } := by
  obtain ⟨hl, hw, ha⟩ := hx
  have dropped : ∀ effect : State → State, s.unlessBusy effect = { s with ovr := true } := fun _ => if_pos hb
  have addr_eq : ∀ n : Nat, n < 0x2000 → x.addr.toNat = n → x.addr = BitVec.ofNat 13 n := fun n hn h =>
    BitVec.eq_of_toNat_eq (by rw [h, BitVec.toNat_ofNat, Nat.mod_eq_of_lt hn])
  have effect : regionOf x.addr ≠ .reserved ∧ s.writeWord x.addr x.wdata = { s with ovr := true } := by
    unfold State.writeWord
    rcases ha with h | h | h | ⟨h1, h2⟩ | ⟨h1, h2⟩
    · rw [addr_eq _ (by decide) h]; exact ⟨by decide, dropped _⟩
    · rw [addr_eq _ (by decide) h]; exact ⟨by decide, dropped _⟩
    · rw [addr_eq _ (by decide) h]; exact ⟨by decide, dropped _⟩
    · rw [regionOf_tweak h1 h2]; exact ⟨nofun, dropped _⟩
    · rw [regionOf_inBuffer h1 h2]; exact ⟨nofun, dropped _⟩
  rw [HostAccess.eq_write hl hw rfl, State.hostAccess_write hr _ (x.legal_iff.1 hl).2 effect.1, effect.2]

/-- A write to STATUS, busy or not (R38). -/
theorem State.hostAccess_status {s : State} (hr : s.rstN = true) (v : Word) :
    s.hostAccess { write := true, size := 2, addr := 0x008, wdata := v }
      = { s.writeStatus v with hAnswer := { rdata := 0, err := false } } :=
  s.hostAccess_write hr v (by decide) (by decide)

/-- A write to CMD while no command runs is an accept (R173). -/
theorem State.hostAccess_cmd {s : State} (hr : s.rstN = true) (hb : s.busy = false) (v : Word) :
    s.hostAccess { write := true, size := 2, addr := 0x00C, wdata := v }
      = { s.accept v with hAnswer := { rdata := 0, err := false } } := by
  have hw : s.writeWord 0x00C v = s.accept v := if_neg (by simp [hb])
  rw [State.hostAccess_write hr v (by decide) (by decide), hw]

/-- A host access is an accepted write to CMD, a write to STATUS, or leaves CALLS, the sequencer, LASTCMD, the pins and
STATUS but for OVR alone. -/
theorem State.hostAccess_inversion (s : State) (x : HostAccess) :
    (s.rstN = true ∧ s.busy = false ∧ ∃ v, x = { write := true, size := 2, addr := 0x00C, wdata := v })
    ∨ (s.rstN = true ∧ ∃ v, x = { write := true, size := 2, addr := 0x008, wdata := v })
    ∨ s.hostAccess x = { s with
        irqEn := (s.hostAccess x).irqEn
        ovr := (s.hostAccess x).ovr
        mlen := (s.hostAccess x).mlen
        tlen := (s.hostAccess x).tlen
        tweak := (s.hostAccess x).tweak
        mem := (s.hostAccess x).mem
        hAnswer := (s.hostAccess x).hAnswer
        draws := (s.hostAccess x).draws } := by
  rcases s.hostAccess_cases x with h | ⟨hr, hl, hw, u, hu, h⟩
  · exact .inr (.inr (by rw [h]))
  · cases hu with
    | accepted hb ha => exact .inl ⟨hr, hb, _, HostAccess.eq_write hl hw ha⟩
    | status ha => exact .inr (.inl ⟨hr, _, HostAccess.eq_write hl hw ha⟩)
    | ignored => exact .inr (.inr (by rw [h]))
    | ctrl _ => exact .inr (.inr (by rw [h]; rfl))
    | dropped _ _ => exact .inr (.inr (by rw [h]))
    | mlen _ => exact .inr (.inr (by rw [h]))
    | tlen _ => exact .inr (.inr (by rw [h]))
    | tweak _ _ => exact .inr (.inr (by rw [h]))
    | bytes _ _ _ => exact .inr (.inr (by rw [h, State.putWord_memory]))

/-! ## The registers' access statements -/

/-- STATUS reads 0 after a change of `rst_n` (R59). -/
theorem State.statusWord_reset (s : State) (v : Bool) :
    State.statusWord { s.resetRegisters with rstN := v } = 0 := by
  simp [State.statusWord, bitWord, ErrCode.code]

/-- The fields of STATUS as digits of one number (R38). -/
theorem State.statusWord_toNat (s : State) :
    s.statusWord.toNat = 256 * s.errcode.code.toNat + 8 * s.ovr.toNat + 4 * s.resultValid.toNat + 2 * s.done.toNat
      + s.busy.toNat := by
  have digits : ∀ (c : BitVec 4) (o r d b : Bool),
      ((c.setWidth 32 <<< 8) ||| (bitWord o <<< 3) ||| (bitWord r <<< 2) ||| (bitWord d <<< 1) ||| bitWord b : Word).toNat
        = 256 * c.toNat + 8 * o.toNat + 4 * r.toNat + 2 * d.toNat + b.toNat := by decide
  exact digits _ _ _ _ _

/-- Settles O41: a read is answered by `readWord`, region by region. -/
theorem registersReadAsTheRulesSay : Obligations.RegistersReadAsTheRulesSay := by
  intro s hr
  refine ⟨fun x hw => by rw [OnlyAnswer, State.hostAccess_read hr hw], fun a v h => ?_⟩
  rw [State.hostAccess_read hr rfl]
  have word : a.toNat % 4 = 0 ∧ s.readWord a = some v := by
    rcases h with ⟨rfl, rfl⟩ | ⟨rfl, rfl⟩ | ⟨rfl, h⟩ | ⟨rfl, rfl⟩ | ⟨rfl, rfl⟩ | ⟨rfl, rfl⟩ | ⟨rfl, rfl⟩ | ⟨rfl, h⟩
    · exact ⟨rfl, rfl⟩
    · exact ⟨rfl, rfl⟩
    · exact ⟨rfl, congrArg some (BitVec.eq_of_toNat_eq (s.statusWord_toNat.trans h.symm))⟩
    · exact ⟨rfl, rfl⟩
    · exact ⟨rfl, rfl⟩
    · exact ⟨rfl, rfl⟩
    · exact ⟨rfl, rfl⟩
    · have hb := s.bcBlockSize.isLt
      exact ⟨rfl, congrArg some (BitVec.eq_of_toNat_eq (by rw [BitVec.toNat_setWidth, h]; omega))⟩
  exact State.answerTo_read word.1 word.2

/-- Settles O44: both registers are written whether or not a command runs. -/
theorem writesToCtrlAndStatusTakeEffect : Obligations.WritesToCtrlAndStatusTakeEffect := by
  intro s v hr
  refine ⟨s.hostAccess_write hr v (by decide) (by decide), ?_⟩
  have clear : ∀ b c : Bool, (b && !c) = if c then false else b := by decide
  rw [State.hostAccess_status hr, State.writeStatus, clear, clear]

@[simp] theorem State.byteAt_hAnswer (s : State) (r : HostAnswer) (x : Nat) :
    State.byteAt { s with hAnswer := r } x = s.byteAt x := rfl

/-- A write to IN while no command runs stores the word's four bytes (R85). -/
theorem State.hostAccess_inBuffer {s : State} (hr : s.rstN = true) (hb : s.busy = false) {a : Offset} (v : Word)
    (h4 : a.toNat % 4 = 0) (h1 : 0x1000 ≤ a.toNat) (h2 : a.toNat < 0x1800) :
    s.hostAccess { write := true, size := 2, addr := a, wdata := v }
      = { s.putWord a.toNat v with hAnswer := { rdata := 0, err := false } } := by
  have hin := regionOf_inBuffer h1 h2
  rw [State.hostAccess_write hr v h4 (by rw [hin]; nofun)]
  simp [State.writeWord, hin, State.unlessBusy, hb]

/-- A write to word `i` of TWEAK while no command runs replaces that word (R85). -/
theorem State.hostAccess_tweak {s : State} (hr : s.rstN = true) (hb : s.busy = false) {i : Nat} (hi : i < 4) (v : Word) :
    s.hostAccess { write := true, size := 2, addr := BitVec.ofNat 13 (0x020 + 4 * i), wdata := v }
      = { s with tweak := setBlockWord s.tweak i v, hAnswer := { rdata := 0, err := false } } := by
  have ha : (BitVec.ofNat 13 (0x020 + 4 * i)).toNat = 0x020 + 4 * i := by rw [BitVec.toNat_ofNat]; omega
  have ht : regionOf (BitVec.ofNat 13 (0x020 + 4 * i)) = .tweak i := by
    rw [regionOf_tweak (by omega) (by omega), ha]
    congr 1
    omega
  rw [State.hostAccess_write hr v (by omega) (by rw [ht]; nofun)]
  simp [State.writeWord, ht, State.unlessBusy, hb]

/-- Settles O43: each write's effect by its region, and the bytes of a stored word. -/
theorem writesStoreTheWord : Obligations.WritesStoreTheWord := by
  refine ⟨fun s x h => step_host h, fun s v hr hb => ⟨fun a h4 h1 h2 => ?_, ?_, ?_, fun i hi => ?_⟩⟩
  · refine ⟨_, State.hostAccess_inBuffer hr hb v h4 h1 h2, fun i hi => ?_, fun x hx => ?_, ?_⟩
    · rw [State.byteAt_hAnswer, State.byteAt_putWord, if_pos (by omega), Nat.add_sub_cancel_left, wordByte]
    · rw [State.byteAt_hAnswer, State.byteAt_putWord, if_neg hx]
    · rw [s.putWord_memory]
  · have hw : s.writeWord 0x010 v = { s with mlen := v } := if_neg (by simp [hb])
    rw [State.hostAccess_write hr v (by decide) (by decide), hw]
  · have hw : s.writeWord 0x014 v = { s with tlen := v } := if_neg (by simp [hb])
    rw [State.hostAccess_write hr v (by decide) (by decide), hw]
  · refine ⟨_, State.hostAccess_tweak hr hb hi v, fun k hk => ?_⟩
    rw [byteOf_setBlockWord _ _ _ hk]
    by_cases h : k / 4 = i
    · rw [if_pos h, if_pos (by omega), wordByte, show k % 4 = k - 4 * i by omega]
    · rw [if_neg h, if_neg (by omega)]

/-! ## States that meet the invariant -/

/-- The inputs, the answer, the block size and the draws are free, as are IRQ_EN, OVR and a clearing of DONE, out of
reset. -/
theorem MachineInv.frame {s : State} (h : MachineInv s) {q d o : Bool} {b : BitVec 16} {a : HostAnswer} {l : List Event}
    {n : Nat} (hd : s.done = false → d = false) (hr : s.rstN = false → q = s.irqEn ∧ d = s.done ∧ o = s.ovr) :
    MachineInv { s with irqEn := q, done := d, ovr := o, bcBlockSize := b, hAnswer := a, inputs := l, draws := n } where
  memory := h.memory
  busy := h.busy
  running hp := (h.running hp).imp_left hd
  atExec := h.atExec
  atIssue hp := (h.atIssue hp).imp_right fun ⟨i, g⟩ => ⟨i, g.command, g.index, g.count⟩
  atAwait hp := (h.atAwait hp).imp_right fun ⟨i, g⟩ => ⟨i, g.command, g.index, g.count⟩
  noCode4 := h.noCode4
  validHasNoError := h.validHasNoError
  calls := h.calls
  index := h.index
  inReset h0 := by
    obtain ⟨rfl, rfl, rfl⟩ := hr h0
    exact h.inReset h0
  noResponse := h.noResponse

theorem MachineInv.afterEvent {s : State} (h : MachineInv s) : MachineInv s.afterEvent := by
  rw [afterEvent_eq]
  exact h.frame id fun _ => ⟨rfl, rfl, rfl⟩

/-- With no command running, out of reset, the invariant asks little. -/
theorem MachineInv.of_idle {t : State} (hm : Memory.wf t.mem) (hb : t.busy = false) (hp : t.phase = .idle)
    (h4 : t.errcode ≠ .bufferLengthMismatch) (hv : t.resultValid = true → t.errcode = .none) (hc : t.calls.toNat ≤ 258)
    (hk : t.k ≤ 257) (hr : t.rstN = true) (hn : t.rsp = none) : MachineInv t where
  memory := hm
  busy := by simp [hb, hp]
  running h := absurd hp h
  atExec h := by simp [hp] at h
  atIssue h := by simp [hp] at h
  atAwait h := by simp [hp] at h
  noCode4 := h4
  validHasNoError := hv
  calls := hc
  index := hk
  inReset h := by simp [hr] at h
  noResponse := hn

theorem MachineInv.phase_idle {s : State} (h : MachineInv s) (hb : s.busy = false) : s.phase = .idle := by
  by_contra hp
  simp [h.busy.2 hp] at hb

/-- A running command is out of reset (R280). -/
theorem MachineInv.rstN_of_busy {s : State} (h : MachineInv s) (hb : s.busy = true) : s.rstN = true := by
  by_contra hr
  obtain ⟨-, -, -, -, -, -, -, hp, -⟩ := h.inReset (by simpa using hr)
  exact h.busy.1 hb hp

/-- No command makes more than 258 calls (R271). -/
theorem InCall.callCount_le {s : State} {i : Instr} (h : InCall s i) : callCount s.scratch.m.toNat i ≤ 258 := by
  have transform : usesCount i = true → 2 * s.scratch.m.toNat + 2 ≤ 258 := fun hu => by
    have := h.count hu
    omega
  cases i with
  | emee => exact transform rfl
  | emed => exact transform rfl
  | _ => simp [callCount]

/-! ## The ways of a step -/

/-- The part of a command that one sequencer turn (`false`) or one answer, failed or not, runs from `s`: it stops the
command with an error, or completes it, or makes the next call (R164, R254, R255). -/
inductive Segment (s : State) : Bool → State → Prop where
  | stops {e : ErrCode} : s.phase = .exec →
      e = .invalidBlockSize ∨ e = .invalidTweakLength ∨ e = .invalidMessageLength ∨ e = .illegalCommand →
      Segment s false (s.raiseError e)
  | fails : s.phase = .await → Segment s true (s.raiseError .underlyingCipherFailure)
  | completes (i : Instr) (m : List Host.Cell) : s.phase = .exec ∨ s.phase = .await → decode s.lastcmd = .ok i →
      s.calls.toNat = callCount s.scratch.m.toNat i → Memory.wf m →
      (usesCount i = true → ∀ a < 0x1800, ({ s with mem := m } : State).byteAt a = s.byteAt a) →
      Segment s false { s with mem := m }.complete
  | calls (i : Instr) (c : Scratch) (n : Nat) (dir : Dir) (x : Block) : s.phase = .exec ∨ s.phase = .await →
      c.cur = s.scratch.cur → s.calls.toNat = n → InCall ({ s with scratch := c }.cipherCall n dir x) i →
      Segment s false ({ s with scratch := c }.cipherCall n dir x)

/-- A segment starts in EXEC or in AWAIT. -/
theorem Segment.phase {s t : State} {b : Bool} (h : Segment s b t) : s.phase = .exec ∨ s.phase = .await := by
  cases h with
  | stops hp _ => exact .inl hp
  | fails hp => exact .inr hp
  | completes _ _ hp => exact hp
  | calls _ _ _ _ _ hp => exact hp

/-- A segment ends the command or presents a request. -/
theorem Segment.end_or_issue {s t : State} {b : Bool} (h : Segment s b t) :
    (Succeeded t ∨ ∃ e, e ≠ .none ∧ Failed e t) ∨ (t.phase = .issue ∧ SameStatus s t) := by
  cases h with
  | stops _ he => exact .inl (.inr ⟨_, by rcases he with rfl | rfl | rfl | rfl <;> decide, s.raiseError_failed _⟩)
  | fails _ => exact .inl (.inr ⟨_, by decide, s.raiseError_failed _⟩)
  | completes _ _ => exact .inl (.inl (State.complete_succeeded _))
  | calls => exact .inr ⟨rfl, rfl, rfl, rfl, rfl⟩

/-- A segment makes no handshake and leaves the host's registers and the pins alone (R94). -/
theorem Segment.frame {s t : State} {b : Bool} (h : Segment s b t) : SameOutside s t ∧ t.calls = s.calls := by
  cases h with
  | stops _ _ => exact ⟨s.raiseError_outside _, rfl⟩
  | fails _ => exact ⟨s.raiseError_outside _, rfl⟩
  | completes _ m => exact ⟨(SameOutside.of_memory (t := { s with mem := m }) rfl).complete, rfl⟩
  | calls => exact ⟨⟨rfl, rfl, rfl, rfl, rfl, rfl, rfl, rfl, rfl, rfl, rfl⟩, rfl⟩

/-- The EXEC step of a legal word. -/
theorem MachineInv.exec_segment {s t : State} {i : Instr} (h : MachineInv s) (hp : s.phase = .exec)
    (hl : legal s.lastcmd = true) (hc : s.currentCommand = some i) (he : exec i s = .next t) : Segment s false t := by
  obtain ⟨-, -, -, hcur⟩ := h.running (by rw [hp]; decide)
  obtain ⟨j, hj⟩ := decode_of_legal hl
  obtain rfl : i = j := Option.some.inj (hc.symm.trans (currentCommand_of_decode hcur hj))
  have h0 : s.calls.toNat = 0 := by rw [h.atExec hp]; rfl
  obtain ⟨u, hu, hcases⟩ := exec_start i hp
  obtain rfl : u = t := Host.Outcome.next.inj (hu.symm.trans he)
  rcases hcases with ⟨e, rfl, hcode⟩ | ⟨hn, hno, m, rfl, hm⟩ | ⟨c, dir, x, rfl, hccur, hk, hcount⟩
  · exact .stops hp (hcode.imp_right (.imp_right .inl))
  · exact .completes i m (.inl hp) hj (by rw [h0, hn]) (hm h.memory) fun hu => by simp [hno] at hu
  · exact .calls i c 0 dir x (.inl hp) hccur h0 ⟨hj, hk, hcount⟩

/-- The response step of a command, the response then being consumed. -/
theorem MachineInv.answer_segment {s u : State} {i : Instr} {r : Response} (h : MachineInv s) (hp : s.phase = .await)
    (hc : s.currentCommand = some i) (he : exec i { s with rsp := some r } = .next u) :
    Segment s r.err { u with rsp := none } := by
  obtain ⟨-, -, -, hcur⟩ := h.running (by rw [hp]; decide)
  obtain ⟨hcalls, j, hj⟩ := h.atAwait hp
  obtain rfl : i = j := Option.some.inj (hc.symm.trans (currentCommand_of_decode hcur hj.command))
  have consumed : { s with rsp := none } = s := by rw [← h.noResponse]
  obtain ⟨v, hv, hcases⟩ := exec_answer (s := { s with rsp := some r }) i hp rfl (fun hu => (hj.count hu).2.1) hj.index
  obtain rfl : v = u := Host.Outcome.next.inj (hv.symm.trans he)
  rcases hcases with ⟨hr, rfl⟩ | ⟨hr, hlast, m, rfl, hm, hin⟩ | ⟨hr, hnext, c, dir, x, rfl, hccur, hcm⟩ <;> rw [hr]
  · show Segment s true (State.raiseError { s with rsp := none } .underlyingCipherFailure)
    rw [consumed]
    exact .fails hp
  · have hwf : Memory.wf m := hm (by
      by_cases hu : usesCount i = true
      · exact .inr (hj.count hu).2.2
      · exact .inl (by simpa using hu)) h.memory
    show Segment s false (State.complete { ({ s with rsp := none } : State) with mem := m })
    rw [consumed]
    exact .completes i m (.inr hp) hj.command (hcalls.trans hlast) hwf hin
  · show Segment s false (State.cipherCall { ({ s with rsp := none } : State) with scratch := c } (s.k + 1) dir x)
    rw [consumed]
    have hcount : c.m = s.scratch.m := hcm
    exact .calls i c (s.k + 1) dir x (.inr hp) hccur hcalls
      ⟨hj.command, by simpa [hcount] using hnext, fun hu => by simpa [hcount] using hj.count hu⟩

/-- The ways of a step from a state that meets the invariant: a host access, a segment of the running command, the accept
of its request, a change on a pin, or no more than the event taken (R93, R175, R280). -/
inductive StepEffect (s : State) : State → Prop where
  | access (x : HostAccess) : s.nextEvent = .host x → StepEffect s (s.afterEvent.hostAccess x)
  | turn {t : State} : s.nextEvent = .sequencer → s.phase = .exec → Segment s.afterEvent false t → StepEffect s t
  | answer {t : State} (r : Response) : s.nextEvent = .rsp r → s.phase = .await → Segment s.afterEvent r.err t →
      StepEffect s t
  | handshake : s.nextEvent = .reqReady → s.phase = .issue →
      StepEffect s { s.afterEvent with calls := s.calls + 1, phase := .await }
  | blockSize (v : BitVec 16) : s.nextEvent = .blockSize v → StepEffect s { s.afterEvent with bcBlockSize := v }
  | reset (v : Bool) : s.rstN = !v → s.nextEvent = (if v then .resetHigh else .resetLow) →
      StepEffect s { s.afterEvent.resetRegisters with rstN := v }
  | nothing : (∀ x, s.nextEvent ≠ .host x) → StepEffect s s.afterEvent

theorem MachineInv.stepEffect {s t : State} (h : MachineInv s) (hs : step s = .next t) : StepEffect s t := by
  have h' := h.afterEvent
  rcases step_cases hs with ⟨x, he, rfl⟩ | ⟨he, -, hp, hl, i, hc, hx⟩ | ⟨he, -, hp, -, rfl⟩ | ⟨he, -, hp, rfl⟩
    | ⟨r, i, u, he, -, hp, hc, hx, rfl⟩ | ⟨v, he, rfl⟩ | ⟨he, hr, rfl⟩ | ⟨he, hr, rfl⟩ | ⟨he, rfl⟩
  · exact .access x he
  · exact .turn he hp (h'.exec_segment (by simpa using hp) (by simpa using hl) (by simpa using hc) hx)
  · exact .turn he hp (.stops (by simpa using hp) (.inr (.inr (.inr rfl))))
  · rw [afterEvent_calls]
    exact .handshake he hp
  · exact .answer r he hp (h'.answer_segment (by simpa using hp) (by simpa using hc) hx)
  · exact .blockSize v he
  · exact .reset false hr he
  · exact .reset true hr he
  · exact .nothing he

/-! ## The invariant -/

/-- Settles O50: the state after reset is idle, with no error and nothing written. -/
theorem resetMeetsTheInvariant : Obligations.ResetMeetsTheInvariant :=
  .of_idle ⟨.nil, nofun⟩ rfl rfl nofun nofun (by decide) (by decide) rfl rfl

/-- Settles O48: each value by evaluation. -/
theorem resetLeavesTheStatedValues : Obligations.ResetLeavesTheStatedValues :=
  ⟨rfl, rfl, rfl, rfl, rfl, rfl, rfl, rfl, rfl, rfl, rfl, rfl, rfl, rfl⟩

theorem MachineInv.accept {s : State} (h : MachineInv s) (hr : s.rstN = true) (v : Word) : MachineInv (s.accept v) where
  memory := h.memory
  busy := by simp
  running _ := ⟨rfl, rfl, rfl, rfl⟩
  atExec _ := rfl
  atIssue := nofun
  atAwait := nofun
  noCode4 := nofun
  validHasNoError := nofun
  calls := Nat.zero_le _
  index := h.index
  inReset h0 := by simp [hr] at h0
  noResponse := h.noResponse

/-- While no command runs its inputs may take any values, and the memory any canonical form. -/
theorem MachineInv.inputs {s : State} (h : MachineInv s) (hr : s.rstN = true) (hb : s.busy = false) (l n : Word) (b : Block)
    {m : List Host.Cell} (hm : Memory.wf m) : MachineInv { s with mlen := l, tlen := n, tweak := b, mem := m } :=
  .of_idle hm hb (h.phase_idle hb) h.noCode4 h.validHasNoError h.calls h.index hr h.noResponse

/-- The effect of a host's write keeps the invariant. -/
theorem MachineInv.writeEffect {s u : State} {a : Offset} {v : Word} (h : MachineInv s) (hr : s.rstN = true)
    (hu : WriteEffect s a v u) : MachineInv u := by
  have out : s.rstN ≠ false := by simp [hr]
  cases hu with
  | ignored => exact h
  | ctrl _ => exact h.frame id fun h0 => absurd h0 out
  | status _ => exact h.frame (fun hd => by simp [hd]) fun h0 => absurd h0 out
  | dropped _ _ => exact h.frame id fun h0 => absurd h0 out
  | accepted _ _ => exact h.accept hr v
  | mlen hb => exact h.inputs hr hb v s.tlen s.tweak h.memory
  | tlen hb => exact h.inputs hr hb s.mlen v s.tweak h.memory
  | tweak b hb => exact h.inputs hr hb s.mlen s.tlen b h.memory
  | bytes hb h1 h2 =>
    rw [s.putWord_memory]
    exact h.inputs hr hb s.mlen s.tlen s.tweak (State.putWord_wf h.memory v h1 (by omega))

theorem MachineInv.hostAccess {s : State} (h : MachineInv s) (x : HostAccess) : MachineInv (s.hostAccess x) := by
  rcases s.hostAccess_cases x with e | ⟨hr, -, -, u, hu, e⟩ <;> rw [e]
  · exact h.frame id fun _ => ⟨rfl, rfl, rfl⟩
  · exact (h.writeEffect hr hu).frame id fun _ => ⟨rfl, rfl, rfl⟩

theorem MachineInv.raiseError {s : State} (h : MachineInv s) (hr : s.rstN = true) {e : ErrCode}
    (he : e ≠ .bufferLengthMismatch) : MachineInv (s.raiseError e) :=
  .of_idle h.memory rfl rfl he nofun h.calls (Nat.le_of_lt_succ (Nat.mod_lt _ (by decide))) hr h.noResponse

theorem MachineInv.complete {s : State} (h : MachineInv s) (hr : s.rstN = true) {m : List Host.Cell} (hm : Memory.wf m) :
    MachineInv { s with mem := m }.complete :=
  .of_idle hm rfl rfl nofun (fun _ => rfl) h.calls (Nat.le_of_lt_succ (Nat.mod_lt _ (by decide))) hr h.noResponse

/-- A command that makes call number CALLS is inside that call. -/
theorem MachineInv.cipherCall {s : State} (h : MachineInv s) (hp : s.phase ≠ .idle) {i : Instr} {c : Scratch} {n : Nat}
    {dir : Dir} {x : Block} (hcur : c.cur = s.scratch.cur) (hn : s.calls.toNat = n)
    (hi : InCall ({ s with scratch := c }.cipherCall n dir x) i) : MachineInv ({ s with scratch := c }.cipherCall n dir x) :=
  have hb := h.busy.2 hp
  { memory := h.memory
    busy := by simp [hb]
    running := fun _ => by simpa [hcur] using h.running hp
    atExec := nofun
    atIssue := fun _ => ⟨hn, i, hi⟩
    atAwait := nofun
    noCode4 := h.noCode4
    validHasNoError := h.validHasNoError
    calls := h.calls
    index := Nat.le_of_lt_succ (Nat.lt_of_lt_of_le hi.index hi.callCount_le)
    inReset := fun h0 => by simp [h.rstN_of_busy hb] at h0
    noResponse := h.noResponse }

theorem MachineInv.segment {s t : State} {b : Bool} (h : MachineInv s) (hs : Segment s b t) : MachineInv t := by
  have hp : s.phase ≠ .idle := by rcases hs.phase with hp | hp <;> rw [hp] <;> decide
  have hr := h.rstN_of_busy (h.busy.2 hp)
  cases hs with
  | stops _ he => exact h.raiseError hr (by rcases he with rfl | rfl | rfl | rfl <;> decide)
  | fails _ => exact h.raiseError hr (by decide)
  | completes _ _ _ _ _ hm _ => exact h.complete hr hm
  | calls _ _ _ _ _ _ hcur hn hi => exact h.cipherCall hp hcur hn hi

/-- The accept of request `k` counts it (R162). -/
theorem MachineInv.handshake {s : State} (h : MachineInv s) (hp : s.phase = .issue) :
    MachineInv { s with calls := s.calls + 1, phase := .await } := by
  obtain ⟨hcalls, i, hi⟩ := h.atIssue hp
  have hk : s.k < 258 := Nat.lt_of_lt_of_le hi.index hi.callCount_le
  have hsucc : (s.calls + 1).toNat = s.k + 1 := by
    rw [BitVec.toNat_add, hcalls]
    exact Nat.mod_eq_of_lt (by show s.k + 1 < 2 ^ 32; omega)
  have hne : s.phase ≠ .idle := by rw [hp]; decide
  have hb := h.busy.2 hne
  exact {
    memory := h.memory
    busy := by simp [hb]
    running := fun _ => h.running hne
    atExec := nofun
    atIssue := nofun
    atAwait := fun _ => ⟨hsucc, i, hi.command, hi.index, hi.count⟩
    noCode4 := h.noCode4
    validHasNoError := h.validHasNoError
    calls := by rw [hsucc]; exact hk
    index := h.index
    inReset := fun h0 => by simp [h.rstN_of_busy hb] at h0
    noResponse := h.noResponse }

theorem MachineInv.resetRegisters {s : State} (h : MachineInv s) (v : Bool) :
    MachineInv { s.resetRegisters with rstN := v } where
  memory := ⟨.nil, nofun⟩
  busy := by simp
  running := nofun
  atExec := nofun
  atIssue := nofun
  atAwait := nofun
  noCode4 := nofun
  validHasNoError := nofun
  calls := Nat.zero_le _
  index := Nat.zero_le _
  inReset _ := ⟨rfl, s.statusWord_reset v, rfl, rfl, rfl, rfl, rfl, rfl, rfl, rfl⟩
  noResponse := h.noResponse

/-- Settles O51, by the ways of a step: each keeps the invariant. -/
theorem everyStepKeepsTheInvariant : Obligations.EveryStepKeepsTheInvariant := by
  intro s t h hs
  have h' := h.afterEvent
  cases h.stepEffect hs with
  | access x _ => exact h'.hostAccess x
  | turn _ _ hseg => exact h'.segment hseg
  | answer _ _ _ hseg => exact h'.segment hseg
  | handshake _ hp =>
    rw [← afterEvent_calls]
    exact h'.handshake (by simpa using hp)
  | blockSize v _ => exact h'.frame id fun _ => ⟨rfl, rfl, rfl⟩
  | reset v _ _ => exact h'.resetRegisters v
  | nothing _ => exact h'

/-! ## How the bytes of IN, CALLS, OVR and STATUS change -/

/-- A host access while a command runs changes no byte of IN or OUT (R90, R94). -/
theorem State.hostAccess_busy_bytes {s : State} (hb : s.busy = true) (x : HostAccess) : SameBytes s (s.hostAccess x) := by
  intro a
  rw [(State.hostAccess_busy hb x).1]
  rfl

/-- A segment of LTGEN, EMEE or EMED writes no byte of IN (R223). -/
theorem Segment.keeps_in {s t : State} {b : Bool} {i : Instr} (h : Segment s b t) (hi : decode s.lastcmd = .ok i)
    (hu : usesCount i = true) {a : Nat} (ha : a < 0x1800) : t.byteAt a = s.byteAt a := by
  cases h with
  | stops _ _ => rfl
  | fails _ => rfl
  | completes j m _ hj _ _ hin =>
    obtain rfl : i = j := Except.ok.inj (hi.symm.trans hj)
    exact hin hu a ha
  | calls => rfl

/-- Settles O54: a segment of LTGEN, EMEE or EMED writes IN in none of its ways, and no other event but a reset writes a
byte while a command runs. -/
theorem transformNeverWritesIn : Obligations.TransformNeverWritesIn := by
  intro s t i h hs hb hr hi htr a ha
  have huse : usesCount i = true := by rcases htr with rfl | rfl | rfl <;> rfl
  have segment : ∀ {b}, Segment s.afterEvent b t → t.byteAt a = s.byteAt a := fun hseg =>
    (hseg.keeps_in (by simpa using hi) huse ha).trans (afterEvent_byteAt s a)
  cases h.stepEffect hs with
  | access x _ => rw [State.hostAccess_busy_bytes (by simpa using hb), afterEvent_byteAt]
  | turn _ _ hseg => exact segment hseg
  | answer _ _ _ hseg => exact segment hseg
  | handshake _ _ => exact afterEvent_byteAt s a
  | blockSize v _ => exact afterEvent_byteAt s a
  | reset v hv _ =>
    have hv' : v = true := hr
    simp [h.rstN_of_busy hb, hv'] at hv
  | nothing _ => exact afterEvent_byteAt s a

/-- What R42 says of CALLS in one step, beside its bound. -/
def CallsRule (s t : State) : Prop :=
  (s.phase = .idle → t.phase = .exec → t.calls = 0)
  ∧ (s.phase = .issue → t.phase = .await → t.calls = s.calls + 1)
  ∧ (t.rstN ≠ s.rstN → t.calls = 0)
  ∧ (t.calls ≠ s.calls → (s.phase = .idle ∧ t.phase = .exec) ∨ (s.phase = .issue ∧ t.phase = .await) ∨ t.rstN ≠ s.rstN)

/-- A step that is no accept and no handshake may keep CALLS. -/
theorem CallsRule.of_kept {s t : State} (hc : t.calls = s.calls) (hr : t.rstN = s.rstN)
    (hp : t.phase = s.phase ∨ (s.phase ≠ .idle ∧ s.phase ≠ .issue)) : CallsRule s t := by
  refine ⟨fun h1 h2 => ?_, fun h1 h2 => ?_, fun hn => absurd hr hn, fun hn => absurd hc hn⟩
  · rcases hp with hp | ⟨hp, -⟩
    · rw [hp, h1] at h2
      cases h2
    · exact absurd h1 hp
  · rcases hp with hp | ⟨-, hp⟩
    · rw [hp, h1] at h2
      cases h2
    · exact absurd h1 hp

theorem CallsRule.hostAccess {s : State} (h : MachineInv s) (x : HostAccess) :
    CallsRule s (s.afterEvent.hostAccess x) := by
  rcases s.afterEvent.hostAccess_inversion x with ⟨hr, hb, v, rfl⟩ | ⟨hr, v, rfl⟩ | e
  · have hp : s.phase = .idle := h.phase_idle (by simpa using hb)
    rw [State.hostAccess_cmd hr hb]
    simp [CallsRule, hp]
  · rw [State.hostAccess_status hr]
    exact .of_kept (by simp) (by simp) (.inl (by simp))
  · rw [e]
    exact .of_kept (by simp) (by simp) (.inl (by simp))

theorem CallsRule.segment {s t : State} {b : Bool} (hseg : Segment s.afterEvent b t) : CallsRule s t := by
  obtain ⟨hout, hcalls⟩ := hseg.frame
  refine .of_kept (by simpa using hcalls) (by simpa using hout.rstN) (.inr ?_)
  have hp := hseg.phase
  rw [afterEvent_phase] at hp
  rcases hp with hp | hp <;> rw [hp] <;> decide

/-- Settles O56: an accept clears CALLS, a handshake counts, a change of `rst_n` clears it, and every other way of a step
keeps it. -/
theorem callsChangesOnlyAsTheRuleSays : Obligations.CallsChangesOnlyAsTheRuleSays := by
  intro s t h hs
  have rule : CallsRule s t := by
    cases h.stepEffect hs with
    | access x _ => exact .hostAccess h x
    | turn _ _ hseg => exact .segment hseg
    | answer _ _ _ hseg => exact .segment hseg
    | handshake _ hp => simp [CallsRule, hp]
    | blockSize v _ => exact .of_kept (by simp) (by simp) (.inl (by simp))
    | reset v hv _ => simp [CallsRule, hv]
    | nothing _ => exact .of_kept (by simp) (by simp) (.inl (by simp))
  exact ⟨(everyStepKeepsTheInvariant s t h hs).calls, rule⟩

/-- What a host access does to OVR: nothing; or it is an input write dropped and sets it; or it writes STATUS (R36). -/
theorem State.hostAccess_ovr (s : State) (x : HostAccess) :
    (s.hostAccess x).ovr = s.ovr
    ∨ (s.busy = true ∧ InputWrite x ∧ (s.hostAccess x).ovr = true)
    ∨ ∃ v, x = { write := true, size := 2, addr := 0x008, wdata := v }
        ∧ (s.hostAccess x).ovr = (s.ovr && !v.getLsbD 3) := by
  rcases s.hostAccess_cases x with h | ⟨-, hl, hw, u, hu, h⟩ <;> rw [h]
  · exact .inl rfl
  · cases hu with
    | status ha => exact .inr (.inr ⟨_, HostAccess.eq_write hl hw ha, rfl⟩)
    | dropped hb ha => exact .inr (.inl ⟨hb, ⟨hl, hw, ha⟩, rfl⟩)
    | ignored => exact .inl rfl
    | ctrl _ => exact .inl rfl
    | accepted _ _ => exact .inl rfl
    | mlen _ => exact .inl rfl
    | tlen _ => exact .inl rfl
    | tweak _ _ => exact .inl rfl
    | bytes _ _ _ => exact .inl (by rw [s.putWord_memory])

theorem State.hostAccess_rstN (s : State) (x : HostAccess) : (s.hostAccess x).rstN = s.rstN := by
  rcases s.hostAccess_inversion x with ⟨hr, hb, v, rfl⟩ | ⟨hr, v, rfl⟩ | e
  · rw [State.hostAccess_cmd hr hb]; simp
  · rw [State.hostAccess_status hr]; simp
  · rw [e]

/-- No part of a command touches the host's registers and the pins (R94). -/
theorem Progress.outside {s t : State} (h : Progress s t) : SameOutside s t := by
  cases h with
  | stays => exact .refl s
  | fails _ _ _ => exact s.raiseError_outside _
  | completes m => exact (SameOutside.of_memory (t := { s with mem := m }) rfl).complete
  | calls => exact ⟨rfl, rfl, rfl, rfl, rfl, rfl, rfl, rfl, rfl, rfl, rfl⟩

theorem exec_outside {i : Instr} {s t : State} (h : exec i s = .next t) : SameOutside s t := by
  obtain ⟨u, hu, hp⟩ := exec_progress i s
  obtain rfl : u = t := Host.Outcome.next.inj (hu.symm.trans h)
  exact hp.outside

/-- From any state, a step that is no host access keeps OVR, or is a reset, which clears it. -/
theorem step_ovr {s t : State} (h : step s = .next t) :
    (∃ x, s.nextEvent = .host x ∧ t = s.afterEvent.hostAccess x)
    ∨ ((s.nextEvent = .resetLow ∨ s.nextEvent = .resetHigh) ∧ t.ovr = false)
    ∨ ((∀ x, s.nextEvent ≠ .host x) ∧ t.ovr = s.ovr ∧ t.rstN = s.rstN) := by
  rcases step_cases h with ⟨x, he, rfl⟩ | ⟨he, -, -, -, i, -, hx⟩ | ⟨he, -, -, -, rfl⟩ | ⟨he, -, -, rfl⟩
    | ⟨r, i, u, he, -, -, -, hx, rfl⟩ | ⟨v, he, rfl⟩ | ⟨he, -, rfl⟩ | ⟨he, -, rfl⟩ | ⟨he, rfl⟩
  · exact .inl ⟨x, he, rfl⟩
  · exact .inr (.inr ⟨by simp [he], by simpa using (exec_outside hx).ovr, by simpa using (exec_outside hx).rstN⟩)
  · exact .inr (.inr ⟨by simp [he], by simp, by simp⟩)
  · exact .inr (.inr ⟨by simp [he], by simp, by simp⟩)
  · exact .inr (.inr ⟨by simp [he], by simpa using (exec_outside hx).ovr, by simpa using (exec_outside hx).rstN⟩)
  · exact .inr (.inr ⟨by simp [he], by simp, by simp⟩)
  · exact .inr (.inl ⟨.inl he, rfl⟩)
  · exact .inr (.inl ⟨.inr he, rfl⟩)
  · exact .inr (.inr ⟨he, by simp, by simp⟩)

/-- Settles O57: OVR changes in a host access or a reset alone, and there as `hostAccess_ovr` says. -/
theorem ovrChangesOnlyAsTheRuleSays : Obligations.OvrChangesOnlyAsTheRuleSays := by
  intro s t hs
  refine ⟨fun h0 h1 => ?_, fun h1 h0 => ?_, fun hr hb ⟨x, he, hx⟩ => ?_, fun hr ⟨v, hv, he⟩ => ?_, fun hr => ?_⟩
  · rcases step_ovr hs with ⟨x, he, rfl⟩ | ⟨-, hc⟩ | ⟨-, hk, -⟩
    · rcases s.afterEvent.hostAccess_ovr x with e | ⟨hb, hx, -⟩ | ⟨v, -, e⟩
      · simp [e, h0] at h1
      · exact ⟨by simpa using hb, x, he, hx⟩
      · simp [e, h0] at h1
    · simp [hc] at h1
    · simp [hk, h0] at h1
  · rcases step_ovr hs with ⟨x, he, rfl⟩ | ⟨he, -⟩ | ⟨-, hk, -⟩
    · rcases s.afterEvent.hostAccess_ovr x with e | ⟨-, -, e⟩ | ⟨v, rfl, e⟩
      · simp [e, h1] at h0
      · simp [e] at h0
      · rw [e, afterEvent_ovr, h1, Bool.true_and, Bool.not_eq_false'] at h0
        exact .inr (.inr ⟨v, h0, he⟩)
    · exact he.imp_right .inl
    · simp [hk, h1] at h0
  · rw [eq_hostAccess_of_step hs he, State.hostAccess_inputWrite (by simpa using hr) (by simpa using hb) hx]
  · rw [eq_hostAccess_of_step hs he, State.hostAccess_status (by simpa using hr)]
    simp [hv]
  · rcases step_ovr hs with ⟨x, -, rfl⟩ | ⟨-, hc⟩ | ⟨-, -, hk⟩
    · exact absurd (by rw [State.hostAccess_rstN, afterEvent_rstN]) hr
    · exact hc
    · exact absurd hk hr

/-- How a step changes BUSY, DONE, RESULT_VALID and ERRCODE (R33 to R37), with the level of `rst_n`. -/
inductive StatusChange (s t : State) : Prop where
  | same : t.rstN = s.rstN → SameStatus s t → StatusChange s t
  | accept : s.busy = false → t.rstN = s.rstN →
      t.busy = true ∧ t.done = false ∧ t.resultValid = false ∧ t.errcode = .none ∧ t.phase = .exec → StatusChange s t
  | ends : s.busy = true → s.phase ≠ .issue → (Succeeded t ∨ ∃ e, e ≠ .none ∧ Failed e t) → t.rstN = s.rstN →
      StatusChange s t
  | clears (v : Word) : v.getLsbD 1 = true →
      s.nextEvent = .host { write := true, size := 2, addr := 0x008, wdata := v } →
      t = { s.afterEvent with done := false, ovr := t.ovr, hAnswer := t.hAnswer } → StatusChange s t
  | reset : t.rstN = !s.rstN → t.statusWord = 0 → s.nextEvent = .resetLow ∨ s.nextEvent = .resetHigh → StatusChange s t

theorem SameStatus.of_afterEvent {s t : State} (h : SameStatus s.afterEvent t) : SameStatus s t :=
  ⟨by simpa using h.busy, by simpa using h.done, by simpa using h.resultValid, by simpa using h.errcode⟩

theorem StatusChange.hostAccess {s : State} {x : HostAccess} (he : s.nextEvent = .host x) :
    StatusChange s (s.afterEvent.hostAccess x) := by
  have hk : (s.afterEvent.hostAccess x).rstN = s.rstN := by rw [State.hostAccess_rstN, afterEvent_rstN]
  rcases s.afterEvent.hostAccess_inversion x with ⟨hr, hb, v, rfl⟩ | ⟨hr, v, rfl⟩ | e
  · refine .accept (by simpa using hb) hk ?_
    rw [State.hostAccess_cmd hr hb]
    exact ⟨rfl, rfl, rfl, rfl, rfl⟩
  · cases hv : v.getLsbD 1 with
    | true =>
      refine .clears v hv he ?_
      rw [State.hostAccess_status hr, State.writeStatus, hv, Bool.not_true, Bool.and_false]
    | false =>
      refine .same hk (.of_afterEvent ?_)
      rw [State.hostAccess_status hr, State.writeStatus, hv, Bool.not_false, Bool.and_true]
      exact ⟨rfl, rfl, rfl, rfl⟩
  · refine .same hk (.of_afterEvent ?_)
    rw [e]
    exact ⟨rfl, rfl, rfl, rfl⟩

theorem StatusChange.segment {s t : State} {b : Bool} (h : MachineInv s) (hseg : Segment s.afterEvent b t) :
    StatusChange s t := by
  have hp := hseg.phase
  rw [afterEvent_phase] at hp
  have hne : s.phase ≠ .idle ∧ s.phase ≠ .issue := by rcases hp with hp | hp <;> rw [hp] <;> decide
  have hk : t.rstN = s.rstN := by simpa using hseg.frame.1.rstN
  rcases hseg.end_or_issue with hend | ⟨-, hsame⟩
  · exact .ends (h.busy.2 hne.1) hne.2 hend hk
  · exact .same hk hsame.of_afterEvent

theorem MachineInv.statusChange {s t : State} (h : MachineInv s) (hs : step s = .next t) : StatusChange s t := by
  cases h.stepEffect hs with
  | access x he => exact .hostAccess he
  | turn _ _ hseg => exact .segment h hseg
  | answer _ _ _ hseg => exact .segment h hseg
  | handshake _ _ => exact .same (by simp) (.of_afterEvent ⟨rfl, rfl, rfl, rfl⟩)
  | blockSize v _ => exact .same (by simp) (.of_afterEvent ⟨rfl, rfl, rfl, rfl⟩)
  | reset v hv he =>
    refine .reset (by simp [hv]) (State.statusWord_reset _ _) ?_
    cases v with
    | false => exact .inl he
    | true => exact .inr he
  | nothing _ => exact .same (by simp) (.of_afterEvent ⟨rfl, rfl, rfl, rfl⟩)

/-- Settles O58: the five ways of `StatusChange`; a step from a running command to an idle block out of reset can only be
the third. -/
theorem statusChangesOnlyAsTheRulesSay : Obligations.StatusChangesOnlyAsTheRulesSay := by
  intro s t h hs
  have change := h.statusChange hs
  refine ⟨?_, fun hr hb ⟨v, he⟩ => ?_, fun hp hidle hr => ?_, fun hr ⟨v, hv, he⟩ => ?_, fun hr => ?_⟩
  · cases change with
    | same _ hsame => exact .inl hsame
    | accept hb _ ht => exact .inr (.inl ⟨hb, ht⟩)
    | ends hb hp hend _ => exact .inr (.inr (.inl ⟨hb, hp, hend⟩))
    | clears v hv he ht => exact .inr (.inr (.inr (.inl ⟨ht, v, hv, he⟩)))
    | reset _ h0 he => exact .inr (.inr (.inr (.inr ⟨h0, he⟩)))
  · rw [eq_hostAccess_of_step hs he, State.hostAccess_cmd (by simpa using hr) (by simpa using hb)]
    exact ⟨rfl, rfl, rfl, rfl, rfl⟩
  · have hb := h.busy.2 hp
    have hstopped : t.busy ≠ true := fun hb' => (everyStepKeepsTheInvariant s t h hs).busy.1 hb' hidle
    cases change with
    | same _ hsame => exact absurd (hsame.busy.trans hb) hstopped
    | accept _ _ ht => exact absurd ht.1 hstopped
    | ends _ _ hend _ => exact hend
    | clears _ _ _ ht => exact absurd (by rw [ht]; simpa using hb) hstopped
    | reset hlevel _ _ => simp [hr, h.rstN_of_busy hb] at hlevel
  · rw [eq_hostAccess_of_step hs he, State.hostAccess_status (by simpa using hr)]
    simp [hv]
  · cases change with
    | same hk _ => exact absurd hk hr
    | accept _ hk _ => exact absurd hk hr
    | ends _ _ _ hk => exact absurd hk hr
    | clears _ _ _ ht => exact absurd (by rw [ht]; simp) hr
    | reset _ h0 _ => exact h0

end Sys2Proof.Machine
end

section
/-! PROOFS. The memory family: accesses to the window that are errors, ignored or dropped, reads of the buffers, and the
freezing of a running command's inputs and bytes. -/

namespace Sys2Proof.Machine

/-! ## Accesses that are errors, ignored or dropped -/

theorem regionOf_reserved {a : Offset} (h1 : 0x030 ≤ a.toNat) (h2 : a.toNat < 0x1000) : regionOf a = .reserved := by
  unfold regionOf
  repeat rw [if_neg (by omega)]
  rw [if_pos h2]

theorem regionOf_outBuffer {a : Offset} (h : 0x1800 ≤ a.toNat) : regionOf a = .outBuffer := by
  unfold regionOf
  repeat rw [if_neg (by omega)]

theorem Offset.eq_of_toNat {a : Offset} {n : Nat} (hn : n < 0x2000) (h : a.toNat = n) : a = BitVec.ofNat 13 n :=
  BitVec.eq_of_toNat_eq (by rw [h, BitVec.toNat_ofNat, Nat.mod_eq_of_lt hn])

/-- An illegal access and one at a reserved offset are answered with a bus error (R83, R88). -/
theorem State.answerTo_busError (s : State) {x : HostAccess} (h : x.legal = false ∨ regionOf x.addr = .reserved) :
    s.answerTo x = { rdata := 0, err := true } := by
  unfold State.answerTo
  cases hl : x.legal with
  | false => rfl
  | true =>
    have hr : regionOf x.addr = .reserved := h.resolve_left (by simp [hl])
    simp [State.readWord, hr]

/-- An access that is a bus error has no effect but its answer, out of reset and in it (R83, R88, R280). -/
theorem State.hostAccess_busError (s : State) {x : HostAccess} (h : x.legal = false ∨ regionOf x.addr = .reserved) :
    s.hostAccess x = { s with hAnswer := { rdata := 0, err := true } } := by
  have effect : (if x.legal && x.write then s.writeWord x.addr x.wdata else s) = s := by
    rcases h with h | h
    · simp [h]
    · simp [State.writeWord, h]
  unfold State.hostAccess State.accessInReset
  rw [effect, s.answerTo_busError h]
  split
  · rfl
  · rfl

/-- Settles O39: an access of the wrong size or alignment is illegal, and an offset in 0x030 .. 0x0FFF is reserved. -/
theorem busErrorsChangeNothing : Obligations.BusErrorsChangeNothing := by
  intro s x h
  apply State.hostAccess_busError
  rcases h with h | h | ⟨h1, h2⟩
  · exact .inl (Bool.eq_false_iff.2 fun hl => h (x.legal_iff.1 hl).1)
  · exact .inl (Bool.eq_false_iff.2 fun hl => h (x.legal_iff.1 hl).2)
  · exact .inr (regionOf_reserved h1 h2)

/-- Settles O40: the four regions are mapped, and a write to one has no effect. -/
theorem writesToReadOnlyAreIgnored : Obligations.WritesToReadOnlyAreIgnored := by
  intro s x hr hl hw ha
  have ignored : regionOf x.addr ≠ .reserved ∧ s.writeWord x.addr x.wdata = s := by
    unfold State.writeWord
    rcases ha with h | h | h | h
    · rw [Offset.eq_of_toNat (by decide) h]; exact ⟨by decide, rfl⟩
    · rw [Offset.eq_of_toNat (by decide) h]; exact ⟨by decide, rfl⟩
    · rw [Offset.eq_of_toNat (by decide) h]; exact ⟨by decide, rfl⟩
    · rw [regionOf_outBuffer h]; exact ⟨nofun, rfl⟩
  rw [HostAccess.eq_write hl hw rfl, State.hostAccess_write hr _ (x.legal_iff.1 hl).2 ignored.1, ignored.2]

/-- Settles O38, by the closed form of an input write while a command runs. -/
theorem writesToInputsAreDroppedWhileBusy : Obligations.WritesToInputsAreDroppedWhileBusy :=
  fun _ _ hr hb hx => State.hostAccess_inputWrite hr hb hx

/-! ## Reads of the buffers -/

/-- Byte `i` of a word made of four consecutive bytes (R86). -/
theorem wordByte_wordOf_consecutive (g : Nat → Byte) {i : Nat} (hi : i < 4) :
    wordByte (wordOf (g 0) (g 1) (g 2) (g 3)) i = g i := by
  obtain ⟨h0, h1, h2, h3⟩ := wordByte_wordOf (g 0) (g 1) (g 2) (g 3)
  interval_cases i
  · exact h0
  · exact h1
  · exact h2
  · exact h3

theorem State.wordByte_bufferWord (s : State) (a : Nat) {i : Nat} (hi : i < 4) :
    wordByte (s.bufferWord a) i = s.byteAt (a + i) :=
  wordByte_wordOf_consecutive (fun i => s.byteAt (a + i)) hi

theorem wordByte_blockWord (b : Block) (j : Nat) {i : Nat} (hi : i < 4) :
    wordByte (blockWord b j) i = byteOf b (4 * j + i) :=
  wordByte_wordOf_consecutive (fun i => byteOf b (4 * j + i)) hi

/-- A word of IN or OUT reads as its four bytes (R84, R86). -/
theorem State.readWord_buffer (s : State) {a : Offset} (h : 0x1000 ≤ a.toNat) :
    s.readWord a = some (s.bufferWord a.toNat) := by
  unfold State.readWord
  rcases Nat.lt_or_ge a.toNat 0x1800 with h2 | h2
  · rw [regionOf_inBuffer h h2]
  · rw [regionOf_outBuffer h2]

theorem State.readWord_tweak (s : State) {a : Offset} (h1 : 0x020 ≤ a.toNat) (h2 : a.toNat < 0x030) :
    s.readWord a = some (blockWord s.tweak ((a.toNat - 0x020) / 4)) := by
  rw [State.readWord, regionOf_tweak h1 h2]

/-- A legal read at a mapped offset, out of reset, is answered with the word (R84). -/
theorem State.hostAccess_read_answer {s : State} (hr : s.rstN = true) {a : Offset} {v : Word} (h4 : a.toNat % 4 = 0)
    (hv : s.readWord a = some v) :
    (s.hostAccess { write := false, size := 2, addr := a, wdata := 0 }).hAnswer = { rdata := v, err := false } := by
  rw [State.hostAccess_read hr rfl, State.answerTo_read h4 hv]

/-- Settles O42: the word read is made of consecutive bytes of the buffer, or of TWEAK from the offset's word on. -/
theorem buffersReadLittleEndian : Obligations.BuffersReadLittleEndian := by
  intro s a i hr h4 hi
  refine ⟨fun h => ?_, fun h1 h2 => ?_⟩
  · rw [State.hostAccess_read_answer hr h4 (s.readWord_buffer h)]
    exact ⟨rfl, s.wordByte_bufferWord a.toNat hi⟩
  · have aligned : a.toNat - 0x020 + i = 4 * ((a.toNat - 0x020) / 4) + i := by omega
    rw [State.hostAccess_read_answer hr h4 (s.readWord_tweak h1 h2), aligned]
    exact ⟨rfl, wordByte_blockWord s.tweak _ hi⟩

/-! ## A running command's inputs and results -/

/-- What R94, R95 and R255 say of one step of a running command. -/
def FreezeRule (s t : State) : Prop :=
  t.mlen = s.mlen ∧ t.tlen = s.tlen ∧ t.tweak = s.tweak ∧ t.lastcmd = s.lastcmd
  ∧ (t.busy = true ∨ t.resultValid = false → SameBytes s t)

theorem FreezeRule.of_afterEvent {s t : State} (h : FreezeRule s.afterEvent t) : FreezeRule s t := by
  obtain ⟨hm, hl, ht, hc, hbytes⟩ := h
  exact ⟨by simpa using hm, by simpa using hl, by simpa using ht, by simpa using hc,
    fun hu a => (hbytes hu a).trans (afterEvent_byteAt s a)⟩

/-- While a command runs every host write to its inputs is dropped (R90, R94). -/
theorem FreezeRule.hostAccess {s : State} (hb : s.busy = true) (x : HostAccess) : FreezeRule s (s.hostAccess x) := by
  refine ⟨?_, ?_, ?_, ?_, fun _ => State.hostAccess_busy_bytes hb x⟩ <;> rw [(State.hostAccess_busy hb x).1]

/-- A segment that does not complete the command writes no byte of IN or OUT (R95, R255). -/
theorem Segment.hides_results {s t : State} {b : Bool} (h : Segment s b t) (ht : t.busy = true ∨ t.resultValid = false) :
    SameBytes s t := by
  cases h with
  | stops _ _ => exact fun _ => rfl
  | fails _ => exact fun _ => rfl
  | completes => exact absurd ht (by simp)
  | calls => exact fun _ => rfl

theorem FreezeRule.segment {s t : State} {b : Bool} (h : Segment s b t) : FreezeRule s t := by
  obtain ⟨hout, -⟩ := h.frame
  exact ⟨hout.mlen, hout.tlen, hout.tweak, hout.lastcmd, h.hides_results⟩

/-- Settles O53, by the ways of a step: each but a reset freezes, and a running command is out of reset. -/
theorem aRunningCommandFreezesInputsAndHidesResults : Obligations.ARunningCommandFreezesInputsAndHidesResults := by
  intro s t h hs hb hr
  have rule : FreezeRule s t := by
    cases h.stepEffect hs with
    | access x _ => exact (FreezeRule.hostAccess (by simpa using hb) x).of_afterEvent
    | turn _ _ hseg => exact (FreezeRule.segment hseg).of_afterEvent
    | answer _ _ _ hseg => exact (FreezeRule.segment hseg).of_afterEvent
    | handshake _ _ => exact .of_afterEvent ⟨rfl, rfl, rfl, rfl, fun _ _ => rfl⟩
    | blockSize v _ => exact .of_afterEvent ⟨rfl, rfl, rfl, rfl, fun _ _ => rfl⟩
    | reset v hv _ =>
      obtain rfl : v = true := hr
      simp [h.rstN_of_busy hb] at hv
    | nothing _ => exact .of_afterEvent ⟨rfl, rfl, rfl, rfl, fun _ _ => rfl⟩
  exact rule

end Sys2Proof.Machine
end

section
/-! PROOFS. The transform, call by call: what the sequencer's stores hold while each of EME's calls is under way
(`EmeCall`), and a dutiful run of EMEE or EMED, which keeps it to the command's end (`TransformRun`). -/

namespace Sys2Proof.Machine

/-! ## What the stores hold at each call -/

section
variable (g : Block → Block) (e0 : Block) (dir : Dir) (t : Block) (m : Nat) (p : Nat → Block)

/-- `LT[0 .. m-1]` is the table of `e0` (R192). -/
def HoldsTable (c : Scratch) : Prop := ∀ i < m, c.ltAt i = lValue e0 i

/-- Call number `k` is one of those of `EME(dir)` on the `m` blocks `p` under tweak `t`, in the order of R219, and the
scratch `c` holds its request and every entry of LT and W and the MP that the rest of the transform reads (R212 to R217). -/
inductive EmeCall (k : Nat) (c : Scratch) : Prop where
  | table : k = 0 → c.req = { dir := .enc, data := 0 } → EmeCall k c
  | pass1 (j : Nat) : k = 1 + j → j < m → HoldsTable e0 m c →
      (∀ i < j, c.wAt i = pass1Value g e0 p i) →
      c.req = { dir := dir, data := p j ^^^ lValue e0 j } → EmeCall k c
  | fold : k = m + 1 → HoldsTable e0 m c →
      (∀ i < m, c.wAt i = pass1Value g e0 p i) →
      c.mp = mpValue g e0 t m p →
      c.req = { dir := dir, data := mpValue g e0 t m p } → EmeCall k c
  | pass3 (j : Nat) : k = m + 2 + j → j < m → HoldsTable e0 m c →
      (∀ i < j, c.wAt i = emeValue g e0 t m p i) →
      (∀ i < m, j ≤ i → c.wAt i = closureValue g e0 t m p i) →
      c.req = { dir := dir, data := closureValue g e0 t m p j } → EmeCall k c

variable {g e0 dir t m p}

/-- Storing the next entry of W extends the entries that hold a family's values. -/
theorem Scratch.wAt_putW_below {c : Scratch} {v : Nat → Block} {j : Nat} {b : Block} (h : ∀ i < j, c.wAt i = v i)
    (hb : b = v j) : ∀ i < j + 1, (c.putW j b).wAt i = v i := by
  intro i hi
  rw [Scratch.wAt_putW]
  split
  · next he => rw [he, hb]
  · exact h i (by omega)

/-- Where an answer that is no failure leads: to another of EME's calls, or from the last one to the commit of the
transform and success (R218). -/
def EmeNext (g : Block → Block) (e0 : Block) (dir : Dir) (t : Block) (m : Nat) (p : Nat → Block) (s u : State) : Prop :=
  (u.phase = .issue ∧ u.busy = s.busy ∧ EmeCall g e0 dir t m p u.k u.scratch)
  ∨ (s.k = 2 * m + 1 ∧ ∃ c w, u = (State.commitOut { s with scratch := c } m w).complete
    ∧ ∀ j < m, w j = emeValue g e0 t m p j)

variable {s : State} {y : Block}

/-- After call 0: the table, and pass 1 from block 0 on (R212, R213). -/
theorem emeTable_next (hm : s.scratch.m.toNat = m) (h1 : 1 ≤ m) (hp : s.inBlock 0 = p 0) (hy : y = e0) :
    EmeNext g e0 dir t m p s (emeTable dir y s) := by
  have hlt : HoldsTable e0 m (genL s.scratch.m.toNat y s.scratch) := fun i hi => by
    rw [hm, genL_ltAt y _ hi, hy, lValue]
  refine .inl ⟨rfl, rfl, .pass1 0 rfl h1 hlt (by simp) ?_⟩
  show Req.mk dir (xorBlocks (s.inBlock 0) ((genL s.scratch.m.toNat y s.scratch).ltAt 0)) = _
  rw [xorBlocks_eq, hp, hlt 0 h1]

/-- After pass 1's call for block `j`: its next call or the fold's (R213, R214). -/
theorem emePass1_next {j : Nat} (hm : s.scratch.m.toNat = m) (hj : j < m) (hp : ∀ i < m, s.inBlock i = p i)
    (ht : s.tweak = t) (hlt : HoldsTable e0 m s.scratch) (hw : ∀ i < j, s.scratch.wAt i = pass1Value g e0 p i)
    (hy : y = pass1Value g e0 p j) : EmeNext g e0 dir t m p s (emePass1 dir j y s) := by
  have hw' := Scratch.wAt_putW_below hw hy
  unfold emePass1
  dsimp only
  split
  · next hn =>
    refine .inl ⟨rfl, rfl, .pass1 (j + 1) rfl (hm ▸ hn) hlt hw' ?_⟩
    show Req.mk dir (xorBlocks (s.inBlock (j + 1)) (s.scratch.ltAt (j + 1))) = _
    rw [xorBlocks_eq, hp _ (hm ▸ hn), hlt _ (hm ▸ hn)]
  · next hn =>
    obtain rfl : m = j + 1 := by omega
    have hmp : foldMp s.scratch.m.toNat s.tweak (s.scratch.putW j y) = mpValue g e0 t (j + 1) p := by
      rw [hm, ht, foldMp_eq _ _ (by omega), xorSum_congr hw', mpValue]
    refine .inl ⟨rfl, rfl, .fold (by show s.scratch.m.toNat + 1 = _; rw [hm]) hlt hw' hmp ?_⟩
    exact congrArg (Req.mk dir) hmp

/-- After the fold's call: pass 2, the closure, and pass 3 from block 0 on (R214 to R217). -/
theorem emeMix_next (hm : s.scratch.m.toNat = m) (h1 : 1 ≤ m) (ht : s.tweak = t)
    (hlt : HoldsTable e0 m s.scratch) (hw : ∀ i < m, s.scratch.wAt i = pass1Value g e0 p i)
    (hmp : s.scratch.mp = mpValue g e0 t m p) (hy : y = g (mpValue g e0 t m p)) :
    EmeNext g e0 dir t m p s (emeMix dir y s) := by
  have hmix : ∀ i < m, (mixScratch s.scratch.m.toNat s.tweak y s.scratch).wAt i = closureValue g e0 t m p i := by
    intro i hi
    rw [mixScratch_wAt, hm, ht, hmp, hy, closureValue]
    split
    · rw [xorSum_congr fun n hn => by rw [hw (n + 1) (by omega), ← pass2Value]]
    · rw [hw i hi, pass2Value]
  refine .inl ⟨rfl, rfl, .pass3 0 ?_ h1 ?_ (by simp) (fun i hi _ => hmix i hi) (congrArg (Req.mk dir) (hmix 0 h1))⟩
  · show (mixScratch s.scratch.m.toNat s.tweak y s.scratch).m.toNat + 2 + 0 = _
    rw [mixScratch_m, hm]
  · intro i hi
    rw [← hlt i hi]
    show (cellAt i (mixScratch s.scratch.m.toNat s.tweak y s.scratch).lt).getD _ = _
    rw [mixScratch_lt]
    rfl

/-- After pass 3's call for block `j`: its next call, or the commit (R217, R218). -/
theorem emePass3_next {j : Nat} (hk : s.k = m + 2 + j) (hm : s.scratch.m.toNat = m) (hj : j < m)
    (hlt : HoldsTable e0 m s.scratch) (hw : ∀ i < j, s.scratch.wAt i = emeValue g e0 t m p i)
    (hw' : ∀ i < m, j ≤ i → s.scratch.wAt i = closureValue g e0 t m p i)
    (hy : y = g (closureValue g e0 t m p j)) : EmeNext g e0 dir t m p s (emePass3 dir j y s) := by
  have hout : ∀ i < j + 1, (s.scratch.putW j (xorBlocks y (s.scratch.ltAt j))).wAt i = emeValue g e0 t m p i :=
    Scratch.wAt_putW_below hw (by rw [xorBlocks_eq, hy, hlt j hj, emeValue])
  have hrest : ∀ i < m, j + 1 ≤ i → (s.scratch.putW j (xorBlocks y (s.scratch.ltAt j))).wAt i
      = closureValue g e0 t m p i := fun i hi hji => by
    rw [Scratch.wAt_putW, if_neg (by omega), hw' i hi (by omega)]
  unfold emePass3
  dsimp only
  split
  · next hn =>
    refine .inl ⟨rfl, rfl, .pass3 (j + 1) ?_ (hm ▸ hn) hlt hout hrest ?_⟩
    · show s.scratch.m.toNat + 2 + (j + 1) = _
      rw [hm]
    · exact congrArg (Req.mk dir) (hrest (j + 1) (hm ▸ hn) (Nat.le_refl _))
  · next hn =>
    exact .inr ⟨by omega, _, _, by rw [hm], fun i hi => hout i (by omega)⟩

/-- The answer to one of EME's calls with `f` of its request leads where `EmeNext` says. -/
theorem EmeCall.answered {f : Dir → Block → Block} (h : EmeCall (f dir) (f .enc 0) dir t m p s.k s.scratch)
    (hm : s.scratch.m.toNat = m) (h1 : 1 ≤ m) (ht : s.tweak = t) (hp : ∀ i < m, s.inBlock i = p i)
    (hy : y = f s.scratch.req.dir s.scratch.req.data) :
    EmeNext (f dir) (f .enc 0) dir t m p s (emeAnswered dir y s) := by
  unfold emeAnswered
  dsimp only
  cases h with
  | table hk hreq =>
    rw [if_pos hk]
    exact emeTable_next hm h1 (hp 0 h1) (by rw [hy, hreq])
  | pass1 j hk hj hlt hw hreq =>
    rw [if_neg (by omega), if_pos (by omega), show s.k - 1 = j by omega]
    exact emePass1_next hm hj hp ht hlt hw (by rw [hy, hreq, pass1Value])
  | fold hk hlt hw hmp hreq =>
    rw [if_neg (by omega), if_neg (by omega), if_pos (by omega)]
    exact emeMix_next hm h1 ht hlt hw hmp (by rw [hy, hreq])
  | pass3 j hk hj hlt hw hw' hreq =>
    rw [if_neg (by omega), if_neg (by omega), if_neg (by omega), if_pos (by omega),
      show s.k - (s.scratch.m.toNat + 2) = j by omega]
    exact emePass3_next hk hm hj hlt hw hw' (by rw [hy, hreq])

end

/-! ## A dutiful run of EMEE or EMED -/

/-- EMEE and EMED are one routine in two directions (R210, R220, R221). -/
theorem exec_transform {i : Instr} (hi : i = .emee ∨ i = .emed) (s : State) :
    exec i s = withCalls s emeStart (emeAnswered (directionOf i)) := by
  rcases hi with rfl | rfl
  · exact exec_emee s
  · exact exec_emed s

theorem decode_encode_transform {i : Instr} (hi : i = .emee ∨ i = .emed) : decode (encode i) = .ok i := by
  rcases hi with rfl | rfl <;> decide

theorem usesCount_transform {i : Instr} (hi : i = .emee ∨ i = .emed) : usesCount i = true := by
  rcases hi with rfl | rfl <;> rfl

/-- `EME` up to its first call: an error of its checks, or the call for the table (R211, R212). -/
theorem emeStart_cases (s : State) :
    (∃ e, e ≠ .none ∧ emeStart s = s.raiseError e) ∨ emeStart s = s.latchCount.cipherCall 0 .enc 0 := by
  rcases checked_codes (s := s) (checks := [s.checkBlockSize, s.checkTweak, s.checkMessageLength])
    (body := fun s => s.latchCount.cipherCall 0 .enc 0) (by simp) with ⟨e, h, he⟩ | ⟨-, h⟩
  · exact .inl ⟨e, by rcases he with rfl | rfl | rfl <;> decide, h⟩
  · exact .inr h

/-- How a transform ends: with success and its value in OUT, or with an error and no byte changed (R95, R218, R228). -/
def TransformEnd (f : Dir → Block → Block) (i : Instr) (m : Nat) (s t : State) : Prop :=
  (Succeeded t ∧ t.calls.toNat = 2 * m + 2
    ∧ (∀ j < m, t.outBlock j = emeValue (f (directionOf i)) (f .enc 0) s.tweak m s.inBlock j)
    ∧ SameBytesOutside 0x1800 (16 * m) s t)
  ∨ (∃ e, e ≠ .none ∧ Failed e t ∧ SameBytes s t)

/-- Where the transform `i` accepted in `s` stands in `t`: in a call its stores are the transform's, and an end is one of
`TransformEnd`. -/
structure TransformStage (f : Dir → Block → Block) (i : Instr) (m : Nat) (s t : State) : Prop where
  inCall : t.phase = .issue ∨ t.phase = .await →
    EmeCall (f (directionOf i)) (f .enc 0) (directionOf i) s.tweak m s.inBlock t.k t.scratch
  ended : t.busy = false → TransformEnd f i m s t

section
variable {f : Dir → Block → Block} {i : Instr} {m : Nat} {s t u : State}

/-- A step that goes on with the same call index and scratch keeps the stage. -/
theorem TransformStage.keep (h : TransformStage f i m s t) (hb : u.busy = true)
    (hp : u.phase = .issue ∨ u.phase = .await → t.phase = .issue ∨ t.phase = .await) (hk : u.k = t.k)
    (hc : u.scratch = t.scratch) : TransformStage f i m s u where
  inCall hu := by rw [hk, hc]; exact h.inCall (hp hu)
  ended hu := by simp [hb] at hu

/-- A raised error is an end that changes no byte (R255). -/
theorem TransformStage.raiseError (hbytes : SameBytes s t) {e : ErrCode} (he : e ≠ .none) :
    TransformStage f i m s (t.raiseError e) where
  inCall := nofun
  ended _ := .inr ⟨e, he, t.raiseError_failed e, hbytes⟩

/-- The EXEC step of a transform. -/
theorem TransformStage.exec_start (hi : i = .emee ∨ i = .emed) (hp : t.phase = .exec) (hb : t.busy = true)
    (hbytes : SameBytes s t) (hx : exec i t = .next u) : TransformStage f i m s u := by
  rw [exec_transform hi, withCalls_exec hp] at hx
  obtain rfl := Host.Outcome.next.inj hx
  rcases emeStart_cases t with ⟨e, he, h⟩ | h <;> rw [h]
  · exact .raiseError hbytes he
  · exact ⟨fun _ => .table rfl rfl, fun hu => by simp [hb] at hu⟩

theorem SameBytes.inBlock (h : SameBytes s t) (j : Nat) : t.inBlock j = s.inBlock j :=
  blockOf_congr fun k _ => h (inOffset j + k)

/-- The response step of a transform in a call, answered by `f` or by a failure. -/
theorem TransformStage.exec_answer {r : Response} (hi : i = .emee ∨ i = .emed) (hp : t.phase = .await)
    (hb : t.busy = true) (hr : t.rsp = some r) (hy : r.err = false → r.data = f t.scratch.req.dir t.scratch.req.data)
    (hs : TransformStage f i m s t) (hm : t.scratch.m.toNat = m) (h1 : 1 ≤ m) (ht : t.tweak = s.tweak)
    (hcalls : t.calls.toNat = t.k + 1) (hbytes : SameBytes s t) (hx : exec i t = .next u) :
    TransformStage f i m s { u with rsp := none } := by
  obtain ⟨err, y⟩ := r
  rw [exec_transform hi] at hx
  cases err with
  | true =>
    rw [withCalls_failure hp hr] at hx
    obtain rfl := Host.Outcome.next.inj hx
    exact .raiseError (t := { t with rsp := none }) (e := .underlyingCipherFailure) hbytes (by decide)
  | false =>
    rw [withCalls_answer hp hr] at hx
    obtain rfl := Host.Outcome.next.inj hx
    rcases (hs.inCall (.inr hp)).answered hm h1 ht (fun j _ => hbytes.inBlock j) (hy rfl) with
      ⟨-, hbu, hc⟩ | ⟨hk, c, w, hu, hw⟩
    · exact ⟨fun _ => hc, fun hu => by simp [hbu, hb] at hu⟩
    · rw [hu]
      refine ⟨nofun, fun _ => .inl ⟨⟨rfl, rfl, rfl, rfl, rfl⟩, ?_, fun j hj => ?_, fun a ha => ?_⟩⟩
      · show (State.commitOut { t with scratch := c } m w).calls.toNat = _
        rw [State.commitOut_calls, hcalls, hk]
      · exact (State.outBlock_commitOut { t with scratch := c } w hj).trans (hw j hj)
      · exact (State.commitOut_bytes { t with scratch := c } m w a ha).trans (hbytes a)

/-- While a command runs a host access leaves the sequencer alone (R90). -/
theorem State.hostAccess_busy_sequencer (hb : s.busy = true) (x : HostAccess) :
    (s.hostAccess x).busy = true ∧ (s.hostAccess x).phase = s.phase ∧ (s.hostAccess x).k = s.k
    ∧ (s.hostAccess x).scratch = s.scratch := by
  rw [(State.hostAccess_busy hb x).1]
  exact ⟨hb, rfl, rfl, rfl⟩

/-- What holds of a dutiful run of the transform `i` from its accept in `s`: the invariant; its inputs and all bytes stand
while it runs (R94, R95); and its stage. -/
structure TransformRun (f : Dir → Block → Block) (i : Instr) (m : Nat) (s t : State) : Prop where
  inv : MachineInv t
  frozen : t.busy = true → t.mlen = s.mlen ∧ t.tweak = s.tweak ∧ t.lastcmd = s.lastcmd ∧ SameBytes s t
  stage : TransformStage f i m s t

theorem TransformRun.decodes (h : TransformRun f i m s t) (hi : i = .emee ∨ i = .emed) (hacc : Accepted i s)
    (hb : t.busy = true) : decode t.lastcmd = .ok i := by
  obtain ⟨-, -, hlast, -⟩ := h.frozen hb
  rw [hlast, hacc.command, decode_encode_transform hi]

/-- CUR holds the accepted command. -/
theorem TransformRun.eq_of_currentCommand {j : Instr} (h : TransformRun f i m s t) (hi : i = .emee ∨ i = .emed)
    (hacc : Accepted i s) (hb : t.busy = true) (hj : t.currentCommand = some j) : j = i := by
  obtain ⟨-, -, -, hcur⟩ := h.inv.running (h.inv.busy.1 hb)
  exact Option.some.inj (hj.symm.trans (currentCommand_of_decode hcur (h.decodes hi hacc hb)))

/-- The block count latched is the accepted one, and CALLS counts the accepted requests (R42, R258). -/
theorem TransformRun.counts (h : TransformRun f i m s t) (hi : i = .emee ∨ i = .emed) (hacc : Accepted i s)
    (hready : TransformReady m s) (hb : t.busy = true) (hp : t.phase = .await) :
    t.scratch.m.toNat = m ∧ t.calls.toNat = t.k + 1 := by
  obtain ⟨hcalls, j, hin⟩ := h.inv.atAwait hp
  obtain rfl : j = i := Except.ok.inj (hin.command.symm.trans (h.decodes hi hacc hb))
  obtain ⟨hm, -, -⟩ := hin.count (usesCount_transform hi)
  obtain ⟨hmlen, -⟩ := h.frozen hb
  rw [hmlen, hready.length] at hm
  exact ⟨by omega, hcalls⟩

/-- A dutiful step of a transform that runs leads to a stage of it. -/
theorem TransformRun.step_stage {e : Event} (h : TransformRun f i m s t) (hi : i = .emee ∨ i = .emed)
    (hacc : Accepted i s) (hready : TransformReady m s) (hb : t.busy = true) (hd : Dutiful f t e)
    (hs : stepWith e t = .next u) : TransformStage f i m s u := by
  obtain ⟨-, htweak, -, hbytes⟩ := h.frozen hb
  rcases step_cases hs with ⟨x, -, rfl⟩ | ⟨-, -, hp, -, j, hj, hx⟩ | ⟨-, -, -, -, rfl⟩ | ⟨-, -, hp, rfl⟩
    | ⟨r, j, v, he, -, hp, hj, hx, rfl⟩ | ⟨v, -, rfl⟩ | ⟨he, -, -⟩ | ⟨he, -, -⟩ | ⟨-, rfl⟩
  · obtain ⟨hbu, hpu, hku, hcu⟩ := State.hostAccess_busy_sequencer (s := { t with inputs := [] }) hb x
    exact h.stage.keep hbu (fun hu => hpu ▸ hu) hku hcu
  · obtain rfl := h.eq_of_currentCommand hi hacc hb hj
    exact .exec_start (t := { t with inputs := [] }) hi hp hb hbytes hx
  · exact .raiseError (t := { t with inputs := [] }) (e := .illegalCommand) hbytes (by decide)
  · exact h.stage.keep hb (fun _ => .inl hp) rfl rfl
  · obtain rfl := h.eq_of_currentCommand hi hacc hb hj
    obtain rfl : e = .rsp r := he
    obtain ⟨hm, hcalls⟩ := h.counts hi hacc hready hb hp
    exact TransformStage.exec_answer (t := { t with inputs := [], rsp := some r }) hi hp hb rfl hd
      (h.stage.keep hb id rfl rfl) hm hready.positive htweak hcalls hbytes hx
  · exact h.stage.keep hb id rfl rfl
  · obtain rfl : e = .resetLow := he
    exact hd.elim
  · obtain rfl : e = .resetHigh := he
    exact hd.elim
  · exact h.stage.keep hb id rfl rfl

theorem TransformRun.step {e : Event} (h : TransformRun f i m s t) (hi : i = .emee ∨ i = .emed) (hacc : Accepted i s)
    (hready : TransformReady m s) (hb : t.busy = true) (hd : Dutiful f t e) (hs : stepWith e t = .next u) :
    TransformRun f i m s u := by
  have ht : MachineInv { t with inputs := [e] } := h.inv.frame id fun _ => ⟨rfl, rfl, rfl⟩
  have hu := everyStepKeepsTheInvariant _ _ ht hs
  refine ⟨hu, fun hbu => ?_, h.step_stage hi hacc hready hb hd hs⟩
  obtain ⟨hm, htw, hl, hby⟩ := h.frozen hb
  obtain ⟨gm, -, gtw, gl, gby⟩ := aRunningCommandFreezesInputsAndHidesResults _ _ ht hs hb (hu.rstN_of_busy hbu)
  exact ⟨gm.trans hm, gtw.trans htw, gl.trans hl, fun a => (gby (.inl hbu) a).trans (hby a)⟩

/-- At its accept a transform is in no call and has not ended. -/
theorem TransformRun.start (hinv : MachineInv s) (hacc : Accepted i s) : TransformRun f i m s s where
  inv := hinv
  frozen _ := ⟨rfl, rfl, rfl, fun _ => rfl⟩
  stage := ⟨fun h => by simp [hacc.phase] at h, fun h => by simp [hacc.busy] at h⟩

theorem TransformRun.of_commandRun (hi : i = .emee ∨ i = .emed) (hinv : MachineInv s) (hacc : Accepted i s)
    (hready : TransformReady m s) (hrun : CommandRun f s t) : TransformRun f i m s t := by
  induction hrun with
  | start => exact .start hinv hacc
  | more _ hb hd hs ih => exact ih.step hi hacc hready hb hd hs

end

/-- Settles O32: the end of a dutiful run, by induction on the run (`TransformRun.of_commandRun`). -/
theorem transformIsRightUnderEveryInterleaving : Obligations.TransformIsRightUnderEveryInterleaving := by
  intro f s t m i hi hinv hacc hready hrun hb
  exact (TransformRun.of_commandRun hi hinv hacc hready hrun).stage.ended hb

end Sys2Proof.Machine
end

section
/-! PROOFS. The encoding family: legality in terms of the word's fields and of its number, the decoder and the encoder as
inverses, the block addresses, and the EXEC step of an illegal word. -/

namespace Sys2Proof.Machine

/-! ## Legality -/

section
variable (w : Word)

/-- R114, opcode by opcode. -/
theorem unusedFieldsZero_iff : unusedFieldsZero w = true ↔
    ((fieldOp w).toNat ∈ [0, 5, 6, 7] → fieldDst w = 0 ∧ fieldSrca w = 0 ∧ fieldSrcb w = 0)
    ∧ ((fieldOp w).toNat ∈ [1, 3, 4] → fieldSrcb w = 0) := by
  unfold unusedFieldsZero
  split <;> simp_all [and_assoc]

/-- R117 on the fields of the word. -/
theorem legal_iff : legal w = true ↔ (fieldOp w).toNat ≤ 7 ∧ fieldRsv w = 0
    ∧ ((fieldOp w).toNat ∈ [0, 5, 6, 7] → fieldDst w = 0 ∧ fieldSrca w = 0 ∧ fieldSrcb w = 0)
    ∧ ((fieldOp w).toNat ∈ [1, 3, 4] → fieldSrcb w = 0) := by
  rw [legal, Bool.and_eq_true, Bool.and_eq_true, decide_eq_true_eq, beq_iff_eq, unusedFieldsZero_iff, and_assoc]

theorem fieldOp_toNat : (fieldOp w).toNat = w.toNat % 16 := by
  simp [fieldOp]

/-- A field of a word is 0 exactly when these bits of its number are. -/
theorem field_eq_zero_iff (k n : Nat) : w.extractLsb' k n = 0 ↔ w.toNat / 2 ^ k % 2 ^ n = 0 := by
  rw [← BitVec.toNat_inj]
  simp [Nat.shiftRight_eq_div_pow]

theorem fieldRsv_eq_zero_iff : fieldRsv w = 0 ↔ w.toNat / 16 % 16 = 0 := field_eq_zero_iff w 4 4

/-- SRCB is the top byte of the word (R110). -/
theorem fieldSrcb_eq_zero_iff : fieldSrcb w = 0 ↔ w.toNat / 2 ^ 24 = 0 := by
  have hw : w.toNat < 2 ^ 32 := w.isLt
  rw [fieldSrcb, field_eq_zero_iff]
  omega

/-- DST, SRCA and SRCB are together bits 31:8 of the word (R110). -/
theorem operandFields_eq_zero_iff :
    fieldDst w = 0 ∧ fieldSrca w = 0 ∧ fieldSrcb w = 0 ↔ w.toNat / 256 = 0 := by
  rw [fieldDst, field_eq_zero_iff, fieldSrca, field_eq_zero_iff, fieldSrcb_eq_zero_iff]
  omega

end

/-! ## Decoding and encoding -/

/-- A word decodes to the command its fields select exactly when it is legal (R118). -/
theorem decode_ok_iff {w : Word} {i : Instr} : decode w = .ok i ↔
    legal w = true ∧ commandOf (fieldOp w) (fieldDst w) (fieldSrca w) (fieldSrcb w) = some i := by
  refine ⟨decode_ok, fun ⟨hl, hi⟩ => ?_⟩
  obtain ⟨j, hj⟩ := decode_of_legal hl
  obtain rfl : j = i := Option.some.inj ((decode_ok hj).2.symm.trans hi)
  exact hj

theorem legal_iff_decodes (w : Word) : legal w = true ↔ ∃ i, decode w = .ok i :=
  ⟨decode_of_legal, fun ⟨_, h⟩ => (decode_ok h).1⟩

theorem legal_encode (i : Instr) : legal (encode i) = true := by
  cases i with
  | nop => exact Laws.EncodeLegal.nop
  | dbl d s => exact Laws.EncodeLegal.dbl d s
  | xor d a b => exact Laws.EncodeLegal.xor d a b
  | bce d s => exact Laws.EncodeLegal.bce d s
  | bcd d s => exact Laws.EncodeLegal.bcd d s
  | ltgen => exact Laws.EncodeLegal.ltgen
  | emee => exact Laws.EncodeLegal.emee
  | emed => exact Laws.EncodeLegal.emed

/-- The fields of an encoding select the command encoded. -/
theorem commandOf_encode (i : Instr) :
    commandOf (fieldOp (encode i)) (fieldDst (encode i)) (fieldSrca (encode i)) (fieldSrcb (encode i)) = some i := by
  cases i <;>
    simp [encode, fieldOp_packWord, fieldDst_packWord, fieldSrca_packWord, fieldSrcb_packWord, commandOf]

theorem decode_encode (i : Instr) : decode (encode i) = .ok i := decode_ok_iff.2 ⟨legal_encode i, commandOf_encode i⟩

/-- The map of R112, read backwards: the opcode of a command selected, and its operands. -/
theorem commandOf_cases {op : BitVec 4} {d a b : BlockAddr} {i : Instr} (h : commandOf op d a b = some i) :
    (op = 0 ∧ i = .nop) ∨ (op = 1 ∧ i = .dbl d a) ∨ (op = 2 ∧ i = .xor d a b) ∨ (op = 3 ∧ i = .bce d a)
    ∨ (op = 4 ∧ i = .bcd d a) ∨ (op = 5 ∧ i = .ltgen) ∨ (op = 6 ∧ i = .emee) ∨ (op = 7 ∧ i = .emed) := by
  unfold commandOf at h
  split at h <;> simp_all [← BitVec.toNat_inj]

/-- Fields that select a command, with RSV and the unused ones 0, are packed to that command's encoding. -/
theorem packWord_eq_encode {op : BitVec 4} {d a b : BlockAddr} {i : Instr} (hi : commandOf op d a b = some i)
    (hnone : op.toNat ∈ [0, 5, 6, 7] → d = 0 ∧ a = 0 ∧ b = 0) (htwo : op.toNat ∈ [1, 3, 4] → b = 0) :
    packWord op 0 d a b = encode i := by
  rcases commandOf_cases hi with ⟨rfl, rfl⟩ | ⟨rfl, rfl⟩ | ⟨rfl, rfl⟩ | ⟨rfl, rfl⟩ | ⟨rfl, rfl⟩ | ⟨rfl, rfl⟩
    | ⟨rfl, rfl⟩ | ⟨rfl, rfl⟩
  · obtain ⟨rfl, rfl, rfl⟩ := hnone (by decide)
    rfl
  · obtain rfl := htwo (by decide)
    rfl
  · rfl
  · obtain rfl := htwo (by decide)
    rfl
  · obtain rfl := htwo (by decide)
    rfl
  · obtain ⟨rfl, rfl, rfl⟩ := hnone (by decide)
    rfl
  · obtain ⟨rfl, rfl, rfl⟩ := hnone (by decide)
    rfl
  · obtain ⟨rfl, rfl, rfl⟩ := hnone (by decide)
    rfl

/-- A legal word is packed from its fields (`packWord_fields`), so it is the encoding of the command they select. -/
theorem eq_encode_of_decode {w : Word} {i : Instr} (h : decode w = .ok i) : w = encode i := by
  obtain ⟨hl, hi⟩ := decode_ok h
  obtain ⟨-, hrsv, hnone, htwo⟩ := (legal_iff w).1 hl
  rw [← packWord_eq_encode hi hnone htwo, ← hrsv, packWord_fields]

/-- Settles O1: the encoding is legal and its fields select the command; a legal word is packed from these fields. -/
theorem decodeAndEncodeAgree : Obligations.DecodeAndEncodeAgree :=
  ⟨decode_encode, fun _ _ => eq_encode_of_decode⟩

/-- Settles O2: the clauses of R117 on the fields are those on the number, field by field. -/
theorem legalWordsAreThoseOfTheRule : Obligations.LegalWordsAreThoseOfTheRule := by
  intro w
  refine ⟨?_, legal_iff_decodes w⟩
  rw [legal_iff, operandFields_eq_zero_iff, fieldOp_toNat, fieldRsv_eq_zero_iff, fieldSrcb_eq_zero_iff]

/-- Settles O3: each word evaluated. -/
theorem wordsOfTheSpecDecode : Obligations.WordsOfTheSpecDecode := by
  unfold Obligations.WordsOfTheSpecDecode
  decide

/-! ## Block addresses -/

theorem State.blk_putBlk (s : State) (d x : BlockAddr) (b : Block) :
    (s.putBlk d b).blk x = if x = d then b else s.blk x := by
  split
  · next h => rw [h, State.blk_putBlk_self]
  · next h => exact s.blk_putBlk_ne b h

/-- Address `j` is IN[j] (R115). -/
theorem State.blk_inBlock (s : State) {j : Nat} (hj : j < 128) : s.blk (BitVec.ofNat 8 j) = s.inBlock j := by
  rw [State.blk, State.inBlock, blkOffset_eq, inOffset, BitVec.toNat_ofNat, Nat.mod_eq_of_lt (by omega)]

/-- Address `0x80 + j` is OUT[j] (R115). -/
theorem State.blk_outBlock (s : State) {j : Nat} (hj : j < 128) : s.blk (BitVec.ofNat 8 (0x80 + j)) = s.outBlock j := by
  rw [State.blk, State.outBlock, blkOffset_eq, outOffset, BitVec.toNat_ofNat, Nat.mod_eq_of_lt (by omega)]
  congr 1
  omega

/-- Settles O12: read after write over the addresses, their split into IN and OUT, and the bytes' offsets (R80, R87). -/
theorem blockAddressesNameDistinctBlocks : Obligations.BlockAddressesNameDistinctBlocks :=
  ⟨State.blk_putBlk, fun s _ hj => ⟨s.blk_inBlock hj, s.blk_outBlock hj⟩,
    fun s _ _ _ hk => ⟨s.byteOf_blockAt _ hk, s.byteOf_blockAt _ hk⟩⟩

/-! ## The EXEC step of an illegal word -/

/-- The EXEC step on an illegal word raises ILLEGAL_COMMAND (R117, R174). -/
theorem execStep_illegal {s : State} (hp : s.phase = .exec) (hl : legal s.lastcmd = false) :
    execStep s = .next (s.raiseError .illegalCommand) := by
  rcases execStep_cases s with ⟨-, _, -, hlegal, -⟩ | ⟨-, -, h⟩ | ⟨hne, -⟩
  · simp [hl] at hlegal
  · exact h
  · exact absurd hp hne

theorem step_illegal {s : State} (hr : s.rstN = true) (hp : s.phase = .exec) (he : s.nextEvent = .sequencer)
    (hl : legal s.lastcmd = false) : step s = .next (s.afterEvent.raiseError .illegalCommand) := by
  rw [step, he, react, if_pos (by simp [hr]), execStep_illegal (by simp [hp]) (by simp [hl])]

/-- Settles O7: the step raises code 6 (`step_illegal`), with the frame of every error end. -/
theorem illegalWordEndsWithCode6 : Obligations.IllegalWordEndsWithCode6 := fun s hr hp he hl =>
  ⟨_, step_illegal hr hp he hl, State.raiseError_failed _ _, by simp, State.raiseError_outside _ _, fun a => by simp⟩

end Sys2Proof.Machine
end

section
/-! PROOFS. The field family: the doubler byte by byte, as a shift of the block's number, and as a linear bijection; the
number of a packed word; the commands NOP, DBL and XOR (spec 40_field_ops.md rules R140 to R146). -/

namespace Sys2Proof.Machine

/-! ## The doubler, byte by byte (R140) -/

theorem byteOf_double_zero (b : Block) :
    byteOf (double b) 0 = 2#8 * byteOf b 0 ^^^ (if 0x80#8 ≤ byteOf b 15 then 0x87 else 0) := by
  rw [double, byteOf_blockOf _ (by decide), if_pos rfl]

theorem byteOf_double_succ (b : Block) {j : Nat} (hj : j + 1 < 16) :
    byteOf (double b) (j + 1) = 2#8 * byteOf b (j + 1) + highBit (byteOf b j) := by
  rw [double, byteOf_blockOf _ hj, if_neg (Nat.succ_ne_zero j), Nat.add_sub_cancel]

theorem highBit_toNat (x : Byte) : (highBit x).toNat = if x.toNat ≥ 0x80 then 1 else 0 :=
  apply_ite BitVec.toNat _ _ _

/-- Settles O13: the bytes of `double b`; a doubled byte is even, so the carry into it does not overflow. -/
theorem doubleFollowsTheByteProcedure : Obligations.DoubleFollowsTheByteProcedure := by
  refine fun b => ⟨?_, fun j h1 h15 => ?_⟩
  · rw [byteOf_double_zero, BitVec.toNat_xor, BitVec.toNat_mul, apply_ite BitVec.toNat]
    rfl
  · obtain ⟨i, rfl⟩ := Nat.exists_eq_add_of_le' h1
    rw [byteOf_double_succ b (by omega), BitVec.toNat_add, highBit_toNat, BitVec.toNat_mul, Nat.add_sub_cancel]
    simp only [BitVec.toNat_ofNat]
    split <;> omega

/-! ## The doubler as a shift with reduction (R141) -/

theorem two_mul_eq_shiftLeft (x : Byte) : 2#8 * x = x <<< 1 := BitVec.twoPow_mul_eq_shiftLeft x 1

theorem highBit_eq_ushiftRight (x : Byte) : highBit x = x >>> 7 := by
  apply BitVec.eq_of_toNat_eq
  have hx : x.toNat < 256 := x.isLt
  rw [highBit_toNat, BitVec.toNat_ushiftRight, Nat.shiftRight_eq_div_pow]
  split <;> omega

/-- The carry enters a doubled byte at bit 0, which is clear there. -/
theorem two_mul_add_highBit (x y : Byte) : 2#8 * x + highBit y = x <<< 1 ||| y >>> 7 := by
  rw [two_mul_eq_shiftLeft, highBit_eq_ushiftRight]
  apply BitVec.add_eq_or_of_and_eq_zero
  apply BitVec.eq_of_getLsbD_eq
  intro i hi
  cases i with
  | zero => simp
  | succ i => simp [BitVec.getLsbD_of_ge y (7 + (i + 1)) (by omega)]

theorem getLsbD_byteOf_of_lt (b : Block) (k : Nat) {i : Nat} (hi : i < 8) :
    (byteOf b k).getLsbD i = b.getLsbD (8 * k + i) := by rw [getLsbD_byteOf, decide_eq_true hi, Bool.true_and]

theorem byteOf_shiftLeft_zero (b : Block) : byteOf (b <<< 1) 0 = 2#8 * byteOf b 0 := by
  rw [two_mul_eq_shiftLeft]
  apply BitVec.eq_of_getLsbD_eq
  intro i hi
  rw [getLsbD_byteOf_of_lt _ _ hi, BitVec.getLsbD_shiftLeft, BitVec.getLsbD_shiftLeft,
    getLsbD_byteOf_of_lt _ _ (by omega)]
  have h : i < 128 := by omega
  simp [hi, h]

/-- Byte `j + 1` of the shift takes bit 7 of byte `j` as its bit 0. -/
theorem byteOf_shiftLeft_succ (b : Block) {j : Nat} (hj : j + 1 < 16) :
    byteOf (b <<< 1) (j + 1) = 2#8 * byteOf b (j + 1) + highBit (byteOf b j) := by
  rw [two_mul_add_highBit]
  apply BitVec.eq_of_getLsbD_eq
  intro i hi
  rw [getLsbD_byteOf_of_lt _ _ hi, BitVec.getLsbD_or, BitVec.getLsbD_ushiftRight]
  cases i with
  | zero =>
    have h : 8 * j + 8 < 128 := by omega
    rw [getLsbD_byteOf_of_lt _ _ (by omega)]
    simp [h, Nat.mul_add, -BitVec.getLsbD_eq_getElem]
  | succ i =>
    have h : 8 * (j + 1) + (i + 1) < 128 := by omega
    rw [BitVec.getLsbD_of_ge (byteOf b j) (7 + (i + 1)) (by omega), BitVec.getLsbD_shiftLeft,
      BitVec.getLsbD_shiftLeft, getLsbD_byteOf_of_lt _ _ (by omega)]
    simp [hi, h]

/-- Byte 15 is at least 0x80 exactly when bit 127 is 1. -/
theorem le_byteOf_fifteen_iff (b : Block) : 0x80#8 ≤ byteOf b 15 ↔ b.getLsbD 127 = true := by
  rw [← getLsbD_byteOf_of_lt b 15 (i := 7) (by decide), show (byteOf b 15).getLsbD 7 = (byteOf b 15).msb from rfl,
    BitVec.msb_eq_decide, decide_eq_true_iff, BitVec.le_def]
  rfl

/-- The reduction constant is in byte 0. -/
theorem byteOf_reduction_succ : ∀ k < 15, byteOf 0x87#128 (k + 1) = 0 := by decide

/-- R141: doubling is a shift by one, bit 127 being reduced into byte 0. -/
theorem double_eq (b : Block) : double b = (b <<< 1) ^^^ (if b.getLsbD 127 then 0x87#128 else 0) := by
  apply block_ext
  intro k hk
  rw [byteOf_xor]
  cases k with
  | zero =>
    rw [byteOf_double_zero, byteOf_shiftLeft_zero, apply_ite (byteOf · 0), byteOf_zero]
    simp only [le_byteOf_fifteen_iff]
    rfl
  | succ j =>
    rw [byteOf_double_succ b hk, byteOf_shiftLeft_succ b hk, apply_ite (byteOf · (j + 1)), byteOf_zero,
      byteOf_reduction_succ j (by omega), ite_self]
    exact BitVec.xor_zero.symm

/-- Settles O14 (`double_eq`). -/
theorem doubleIsShiftWithReduction : Obligations.DoubleIsShiftWithReduction := double_eq

/-! ## The doubler as a linear bijection (R142) -/

/-- The reduction is linear in the bit that leaves the block. -/
theorem ite_xor (p q : Bool) (r : Block) :
    (if p ^^ q then r else 0) = (if p then r else 0) ^^^ (if q then r else 0) := by
  cases p <;> cases q <;> simp

theorem double_xor (a b : Block) : double (a ^^^ b) = double a ^^^ double b := by
  rw [double_eq, double_eq, double_eq, BitVec.shiftLeft_xor_distrib, BitVec.getLsbD_xor, ite_xor]
  ac_rfl

/-- Bit 0 of the doubled block is bit 127 of the block. -/
theorem getLsbD_double_zero (b : Block) : (double b).getLsbD 0 = b.getLsbD 127 := by
  rw [double_eq, BitVec.getLsbD_xor]
  cases b.getLsbD 127 <;> simp

theorem eq_zero_of_double_eq_zero {b : Block} (h : double b = 0) : b = 0 := by
  have h127 : b.getLsbD 127 = false := by rw [← getLsbD_double_zero, h]; rfl
  have hlt : 2 * b.toNat < 2 ^ 128 := BitVec.msb_eq_false_iff_two_mul_lt.1 h127
  rw [double_eq, h127] at h
  have hshift : b <<< 1 = 0 := BitVec.xor_zero.symm.trans h
  have hmod : 2 * b.toNat % 2 ^ 128 = 0 := by
    simpa [Nat.shiftLeft_eq, Nat.mul_comm] using congrArg BitVec.toNat hshift
  apply BitVec.eq_of_toNat_eq
  show b.toNat = 0
  omega

theorem double_injective : Function.Injective double := by
  intro a b h
  apply BitVec.xor_eq_zero_iff.1
  apply eq_zero_of_double_eq_zero
  rw [double_xor, h]
  exact BitVec.xor_self

/-- Settles O15: linear, so injective since only 0 is doubled to 0, and blocks are finitely many. -/
theorem doubleIsALinearBijection : Obligations.DoubleIsALinearBijection :=
  ⟨double_xor, double_eq 0, Finite.injective_iff_bijective.1 double_injective⟩

/-! ## The number of a packed word (R110) -/

theorem field_toNat (w : Word) (k n : Nat) : (w.extractLsb' k n).toNat = w.toNat / 2 ^ k % 2 ^ n := by
  rw [BitVec.extractLsb'_toNat, Nat.shiftRight_eq_div_pow]

/-- A packed word as a number: its fields are its digits. -/
theorem packWord_toNat (op rsv : BitVec 4) (d a b : BlockAddr) :
    (packWord op rsv d a b).toNat =
      b.toNat * 2 ^ 24 + a.toNat * 2 ^ 16 + d.toNat * 2 ^ 8 + rsv.toNat * 2 ^ 4 + op.toNat := by
  have hw : (packWord op rsv d a b).toNat < 2 ^ 32 := (packWord op rsv d a b).isLt
  have hop := congrArg BitVec.toNat (fieldOp_packWord op rsv d a b)
  have hrsv := congrArg BitVec.toNat (fieldRsv_packWord op rsv d a b)
  have hd := congrArg BitVec.toNat (fieldDst_packWord op rsv d a b)
  have ha := congrArg BitVec.toNat (fieldSrca_packWord op rsv d a b)
  have hb := congrArg BitVec.toNat (fieldSrcb_packWord op rsv d a b)
  rw [fieldOp, field_toNat] at hop
  rw [fieldRsv, field_toNat] at hrsv
  rw [fieldDst, field_toNat] at hd
  rw [fieldSrca, field_toNat] at ha
  rw [fieldSrcb, field_toNat] at hb
  omega

/-! ## NOP, DBL and XOR (R144 to R146) -/

/-- The one legal word with opcode 0 is 0: what it decodes to is NOP (R114, R144). -/
theorem legal_iff_eq_zero_of_fieldOp {w : Word} (h : fieldOp w = 0) : legal w = true ↔ w = 0 := by
  constructor
  · intro hl
    obtain ⟨i, hi⟩ := decode_of_legal hl
    have hnop := (decode_ok hi).2
    rw [h] at hnop
    cases hnop
    exact eq_encode_of_decode hi
  · rintro rfl
    exact legal_encode .nop

/-- Settles O9: the EXEC step of NOP is `complete()`, with the frame of every successful end. -/
theorem nopCompletes : Obligations.NopCompletes :=
  ⟨rfl, fun _ h => legal_iff_eq_zero_of_fieldOp h, fun s hp =>
    ⟨s.complete, by rw [exec_nop, inExec_exec hp], s.complete_succeeded, rfl, s.complete_outside, s.complete_bytes⟩⟩

/-- `BLK(d) <- y; complete()`, the end of DBL and XOR, and of a single cipher call's answer
(`singleCallAnswered`). -/
theorem State.putBlk_complete (s : State) (d : BlockAddr) (y : Block) :
    let t := (s.putBlk d y).complete
    t.blk d = y ∧ Succeeded t ∧ t.calls = s.calls ∧ SameOutside s t ∧ SameBytesOutside (blkOffset d) 16 s t :=
  ⟨by simp, State.complete_succeeded _, by simp, (s.putBlk_outside d y).complete, (s.putBlk_bytes d y).complete⟩

/-- Settles O10: the EXEC step of DBL stores the doubled block and completes (`State.putBlk_complete`). -/
theorem dblCompletes : Obligations.DblCompletes := fun s d a =>
  ⟨by simp [encode, packWord_toNat], fun hp =>
    ⟨_, by rw [exec_dbl, inExec_exec hp], s.putBlk_complete d (double (s.blk a))⟩⟩

/-- `CLR d` is `XOR d, d, d` (R120). -/
theorem lower_clr {n : BlockName} (h : n.wellFormed = true) :
    (AsmCommand.clr n).lower = some (.xor n.addr n.addr n.addr) := if_pos h

/-- Settles O11: the EXEC step of XOR stores the bytewise exclusive-or, which is 0 of equal sources, and completes. -/
theorem xorCompletes : Obligations.XorCompletes := by
  refine ⟨fun _ => lower_clr, fun s d a b => ⟨by simp [encode, packWord_toNat], legal_encode _, fun hp => ?_⟩⟩
  obtain ⟨hblk, hend⟩ := s.putBlk_complete d (xorBlocks (s.blk a) (s.blk b))
  refine ⟨_, by rw [exec_xor, inExec_exec hp], fun k _ => ?_, ?_, hend⟩
  · rw [hblk, xorBlocks_eq, byteOf_xor]
  · rintro rfl
    rw [hblk, xorBlocks_eq, BitVec.xor_self]
    rfl

end Sys2Proof.Machine
end

section
/-! PROOFS. The cipher-sequencer family: the EXEC step and the response step as `exec` of the decoded command, events
outside their phase, the accept of a word, the table of phases, the request port, and the single-call commands BCE and BCD
(spec 41_cipher_sequencer.md rules R162 to R176). -/

namespace Sys2Proof.Machine

/-! ## The EXEC step and the response step (R163, R164, R174) -/

/-- Settles O4: the word is legal and CUR holds its command, which is what `react_sequencer` asks. -/
theorem stepRunsTheDecodedCommand : Obligations.StepRunsTheDecodedCommand := by
  intro s i hr hp he hc hi
  have hcur := currentCommand_of_decode hc hi
  obtain ⟨hl, -⟩ := decode_ok hi
  rw [step, he, react_sequencer (by simpa using hr) (by simpa using hp) (by simpa using hl) (by simpa using hcur)]

theorem responseStep_await {s : State} {i : Instr} (r : Response) (hp : s.phase = .await)
    (hc : s.currentCommand = some i) :
    responseStep r s = mapNext (fun t => { t with rsp := none }) (exec i { s with rsp := some r }) := by
  rcases responseStep_cases r s with ⟨-, j, hj, h⟩ | ⟨hnone, -⟩
  · obtain rfl : i = j := Option.some.inj (hc.symm.trans hj)
    exact h
  · exact absurd (hnone hp) (by simp [hc])

/-- Settles O5: CUR holds the decoded command, so `responseStep_await` applies. -/
theorem responseStepResumesTheDecodedCommand : Obligations.ResponseStepResumesTheDecodedCommand := by
  intro s i r hr hp he hc hi
  have hcur := currentCommand_of_decode hc hi
  rw [step, he, react, if_pos (by simpa using hr), responseStep_await r (by simpa using hp) (by simpa using hcur)]

theorem decode_of_decodeTableWord {nbits w : Nat} {i : Instr} (h : decodeTableWord nbits w = some i) :
    decode (BitVec.ofNat 32 (w % 2 ^ nbits)) = .ok i := by
  unfold decodeTableWord at h
  split at h
  · next hj => rw [hj, Option.some.inj h]
  · cases h

/-- Settles O6: the placed word stands accepted with the sequencer's turn next, so its step is O4's. -/
theorem placedWordIsRunNext : Obligations.PlacedWordIsRunNext := fun s nbits w i h =>
  stepRunsTheDecodedCommand (s.withFetchWord nbits w) i rfl rfl rfl rfl (decode_of_decodeTableWord h)

/-! ## Events outside their phase (R166, R169, R175) -/

theorem State.requestAccepted_issue {s : State} (h : s.phase = .issue) :
    s.requestAccepted = { s with calls := s.calls + 1, phase := .await } := if_pos h

theorem State.requestAccepted_other {s : State} (h : s.phase ≠ .issue) : s.requestAccepted = s := if_neg h

theorem responseStep_other {s : State} (r : Response) (h : s.phase ≠ .await) : responseStep r s = .next s := by
  rcases responseStep_cases r s with ⟨hp, -⟩ | ⟨-, hs⟩
  · exact absurd hp h
  · exact hs

theorem execStep_other {s : State} (h : s.phase ≠ .exec) : execStep s = .next s := by
  rcases execStep_cases s with ⟨hp, -⟩ | ⟨hp, -⟩ | ⟨-, hs⟩
  · exact absurd hp h
  · exact absurd hp h
  · exact hs

/-- Settles O46, event by event; outside its phase an event is ignored at either level of `rst_n`. -/
theorem portEventsActInTheirPhaseAlone : Obligations.PortEventsActInTheirPhaseAlone := by
  refine fun s => ⟨fun hr he hp => ?_, fun he hp => ?_, fun r he hp => ?_, fun he hp => ?_, fun v he => ?_⟩
  · rw [step, he, react, if_pos (by simpa using hr), State.requestAccepted_issue (by simpa using hp), afterEvent_calls]
  · rw [step, he, react, State.requestAccepted_other (by simpa using hp), ite_self]
  · rw [step, he, react, responseStep_other r (by simpa using hp), ite_self]
  · rw [step, he, react, execStep_other (by simpa using hp), ite_self]
  · rw [step, he, react]

theorem step_quiet {s : State} (h : s.nextEvent = .quiet) : step s = .next s.afterEvent := by rw [step, h, react]

/-- In IDLE, with nothing listed, nothing is the next event (R275). -/
theorem nextEvent_idle {s : State} (hin : s.inputs = []) (hp : s.phase = .idle) : s.nextEvent = .quiet := by
  simp [State.nextEvent, State.ownEvent, hin, hp]

theorem afterEvent_idle {s : State} (hin : s.inputs = []) (hp : s.phase = .idle) : s.afterEvent = s := by
  simp [State.afterEvent, hin, hp]

/-- Settles O59: a quiet step only takes its event, and in IDLE with nothing listed there is none to take. -/
theorem nothingHappensWhileNobodyActs : Obligations.NothingHappensWhileNobodyActs := fun s =>
  ⟨step_quiet, fun hin hp => by rw [step_quiet (nextEvent_idle hin hp), afterEvent_idle hin hp]⟩

/-! ## The accept of a word (R173) -/

/-- The direction latched is DEC for BCD and EMED alone (R51). -/
theorem latchedCommand_dir (v : Word) : (latchedCommand v).dir = .dec ↔ fieldOp v = 4 ∨ fieldOp v = 7 := by
  unfold latchedCommand
  split <;> simp_all

theorem inputWrite_cmd (v : Word) : InputWrite { write := true, size := 2, addr := 0x00C, wdata := v } :=
  ⟨(HostAccess.legal_iff _).2 ⟨rfl, by simp⟩, rfl, .inl (by simp)⟩

/-- Settles O37: with BUSY = 1 the write is a dropped input write, with BUSY = 0 it is the accept. -/
theorem writeToCmdAcceptsTheWord : Obligations.WriteToCmdAcceptsTheWord := by
  intro s v hr he
  refine ⟨fun hb => ?_, fun hb => ⟨{ s.afterEvent.accept v with hAnswer := { rdata := 0, err := false } }, ?_, rfl,
    rfl, rfl, rfl, rfl, latchedCommand_dir v, rfl, rfl, rfl, rfl, rfl, rfl, ?_⟩⟩
  · rw [step_host he, State.hostAccess_inputWrite (by simpa using hr) (by simpa using hb) (inputWrite_cmd v)]
  · rw [step_host he, State.hostAccess_cmd (by simpa using hr) (by simpa using hb)]
  · exact ⟨by simp, by simp, by simp, by simp, by simp, fun a => afterEvent_byteAt s a, rfl,
      Bool.and_false s.afterEvent.irqEn⟩

/-! ## The request port (R162) -/

theorem State.bcReqValid_iff (s : State) : s.bcReqValid = true ↔ s.phase = .issue := beq_iff_eq

theorem State.bcReqDir_issue {s : State} (h : s.phase = .issue) : s.bcReqDir = (s.scratch.req.dir == .dec) := by
  rw [State.bcReqDir, State.portReq_issue h]

theorem State.bcReqData_issue {s : State} (h : s.phase = .issue) : s.bcReqData = s.scratch.req.data := by
  rw [State.bcReqData, State.portReq_issue h]

/-- In ISSUE every step but the accept and a reset leaves the phase, REQ and CALLS: a host access is one of a running
command, and the sequencer has no step. -/
theorem MachineInv.step_issue {s t : State} (h : MachineInv s) (hs : step s = .next t) (hp : s.phase = .issue)
    (hready : s.nextEvent ≠ .reqReady) (hlow : s.nextEvent ≠ .resetLow) :
    t.phase = .issue ∧ t.scratch.req = s.scratch.req ∧ t.calls = s.calls := by
  have hb : s.busy = true := h.busy.2 (by rw [hp]; decide)
  cases h.stepEffect hs with
  | access x _ =>
    rw [(State.hostAccess_busy (by simpa using hb) x).1]
    simp [hp]
  | turn _ hp' _ => simp [hp] at hp'
  | answer _ _ hp' _ => simp [hp] at hp'
  | handshake he _ => exact absurd he hready
  | blockSize v _ => simp [hp]
  | reset v hv he =>
    cases v with
    | false => exact absurd he hlow
    | true => simp [h.rstN_of_busy hb] at hv
  | nothing _ => simp [hp]

/-- Settles O47: the port shows REQ in ISSUE, and REQ stands there (`MachineInv.step_issue`). -/
theorem requestIsStableUntilAccepted : Obligations.RequestIsStableUntilAccepted := by
  intro s t hs
  refine ⟨s.bcReqValid_iff, fun hp => ⟨?_, State.bcReqData_issue hp⟩, fun h hp hready hlow => ?_⟩
  · rw [State.bcReqDir_issue hp, beq_iff_eq]
  · obtain ⟨hpt, hreq, hcalls⟩ := h.step_issue hs hp hready hlow
    refine ⟨hpt, ?_, ?_, hcalls⟩
    · rw [State.bcReqDir_issue hpt, State.bcReqDir_issue hp, hreq]
    · rw [State.bcReqData_issue hpt, State.bcReqData_issue hp, hreq]

/-! ## The table of phases (R175) -/

/-- A segment that presents a request presents call number CALLS (R164). -/
theorem Segment.end_or_call {s t : State} (h : Segment s false t) :
    (Succeeded t ∨ ∃ e, e ≠ .none ∧ Failed e t) ∨ (t.phase = .issue ∧ t.k = s.calls.toNat) := by
  cases h with
  | stops _ he => exact .inl (.inr ⟨_, by rcases he with rfl | rfl | rfl | rfl <;> decide, s.raiseError_failed _⟩)
  | completes => exact .inl (.inl (State.complete_succeeded _))
  | calls _ _ _ _ _ _ _ hn => exact .inr ⟨rfl, hn.symm⟩

/-- In AWAIT a failed response ends the command with code 5 (R261). -/
theorem Segment.failed {s t : State} (h : Segment s true t) : Failed .underlyingCipherFailure t := by
  cases h with
  | fails _ => exact s.raiseError_failed _

/-- In AWAIT a success goes on to the next call or completes the command. -/
theorem Segment.answered {s t : State} (h : Segment s false t) (hp : s.phase = .await) :
    (t.phase = .issue ∧ t.k = s.calls.toNat) ∨ Succeeded t := by
  cases h with
  | stops he _ => simp [hp] at he
  | completes => exact .inr (State.complete_succeeded _)
  | calls _ _ _ _ _ _ _ hn => exact .inl ⟨rfl, hn.symm⟩

/-- The one host access that changes the phase is an accepted write to CMD. -/
theorem State.hostAccess_phase {s : State} {x : HostAccess} (h : (s.hostAccess x).phase ≠ s.phase) :
    s.rstN = true ∧ s.busy = false ∧ ∃ v, x = { write := true, size := 2, addr := 0x00C, wdata := v } := by
  rcases s.hostAccess_inversion x with hcmd | ⟨hr, v, rfl⟩ | e
  · exact hcmd
  · exact absurd (by rw [State.hostAccess_status hr]; simp) h
  · exact absurd (by rw [e]) h

/-- Settles O52, by the ways of a step; CALLS gives the number of the call that a segment makes. -/
theorem phasesChangeOnlyAsTheTableSays : Obligations.PhasesChangeOnlyAsTheTableSays := by
  intro s t h hs hne
  cases h.stepEffect hs with
  | access x he =>
    obtain ⟨hr, hb, v, rfl⟩ := State.hostAccess_phase fun e => hne (e.trans (afterEvent_phase s))
    rw [State.hostAccess_cmd hr hb]
    exact .inl ⟨h.phase_idle (by simpa using hb), rfl, rfl, v, rfl, he⟩
  | turn he hp hseg =>
    refine .inr (.inl ⟨hp, he, ?_⟩)
    rcases hseg.end_or_call with hend | ⟨hpt, hk⟩
    · exact .inl ⟨hend.elim Succeeded.phase fun ⟨_, _, hf⟩ => hf.phase, hend⟩
    · exact .inr ⟨hpt, by simp [hk, h.atExec hp]⟩
  | answer r he hp hseg =>
    refine .inr (.inr (.inr (.inl ⟨hp, r, he, ?_⟩)))
    cases hr : r.err with
    | true => exact .inl ⟨rfl, (hr ▸ hseg).failed⟩
    | false =>
      obtain ⟨hcalls, -⟩ := h.atAwait hp
      rw [← hcalls, ← afterEvent_calls]
      exact .inr ⟨rfl, (hr ▸ hseg).answered (by simpa using hp)⟩
  | handshake he hp => exact .inr (.inr (.inl ⟨hp, rfl, he, rfl⟩))
  | blockSize v _ => simp at hne
  | reset v hv he =>
    cases v with
    | false => exact .inr (.inr (.inr (.inr ⟨rfl, he⟩)))
    | true =>
      obtain ⟨-, -, -, -, -, -, -, hidle, -⟩ := h.inReset hv
      exact absurd hidle.symm hne
  | nothing _ => simp at hne

/-! ## Runs with an agent that is not late (R176) -/

section
variable {f : Dir → Block → Block} {fails : Nat → Bool} {i : Instr} {s t : State}

theorem agentRun_succ (h : stepWith (agentEvent f fails s) s = .next t) (n : Nat) :
    agentRun f fails (n + 1) s = agentRun f fails n t := by
  rw [agentRun, h]

/-- The first step of a run is the command's start. -/
theorem agentRun_exec (hacc : Accepted i s) (h : exec i { s with inputs := [] } = .next t) (n : Nat) :
    agentRun f fails (n + 1) s = agentRun f fails n t := by
  have hturn : agentEvent f fails s = .sequencer := by simp [agentEvent, hacc.phase]
  apply agentRun_succ
  rw [hturn, ← h]
  exact stepRunsTheDecodedCommand { s with inputs := [.sequencer] } i hacc.rstN hacc.phase rfl hacc.latched
    (by rw [hacc.command]; exact decode_encode i)

/-- The request of `s` accepted (R162). -/
def State.handshaken (s : State) : State := { s with inputs := [], calls := s.calls + 1, phase := .await }

/-- The agent's response to the request of `s` (R163, R167). -/
def agentResponse (f : Dir → Block → Block) (fails : Nat → Bool) (s : State) : Response :=
  { err := fails s.k, data := f s.scratch.req.dir s.scratch.req.data }

/-- A call takes two steps: its request is accepted, and the command goes on with the agent's response. -/
theorem agentRun_call (hr : s.rstN = true) (hp : s.phase = .issue) (hc : s.scratch.cur = latchedCommand s.lastcmd)
    (hi : decode s.lastcmd = .ok i)
    (h : exec i { s.handshaken with rsp := some (agentResponse f fails s) } = .next t) (n : Nat) :
    agentRun f fails (n + 2) s = agentRun f fails n { t with rsp := none } := by
  have hready : agentEvent f fails s = .reqReady := by simp [agentEvent, hp]
  have haccept : stepWith (agentEvent f fails s) s = .next s.handshaken := by
    rw [hready]
    exact (portEventsActInTheirPhaseAlone { s with inputs := [.reqReady] }).1 hr rfl hp
  rw [agentRun_succ haccept]
  apply agentRun_succ
  have hresume := responseStepResumesTheDecodedCommand
    { s.handshaken with inputs := [.rsp (agentResponse f fails s)] } i (agentResponse f fails s) hr rfl rfl hc hi
  exact hresume.trans (congrArg (mapNext _) h)

end

/-! ## Single cipher calls: BCE and BCD (R171, R172) -/

section
variable {s : State} {dir : Dir} {d a : BlockAddr}

theorem singleCallStart_eq (h : s.bcBlockSize = 16) : singleCallStart dir a s = s.cipherCall 0 dir (s.blk a) := by
  rw [singleCallStart, State.checked, State.checkBlockSize_none h]
  rfl

/-- The EXEC step of a single-call command. -/
theorem singleCall_sends (hp : s.phase = .exec) (hb : s.bcBlockSize = 16) :
    ∃ t, withCalls s (singleCallStart dir a) (singleCallAnswered d) = .next t ∧ Requests 0 dir (s.blk a) t
      ∧ SameStatus s t ∧ t.calls = s.calls ∧ SameOutside s t ∧ SameBytes s t :=
  ⟨_, by rw [withCalls_exec hp, singleCallStart_eq hb], s.cipherCall_requests 0 dir _, s.cipherCall_status 0 dir _, rfl,
    s.cipherCall_outside 0 dir _, fun _ => rfl⟩

/-- Settles O16: both commands are the single call in their direction (`singleCall_sends`). -/
theorem singleCallSendsItsRequest : Obligations.SingleCallSendsItsRequest :=
  fun _ _ _ hp hb => ⟨singleCall_sends hp hb, singleCall_sends hp hb⟩

/-- The response step of a single-call command. -/
theorem singleCall_completes {y : Block} (hp : s.phase = .await) (hr : s.rsp = some { err := false, data := y }) :
    ∃ t, withCalls s (singleCallStart dir a) (singleCallAnswered d) = .next t ∧ t.blk d = y ∧ Succeeded t
      ∧ t.calls = s.calls ∧ SameOutside s t ∧ SameBytesOutside (blkOffset d) 16 s t :=
  ⟨_, withCalls_answer hp hr _ _, s.putBlk_complete d y⟩

/-- Settles O17: both commands store the answer and complete (`singleCall_completes`). -/
theorem singleCallCompletes : Obligations.SingleCallCompletes :=
  fun _ _ _ _ hp hr => ⟨singleCall_completes hp hr, singleCall_completes hp hr⟩

/-- From its request, the call of a single-call command and the command itself end in two steps. -/
theorem singleCall_call {i : Instr} {x : Block} (f : Dir → Block → Block)
    (hi : ∀ s, exec i s = withCalls s (singleCallStart dir a) (singleCallAnswered d)) (hreq : Requests 0 dir x s)
    (hr : s.rstN = true) (hc : s.scratch.cur = latchedCommand s.lastcmd) (hw : decode s.lastcmd = .ok i) :
    ∃ t, promptRun f 2 s = .next t ∧ Succeeded t ∧ t.calls = s.calls + 1 ∧ t.blk d = f dir x
      ∧ SameBytesOutside (blkOffset d) 16 s t := by
  obtain ⟨t, ht, hblk, hend, hcalls, -, hbytes⟩ := singleCall_completes (dir := dir) (d := d) (a := a)
    (s := { s.handshaken with rsp := some (agentResponse f (fun _ => false) s) }) rfl rfl
  refine ⟨{ t with rsp := none }, ?_, ⟨hend.busy, hend.done, hend.resultValid, hend.errcode, hend.phase⟩, hcalls, ?_,
    hbytes⟩
  · exact agentRun_call hr hreq.phase hc hw ((hi _).trans ht) 0
  · rw [hreq.req] at hblk
    exact hblk

/-- A command whose body is a single call in direction `dir` runs to its end in three steps: the start, and the two of its
call. -/
theorem singleCall_run {i : Instr} (f : Dir → Block → Block)
    (hi : ∀ s, exec i s = withCalls s (singleCallStart dir a) (singleCallAnswered d)) (hb : s.bcBlockSize = 16)
    (hacc : Accepted i s) :
    ∃ t, promptRun f 3 s = .next t ∧ Succeeded t ∧ t.calls = 1 ∧ t.blk d = f dir (s.blk a)
      ∧ SameBytesOutside (blkOffset d) 16 s t := by
  have hstart : exec i { s with inputs := [] } = .next (State.cipherCall { s with inputs := [] } 0 dir (s.blk a)) := by
    rw [hi, withCalls_exec (by exact hacc.phase), singleCallStart_eq (by exact hb)]
    rfl
  have hdecode : decode s.lastcmd = .ok i := by rw [hacc.command, decode_encode]
  obtain ⟨t, ht, hend, hcalls, hblk, hbytes⟩ := singleCall_call f hi (State.cipherCall_requests _ 0 dir (s.blk a))
    (s := State.cipherCall { s with inputs := [] } 0 dir (s.blk a)) hacc.rstN hacc.latched hdecode
  refine ⟨t, (agentRun_exec hacc hstart 2).trans ht, hend, ?_, hblk, hbytes⟩
  rw [hcalls, State.cipherCall_calls, hacc.calls]
  rfl

end

/-- Settles O18: the run of a single call (`singleCall_run`) in each command's direction. -/
theorem singleCallRunsToItsEnd : Obligations.SingleCallRunsToItsEnd :=
  fun f _ d a hb => ⟨singleCall_run f (exec_bce d a) hb, singleCall_run f (exec_bcd d a) hb⟩

end Sys2Proof.Machine
end

section
/-! PROOFS. The L-table family: the zero block's encryption, which LTGEN, EMEE and EMED call for first, and LTGEN from that
call's answer and from its accept to its end (spec 42_ltable.md rules R190 to R196, 43_eme_mixer.md rules R211, R212). -/

namespace Sys2Proof.Machine

/-! ## The call for the encrypted zero block (R190, R191, R212) -/

section
variable {s : State} {m : Nat}

theorem ltgenStart_eq (hb : s.bcBlockSize = 16) (hlen : s.mlen.toNat = 16 * m) (h1 : 1 ≤ m) (h2 : m ≤ 128) :
    ltgenStart s = s.latchCount.cipherCall 0 .enc 0 := by
  rw [ltgenStart, State.checked, State.checkBlockSize_none hb, State.checkMessageLength_none hlen h1 h2]
  rfl

theorem emeStart_eq (hb : s.bcBlockSize = 16) (ht : s.tlen = 16) (hlen : s.mlen.toNat = 16 * m) (h1 : 1 ≤ m)
    (h2 : m ≤ 128) : emeStart s = s.latchCount.cipherCall 0 .enc 0 := by
  rw [emeStart, State.checked, State.checkBlockSize_none hb, State.checkTweak_none ht,
    State.checkMessageLength_none hlen h1 h2]
  rfl

theorem State.latchCount_outside (s : State) : SameOutside s s.latchCount :=
  ⟨rfl, rfl, rfl, rfl, rfl, rfl, rfl, rfl, rfl, rfl, rfl⟩

/-- The EXEC step of LTGEN, EMEE and EMED with their preconditions met is one and the same call (R191, R212). -/
theorem exec_zeroBlockCall {i : Instr} (hp : s.phase = .exec) (hb : s.bcBlockSize = 16)
    (hlen : s.mlen.toNat = 16 * m) (h1 : 1 ≤ m) (h2 : m ≤ 128)
    (hi : i = .ltgen ∨ ((i = .emee ∨ i = .emed) ∧ s.tlen = 16)) :
    exec i s = .next (s.latchCount.cipherCall 0 .enc 0) := by
  rcases hi with rfl | ⟨hi, ht⟩
  · rw [exec_ltgen, withCalls_exec hp, ltgenStart_eq hb hlen h1 h2]
  · rw [exec_transform hi, withCalls_exec hp, emeStart_eq hb ht hlen h1 h2]

end

/-- Settles O23: the call of `exec_zeroBlockCall` writes scratch, `k` and the phase alone. -/
theorem theZeroBlockIsEncryptedFirst : Obligations.TheZeroBlockIsEncryptedFirst :=
  fun s _ _ hp hb hlen h1 h2 hi => ⟨_, exec_zeroBlockCall hp hb hlen h1 h2 hi, State.cipherCall_requests _ 0 .enc 0,
    State.latchCount_m hlen h2, ⟨rfl, rfl, rfl, rfl⟩, rfl,
    s.latchCount_outside.trans (State.cipherCall_outside _ 0 .enc 0), fun _ => rfl⟩

/-! ## LTGEN (R192, R193, R196) -/

theorem State.genL_outside (s : State) (e0 : Block) : SameOutside s (s.genL e0) :=
  ⟨rfl, rfl, rfl, rfl, rfl, rfl, rfl, rfl, rfl, rfl, rfl⟩

/-- The table committed and LTGEN completed: entry `i` of the generator's table stands in OUT[i]. -/
theorem ltgenAnswered_spec (e0 : Block) (s : State) :
    let t := ltgenAnswered e0 s
    (∀ i < s.scratch.m.toNat, t.outBlock i = double^[i + 1] e0) ∧ Succeeded t ∧ t.calls = s.calls ∧ SameOutside s t
      ∧ SameBytesOutside 0x1800 (16 * s.scratch.m.toNat) s t := by
  refine ⟨fun i hi => ?_, State.complete_succeeded _, by simp [ltgenAnswered], ?_, ?_⟩
  · rw [ltgenAnswered, State.complete_outBlock, State.outBlock_commitOut _ _ hi, State.genL_scratch, genL_ltAt e0 _ hi]
  · exact ((s.genL_outside e0).trans (State.commitOut_outside _ _ _)).complete
  · exact ((s.genL e0).commitOut_bytes _ _).complete

/-- The response step of LTGEN (R196). -/
theorem ltgen_completes {s : State} {e0 : Block} (hp : s.phase = .await)
    (hr : s.rsp = some { err := false, data := e0 }) :
    ∃ t, exec .ltgen s = .next t ∧ (∀ i < s.scratch.m.toNat, t.outBlock i = double^[i + 1] e0) ∧ Succeeded t
      ∧ t.calls = s.calls ∧ SameOutside s t ∧ SameBytesOutside 0x1800 (16 * s.scratch.m.toNat) s t :=
  ⟨_, withCalls_answer hp hr _ _, ltgenAnswered_spec e0 s⟩

/-- Settles O24: the response step (`ltgen_completes`), whatever the block count. -/
theorem ltgenCompletes : Obligations.LtgenCompletes := fun _ _ hp hr _ _ => ltgen_completes hp hr

/-- From its request for the zero block LTGEN ends in two steps, with the table of the agent's answer. -/
theorem ltgen_call {s : State} (f : Dir → Block → Block) (hreq : Requests 0 .enc 0 s) (hr : s.rstN = true)
    (hc : s.scratch.cur = latchedCommand s.lastcmd) (hw : decode s.lastcmd = .ok .ltgen) :
    ∃ t, promptRun f 2 s = .next t ∧ Succeeded t ∧ t.calls = s.calls + 1
      ∧ (∀ i < s.scratch.m.toNat, t.outBlock i = lValue (f .enc 0) i)
      ∧ SameBytesOutside 0x1800 (16 * s.scratch.m.toNat) s t := by
  obtain ⟨t, ht, htable, hend, hcalls, -, hbytes⟩ := ltgen_completes
    (s := { s.handshaken with rsp := some (agentResponse f (fun _ => false) s) }) rfl rfl
  rw [hreq.req] at htable
  exact ⟨{ t with rsp := none }, agentRun_call hr hreq.phase hc hw ht 0,
    ⟨hend.busy, hend.done, hend.resultValid, hend.errcode, hend.phase⟩, hcalls, htable, hbytes⟩

/-- Settles O25: the EXEC step makes the call of `exec_zeroBlockCall`, with the block count latched, and `ltgen_call` runs
it to the end. -/
theorem ltgenRunsToItsEnd : Obligations.LtgenRunsToItsEnd := by
  intro f s m hacc hb hlen h1 h2
  have hstart : exec .ltgen { s with inputs := [] } = .next _ :=
    exec_zeroBlockCall hacc.phase hb hlen h1 h2 (.inl rfl)
  have hm : (State.latchCount { s with inputs := [] }).scratch.m.toNat = m := State.latchCount_m hlen h2
  have hdecode : decode s.lastcmd = .ok .ltgen := by rw [hacc.command, decode_encode]
  obtain ⟨t, ht, hend, hcalls, htable, hbytes⟩ := ltgen_call f (State.cipherCall_requests _ 0 .enc 0)
    (s := (State.latchCount { s with inputs := [] }).cipherCall 0 .enc 0) hacc.rstN hacc.latched hdecode
  refine ⟨t, (agentRun_exec hacc hstart 2).trans ht, hend, ?_, hm ▸ htable, hm ▸ hbytes⟩
  rw [hcalls, State.cipherCall_calls, State.latchCount_calls, hacc.calls]
  rfl

end Sys2Proof.Machine
end

section
/-! PROOFS. The mixer family: the transform as functions, the answer to each of EME's calls, and the runs of LTGEN, EMEE
and EMED call by call to their end or to a failing call (spec 43_eme_mixer.md rules R210 to R228). -/

namespace Sys2Proof.Machine

/-! ## The transform as functions (R224, R225) -/

section
variable {f g : Block → Block} {e0 t : Block} {m j : Nat} {p : Nat → Block}

/-- Settles O33: MP is the one block's pass-1 value XOR the tweak, and the closure's sum is empty. -/
theorem oneBlockTransform : Obligations.OneBlockTransform := by
  intro f e0 t p
  have hmp : mpValue f e0 t 1 p = f (p 0 ^^^ double e0) ^^^ t := congrArg (· ^^^ t) BitVec.zero_xor
  have hccc : closureValue f e0 t 1 p 0 = f (mpValue f e0 t 1 p) ^^^ t := BitVec.xor_zero
  rw [emeValue, hccc, hmp]
  rfl

/-- The transform of `m` blocks reads no block past them. -/
theorem emeValue_congr {p' : Nat → Block} (hp : ∀ i < m, p' i = p i) (hj : j < m) :
    emeValue f e0 t m p' j = emeValue f e0 t m p j := by
  have hc : ∀ i < m, pass1Value f e0 p' i = pass1Value f e0 p i := fun i hi => by rw [pass1Value, hp i hi, pass1Value]
  have hmp : mpValue f e0 t m p' = mpValue f e0 t m p := by rw [mpValue, xorSum_congr hc, mpValue]
  have hccc : ∀ i < m, pass2Value f e0 t m p' i = pass2Value f e0 t m p i := fun i hi => by
    rw [pass2Value, hc i hi, hmp, pass2Value]
  rw [emeValue, closureValue, hmp, hccc j hj, xorSum_congr fun i hi => hccc (i + 1) (by omega), ← closureValue,
    ← emeValue]

/-- The closure makes the sum of the blocks `MC XOR T` (R216). -/
theorem xorSum_closureValue (hm : 1 ≤ m) : xorSum (closureValue f e0 t m p) m = f (mpValue f e0 t m p) ^^^ t := by
  obtain ⟨n, rfl⟩ := Nat.exists_eq_add_of_le' hm
  rw [xorSum_succ_first]
  exact xor_cancel_right _ (xorSum (fun i => pass2Value f e0 t (n + 1) p (i + 1)) n)

/-- The sum of the blocks past the first is MP without the tweak and the first block (R214). -/
theorem mpValue_succ (n : Nat) : mpValue f e0 t (n + 1) p ^^^ t ^^^ xorSum (fun i => pass1Value f e0 p (i + 1)) n
    = pass1Value f e0 p 0 := by
  rw [mpValue, xor_cancel_right, xorSum_succ_first, xor_cancel_right]

section
variable (hgf : ∀ x, g (f x) = x)
include hgf

/-- Pass 1 with the inverse function undoes pass 3. -/
theorem pass1Value_emeValue (j : Nat) : pass1Value g e0 (emeValue f e0 t m p) j = closureValue f e0 t m p j := by
  rw [pass1Value, emeValue, xor_cancel_right, hgf]

/-- The inverse's MP is the transform's MC. -/
theorem mpValue_emeValue (hm : 1 ≤ m) : mpValue g e0 t m (emeValue f e0 t m p) = f (mpValue f e0 t m p) := by
  rw [mpValue, xorSum_congr fun i _ => pass1Value_emeValue hgf i, xorSum_closureValue hm, xor_cancel_right]

/-- So the inverse's mask `MP XOR MC` is the transform's, and its pass 2 undoes the transform's. -/
theorem pass2Value_emeValue (hm : 1 ≤ m) (hj : j ≠ 0) :
    pass2Value g e0 t m (emeValue f e0 t m p) j = pass1Value f e0 p j := by
  rw [pass2Value, pass1Value_emeValue hgf, mpValue_emeValue hgf hm, hgf, closureValue, if_neg hj, pass2Value,
    BitVec.xor_comm (f _), xor_cancel_right]

theorem closureValue_emeValue (hm : 1 ≤ m) :
    closureValue g e0 t m (emeValue f e0 t m p) j = pass1Value f e0 p j := by
  rw [closureValue]
  split
  · next h0 =>
    obtain ⟨n, rfl⟩ := Nat.exists_eq_add_of_le' hm
    rw [mpValue_emeValue hgf hm, hgf, xorSum_congr fun i _ => pass2Value_emeValue hgf hm (Nat.succ_ne_zero i), h0]
    exact mpValue_succ n
  · next h0 => exact pass2Value_emeValue hgf hm h0

end

/-- Settles O34: the inverse's closure gives the transform's pass 1 (`closureValue_emeValue`), which pass 3 undoes. -/
theorem transformsUndoEachOther : Obligations.TransformsUndoEachOther := by
  intro f g e0 t m p hgf j hj
  rw [emeValue, closureValue_emeValue hgf (by omega), pass1Value, hgf, xor_cancel_right]

end

/-! ## The answer to each of EME's calls (R212 to R219) -/

section
variable {s u : State} {i : Instr} {dir : Dir} {y : Block} {j : Nat}

/-- The answer to a call of EMEE or EMED goes on with `EME` in the command's direction. -/
theorem exec_transform_answer (hi : i = .emee ∨ i = .emed) (hp : s.phase = .await)
    (hr : s.rsp = some { err := false, data := y }) (h : emeAnswered (directionOf i) y s = u) : exec i s = .next u := by
  rw [exec_transform hi, withCalls_answer hp hr, h]

theorem emeAnswered_table (hk : s.k = 0) : emeAnswered dir y s = emeTable dir y s := if_pos hk

theorem emeAnswered_pass1 (hk : s.k = 1 + j) (hj : j < s.scratch.m.toNat) :
    emeAnswered dir y s = emePass1 dir j y s := by
  rw [emeAnswered, if_neg (by omega), if_pos (by omega), show s.k - 1 = j by omega]

theorem emeAnswered_fold (hk : s.k = s.scratch.m.toNat + 1) : emeAnswered dir y s = emeMix dir y s := by
  rw [emeAnswered, if_neg (by omega), if_neg (by omega), if_pos hk]

theorem emeAnswered_pass3 (hk : s.k = s.scratch.m.toNat + 2 + j) (hj : j < s.scratch.m.toNat) :
    emeAnswered dir y s = emePass3 dir j y s := by
  rw [emeAnswered, if_neg (by omega), if_neg (by omega), if_neg (by omega), if_pos (by omega),
    show s.k - (s.scratch.m.toNat + 2) = j by omega]

theorem State.scratch_outside (s : State) (c : Scratch) : SameOutside s { s with scratch := c } :=
  ⟨rfl, rfl, rfl, rfl, rfl, rfl, rfl, rfl, rfl, rfl, rfl⟩

/-- A segment that writes scratch and makes a call leaves the rest of the state alone. -/
theorem State.cipherCall_frame (s : State) (c : Scratch) (n : Nat) (dir : Dir) (x : Block) :
    let u := { s with scratch := c }.cipherCall n dir x
    SameStatus s u ∧ u.calls = s.calls ∧ SameOutside s u ∧ SameBytes s u :=
  ⟨⟨rfl, rfl, rfl, rfl⟩, rfl, (s.scratch_outside c).trans (State.cipherCall_outside _ n dir x), fun _ => rfl⟩

/-- Settles O26: the table in closed form (`genL_ltAt`), whose first entry is the mask of call 1. -/
theorem tableAnswerStartsPass1 : Obligations.TableAnswerStartsPass1 := by
  intro s i e0 hp hr hk h1 _ hi
  have hlt : ∀ j < s.scratch.m.toNat, (genL s.scratch.m.toNat e0 s.scratch).ltAt j = double^[j + 1] e0 :=
    fun j hj => genL_ltAt e0 _ hj
  refine ⟨_, exec_transform_answer hi hp hr (emeAnswered_table hk), hlt, ⟨rfl, rfl, ?_⟩, genL_m _ _ _,
    s.cipherCall_frame _ _ _ _⟩
  show Req.mk _ (xorBlocks (s.inBlock 0) ((genL s.scratch.m.toNat e0 s.scratch).ltAt 0)) = _
  rw [xorBlocks_eq, hlt 0 h1]
  rfl

/-- Before the last block of pass 1 the next block's call follows (R213). -/
theorem emePass1_of_lt (hj : j + 1 < s.scratch.m.toNat) :
    emePass1 dir j y s = { s with scratch := s.scratch.putW j y }.cipherCall (1 + (j + 1)) dir
      (xorBlocks (s.inBlock (j + 1)) (s.scratch.ltAt (j + 1))) := if_pos hj

/-- After the last block of pass 1 the fold follows (R214). -/
theorem emePass1_of_eq (hj : j + 1 = s.scratch.m.toNat) :
    emePass1 dir j y s = foldCall dir { s with scratch := s.scratch.putW j y } := if_neg (by omega)

/-- Settles O27: `W[j] <- y`, and the next block's call or the fold's, whose MP is `foldMp_eq`. -/
theorem pass1AnswerIsKeptAndGoesOn : Obligations.Pass1AnswerIsKeptAndGoesOn := by
  intro s i y j hp hr hk hj hi
  refine ⟨_, exec_transform_answer hi hp hr (emeAnswered_pass1 hk hj), ?_⟩
  rcases Nat.lt_or_eq_of_le hj with hlt | heq
  · rw [emePass1_of_lt hlt]
    refine ⟨fun n => s.scratch.wAt_putW j n y, fun _ => rfl, rfl, fun _ => ⟨rfl, ?_, ?_⟩, fun h => absurd h (by omega),
      s.cipherCall_frame _ _ _ _⟩
    · exact (by omega : 1 + (j + 1) = 2 + j)
    · rw [← xorBlocks_eq]
      rfl
  · rw [emePass1_of_eq heq]
    have hmp := foldMp_eq s.tweak (s.scratch.putW j y) (by omega : 1 ≤ s.scratch.m.toNat)
    refine ⟨fun n => s.scratch.wAt_putW j n y, fun _ => rfl, rfl, fun h => absurd h (by omega),
      fun _ => ⟨⟨rfl, ?_, congrArg (Req.mk _) hmp⟩, hmp⟩, s.cipherCall_frame _ _ _ _⟩
    exact (by omega : s.scratch.m.toNat + 1 = 2 + j)

theorem mixScratch_wAt_of_pos {m : Nat} (t y : Block) (c : Scratch) (h1 : 1 ≤ j) (hj : j < m) :
    (mixScratch m t y c).wAt j = c.wAt j ^^^ double^[j] (c.mp ^^^ y) := by
  rw [mixScratch_wAt, if_neg (by omega), if_pos hj]

/-- The closure's W[0], in terms of the W that pass 2 leaves (R216). -/
theorem mixScratch_wAt_zero (m : Nat) (t y : Block) (c : Scratch) : (mixScratch m t y c).wAt 0
    = y ^^^ t ^^^ xorSum (fun j => (mixScratch m t y c).wAt (j + 1)) (m - 1) := by
  rw [mixScratch_wAt, if_pos rfl, xorSum_congr fun j hj => mixScratch_wAt_of_pos t y c (by omega) (by omega : j + 1 < m)]

theorem mixScratch_ltAt (m : Nat) (t y : Block) (c : Scratch) (n : Nat) : (mixScratch m t y c).ltAt n = c.ltAt n := by
  rw [Scratch.ltAt, mixScratch_lt, Scratch.ltAt]

/-- Settles O28: pass 2 and the closure in closed form (`mixScratch_wAt_of_pos`, `mixScratch_wAt_zero`). -/
theorem foldAnswerMixesTheBlocks : Obligations.FoldAnswerMixesTheBlocks := by
  intro s i y hp hr h1 hk hi
  refine ⟨_, exec_transform_answer hi hp hr (emeAnswered_fold hk), fun _ => mixScratch_wAt_of_pos _ _ _,
    mixScratch_wAt_zero _ _ _ _, mixScratch_mc _ _ _ _, mixScratch_mm _ _ _ _, mixScratch_x _ _ _ _, ⟨rfl, ?_, rfl⟩,
    mixScratch_ltAt _ _ _ _, mixScratch_m _ _ _ _, s.cipherCall_frame _ _ _ _⟩
  show (mixScratch s.scratch.m.toNat s.tweak y s.scratch).m.toNat + 2 + 0 = _
  rw [mixScratch_m]

/-- Before the last block of pass 3 the next block's call follows (R217). -/
theorem emePass3_of_lt (hj : j + 1 < s.scratch.m.toNat) :
    emePass3 dir j y s
      = pass3Call dir (j + 1) { s with scratch := s.scratch.putW j (xorBlocks y (s.scratch.ltAt j)) } := if_pos hj

/-- After the last block of pass 3 W is committed (R218). -/
theorem emePass3_of_eq (hj : j + 1 = s.scratch.m.toNat) :
    emePass3 dir j y s = (State.commitOut { s with scratch := s.scratch.putW j (xorBlocks y (s.scratch.ltAt j)) }
      s.scratch.m.toNat (s.scratch.putW j (xorBlocks y (s.scratch.ltAt j))).wAt).complete := if_neg (by omega)

/-- Settles O29: `W[j] <- y XOR LT[j]`, and the call for the untouched W[j+1]. -/
theorem pass3AnswerIsUnmixedAndGoesOn : Obligations.Pass3AnswerIsUnmixedAndGoesOn := by
  intro s i y j hp hr hk hj hi
  refine ⟨_, exec_transform_answer hi hp hr ((emeAnswered_pass3 hk (by omega)).trans (emePass3_of_lt hj)), fun n => ?_,
    ⟨rfl, ?_, ?_⟩, fun _ => rfl, rfl, s.cipherCall_frame _ _ _ _⟩
  · rw [← xorBlocks_eq]
    exact s.scratch.wAt_putW j n _
  · exact (by omega : s.scratch.m.toNat + 2 + (j + 1) = s.scratch.m.toNat + 3 + j)
  · exact congrArg (Req.mk _) ((s.scratch.wAt_putW j (j + 1) _).trans (if_neg (by omega)))

/-- Settles O30: after the last W[m-1] the commit of W to OUT and the end, in the same step. -/
theorem lastAnswerCommitsAndCompletes : Obligations.LastAnswerCommitsAndCompletes := by
  intro s i y hp hr h1 _ hk hi
  obtain ⟨n, hn⟩ := Nat.exists_eq_add_of_le' h1
  refine ⟨_, exec_transform_answer hi hp hr ((emeAnswered_pass3 (j := n) (by omega) (by omega)).trans
    (emePass3_of_eq hn.symm)), fun j hj => ?_, State.complete_succeeded _, by simp, ?_,
    (State.commitOut_bytes _ _ _).complete⟩
  · rw [State.complete_outBlock, State.outBlock_commitOut _ _ hj, Scratch.wAt_putW, xorBlocks_eq]
    by_cases h : j = n
    · rw [if_pos h, if_pos (by omega), h]
    · rw [if_neg h, if_neg (by omega)]
  · exact ((s.scratch_outside _).trans (State.commitOut_outside _ _ _)).complete

end

/-! ## CALLS at a command's end (R219, R253) -/

theorem callCount_eq_of_unused {i : Instr} (h : usesCount i = false) (m n : Nat) : callCount m i = callCount n i := by
  cases i with
  | ltgen | emee | emed => cases h
  | _ => rfl

theorem callCount_pos_of_uses {i : Instr} (h : usesCount i = true) (m : Nat) : 0 < callCount m i := by
  cases i with
  | ltgen => exact Nat.one_pos
  | emee | emed => exact Nat.succ_pos _
  | _ => cases h

/-- Where a command completes, the block count that its number of calls depends on is MLEN's (R258). -/
theorem MachineInv.callCount_completes {s : State} {i : Instr} (h : MachineInv s)
    (hp : s.phase = .exec ∨ s.phase = .await) (hi : decode s.lastcmd = .ok i)
    (hc : s.calls.toNat = callCount s.scratch.m.toNat i) : s.calls.toNat = callCount (s.mlen.toNat / 16) i := by
  by_cases hu : usesCount i = true
  · rcases hp with hp | hp
    · have h0 := h.atExec hp
      have hpos := callCount_pos_of_uses hu s.scratch.m.toNat
      rw [← hc, h0] at hpos
      cases hpos
    · obtain ⟨-, j, hj⟩ := h.atAwait hp
      obtain rfl : j = i := Except.ok.inj (hj.command.symm.trans hi)
      obtain ⟨hm, -, -⟩ := hj.count hu
      rw [hc, hm, Nat.mul_div_cancel_left _ (by decide)]
  · rw [hc, callCount_eq_of_unused (by simpa using hu)]

/-- What R219 and R253 say of CALLS where `t` ends the command of `s`. -/
def EndCallsRule (s t : State) : Prop :=
  (t.resultValid = true → ∃ i, decode s.lastcmd = .ok i ∧ t.calls.toNat = callCount (s.mlen.toNat / 16) i)
  ∧ (t.errcode = .invalidBlockSize ∨ t.errcode = .invalidTweakLength ∨ t.errcode = .invalidMessageLength
      ∨ t.errcode = .illegalCommand → t.calls = 0)
  ∧ (t.errcode = .underlyingCipherFailure → t.calls.toNat = s.k + 1)

theorem EndCallsRule.segment {s t : State} {b : Bool} (h : MachineInv s) (hs : Segment s b t) (hb : t.busy = false) :
    EndCallsRule s t := by
  cases hs with
  | @stops e hp he => exact ⟨nofun, fun _ => h.atExec hp, fun (hu : e = _) => by simp [hu] at he⟩
  | fails hp => exact ⟨nofun, fun he => by simp at he, fun _ => (h.atAwait hp).1⟩
  | completes i m hp hi hc =>
    exact ⟨fun _ => ⟨i, hi, h.callCount_completes hp hi hc⟩, fun he => by simp at he, nofun⟩
  | calls _ _ _ _ _ hp =>
    have hidle := h.phase_idle hb
    simp [hidle] at hp

/-- Settles O55: a step that ends a command is a segment of it, for every other step but a reset keeps BUSY. -/
theorem callsCountsTheCommandsCalls : Obligations.CallsCountsTheCommandsCalls := by
  intro s t h hs hb hend hr
  have segment : ∀ {b}, Segment s.afterEvent b t → EndCallsRule s t := fun hseg => by
    simpa [EndCallsRule] using EndCallsRule.segment h.afterEvent hseg hend
  have rule : EndCallsRule s t := by
    cases h.stepEffect hs with
    | access x _ =>
      have hbusy := (State.hostAccess_busy_sequencer (s := s.afterEvent) (by simpa using hb) x).1
      simp [hbusy] at hend
    | turn _ _ hseg => exact segment hseg
    | answer _ _ _ hseg => exact segment hseg
    | handshake _ _ => simp [hb] at hend
    | blockSize v _ => simp [hb] at hend
    | reset v hv _ =>
      obtain rfl : v = true := hr
      simp [h.rstN_of_busy hb] at hv
    | nothing _ => simp [hb] at hend
  exact rule

/-! ## Runs of LTGEN, EMEE and EMED, call by call (R219, R228) -/

theorem callCount_le {m : Nat} (hm : m ≤ 128) (i : Instr) : callCount m i ≤ 258 := by
  cases i with
  | emee | emed => exact (by omega : 2 * m + 2 ≤ 258)
  | _ => simp [callCount]

/-- `t` presents request number `k` of the command `i` that was accepted in `s` and has run without a failure since, each
request so far counted, the block count latched, and no register of the host and no byte changed. -/
structure AtCall (f : Dir → Block → Block) (i : Instr) (m : Nat) (s : State) (k : Nat) (t : State) : Prop where
  phase : t.phase = .issue
  busy : t.busy = true
  index : t.k = k
  calls : t.calls.toNat = k
  latched : t.scratch.cur = s.scratch.cur
  count : t.scratch.m.toNat = m
  outside : SameOutside { s with inputs := [] } t
  bytes : SameBytes s t
  stage : i = .emee ∨ i = .emed → TransformStage f i m s t

section
variable {f : Dir → Block → Block} {fails : Nat → Bool} {i : Instr} {m k : Nat} {s t u : State}

/-- The request of `s` accepted, with the agent's response to it on the port (R163). -/
def State.answeredBy (f : Dir → Block → Block) (fails : Nat → Bool) (s : State) : State :=
  { s.handshaken with rsp := some (agentResponse f fails s) }

theorem SameOutside.rsp (h : SameOutside s t) (r : Option Response) : SameOutside s { t with rsp := r } :=
  h.trans ⟨rfl, rfl, rfl, rfl, rfl, rfl, rfl, rfl, rfl, rfl, rfl⟩

/-- The EXEC step of LTGEN, EMEE and EMED leads to call number 0 (R191, R212). -/
theorem AtCall.start (hi : i = .ltgen ∨ i = .emee ∨ i = .emed) (hacc : Accepted i s) (hready : CommandReady m i s) :
    ∃ t, AtCall f i m s 0 t ∧ ∀ n, agentRun f fails (n + 1) s = agentRun f fails n t := by
  have htweak : i = .ltgen ∨ ((i = .emee ∨ i = .emed) ∧ s.tlen = 16) :=
    hi.imp_right fun h => ⟨h, hready.tweak (by rcases h with rfl | rfl <;> decide)⟩
  have hx : exec i { s with inputs := [] } = .next _ :=
    exec_zeroBlockCall hacc.phase hready.blockSize hready.length hready.positive hready.bounded htweak
  refine ⟨_, ?_, agentRun_exec hacc hx⟩
  exact {
    phase := rfl
    busy := hacc.busy
    index := rfl
    calls := congrArg BitVec.toNat hacc.calls
    latched := rfl
    count := State.latchCount_m hready.length hready.bounded
    outside := (State.latchCount_outside _).trans (State.cipherCall_outside _ 0 .enc 0)
    bytes := fun _ => rfl
    stage := fun hi => .exec_start (t := { s with inputs := [] }) hi hacc.phase hacc.busy (fun _ => rfl) hx }

/-- Where the agent's response to call `k` leads: with a failure to the end with code 5; else after the last call to the
end with success, and before it to the next call. -/
theorem AtCall.answer (h : AtCall f i m s k t) (hacc : Accepted i s) (hready : CommandReady m i s)
    (hk : k < callCount m i) :
    ∃ u, (∀ n, agentRun f fails (n + 2) t = agentRun f fails n u) ∧ u.calls.toNat = k + 1
      ∧ SameOutside { s with inputs := [] } u
      ∧ ((fails k = true ∧ Failed .underlyingCipherFailure u ∧ SameBytes s u)
        ∨ (fails k = false ∧ k + 1 = callCount m i ∧ Succeeded u
          ∧ (i = .emee ∨ i = .emed → TransformEnd f i m s u))
        ∨ (fails k = false ∧ k + 1 < callCount m i ∧ AtCall f i m s (k + 1) u)) := by
  have hcount := callCount_le hready.bounded i
  have hcalls : (t.calls + 1).toNat = k + 1 := by
    rw [BitVec.toNat_add, h.calls]
    exact Nat.mod_eq_of_lt (by show k + 1 < 2 ^ 32; omega)
  have herr : (agentResponse f fails t).err = fails k := congrArg fails h.index
  have hlast : t.lastcmd = s.lastcmd := h.outside.lastcmd
  obtain ⟨v, hv, hcases⟩ := exec_answer (s := t.answeredBy f fails) i rfl rfl
    (fun _ => h.count.symm ▸ hready.positive) (h.index.symm ▸ h.count.symm ▸ hk)
  have hpresented : SameOutside { s with inputs := [] } (t.answeredBy f fails) := { h.outside with inputs := rfl }
  have hout : SameOutside { s with inputs := [] } { v with rsp := none } :=
    (hpresented.trans (exec_outside hv)).rsp none
  have hstage : i = .emee ∨ i = .emed → TransformStage f i m s { v with rsp := none } := fun hi =>
    .exec_answer (t := t.answeredBy f fails) (r := agentResponse f fails t) hi rfl h.busy rfl (fun _ => rfl)
      ((h.stage hi).keep h.busy (fun _ => .inl h.phase) rfl rfl) h.count hready.positive h.outside.tweak
      (hcalls.trans (congrArg (· + 1) h.index.symm)) h.bytes hv
  refine ⟨{ v with rsp := none }, agentRun_call (h.outside.rstN.trans hacc.rstN) h.phase
    (h.latched.trans (by rw [hlast, hacc.latched])) (by rw [hlast, hacc.command, decode_encode]) hv, ?_⟩
  rw [← herr]
  rcases hcases with ⟨hr, rfl⟩ | ⟨hr, hk', mem, rfl, -⟩ | ⟨hr, hk', c, dir, x, rfl, hcur, hm⟩
  · exact ⟨hcalls, hout, .inl ⟨hr, ⟨rfl, rfl, rfl, rfl, rfl⟩, h.bytes⟩⟩
  · have hk : k + 1 = callCount m i := by rw [← h.index, ← h.count]; exact hk'
    exact ⟨hcalls, hout, .inr (.inl ⟨hr, hk, ⟨rfl, rfl, rfl, rfl, rfl⟩, fun hi => (hstage hi).ended rfl⟩)⟩
  · have hk : k + 1 < callCount m i := by rw [← h.index, ← h.count]; exact hk'
    exact ⟨hcalls, hout, .inr (.inr ⟨hr, hk, {
      phase := rfl
      busy := h.busy
      index := congrArg (· + 1) h.index
      calls := hcalls
      latched := hcur.trans h.latched
      count := (congrArg BitVec.toNat hm).trans h.count
      outside := hout
      bytes := h.bytes
      stage := hstage }⟩)⟩

/-- A run in which no call before call `n` fails reaches call `n`, two steps a call after the EXEC step. -/
theorem AtCall.reached (hi : i = .ltgen ∨ i = .emee ∨ i = .emed) (hacc : Accepted i s) (hready : CommandReady m i s)
    {n : Nat} (hn : n < callCount m i) (hf : ∀ k < n, fails k = false) :
    ∃ t, AtCall f i m s n t ∧ ∀ r, agentRun f fails (1 + 2 * n + r) s = agentRun f fails r t := by
  induction n with
  | zero =>
    obtain ⟨t, ht, hrun⟩ := AtCall.start (f := f) (fails := fails) hi hacc hready
    exact ⟨t, ht, fun r => by rw [← hrun, Nat.mul_zero, Nat.add_comm]⟩
  | succ n ih =>
    obtain ⟨t, ht, hrun⟩ := ih (by omega) fun k hk => hf k (by omega)
    obtain ⟨u, hrun', -, -, ⟨hfail, -⟩ | ⟨-, hend, -⟩ | ⟨-, -, hu⟩⟩ :=
      ht.answer (fails := fails) hacc hready (by omega)
    · rw [hf n (by omega)] at hfail
      cases hfail
    · omega
    · exact ⟨u, hu, fun r => by rw [← hrun', ← hrun, show 1 + 2 * (n + 1) + r = 1 + 2 * n + (r + 2) by omega]⟩

/-- Settles O60: the run reaches call `n` (`AtCall.reached`), whose response is the failure. -/
theorem failingCallEndsTheTransform : Obligations.FailingCallEndsTheTransform := by
  intro f fails s m n i hi hacc hready hn hfail hf
  obtain ⟨t, ht, hrun⟩ := AtCall.reached (f := f) hi hacc hready hn hf
  obtain ⟨u, hrun', hcalls, hout, ⟨-, hend, hbytes⟩ | ⟨hok, -⟩ | ⟨hok, -⟩⟩ :=
    ht.answer (fails := fails) hacc hready hn
  · refine ⟨u, (hrun 2).trans (hrun' 0), hend, hcalls, ?_, hout.tweak, hout.mlen, hout.tlen, hbytes⟩
    rw [State.bcReqValid, hend.phase]
    rfl
  · simp [hfail] at hok
  · simp [hfail] at hok

theorem usesCount_of_transform_or_ltgen (hi : i = .ltgen ∨ i = .emee ∨ i = .emed) : usesCount i = true := by
  rcases hi with rfl | hi
  · rfl
  · exact usesCount_transform hi

/-- A run of LTGEN, EMEE or EMED in which no call fails ends with success after its last call. -/
theorem promptRun_succeeds (f : Dir → Block → Block) (hi : i = .ltgen ∨ i = .emee ∨ i = .emed) (hacc : Accepted i s)
    (hready : CommandReady m i s) :
    ∃ u, promptRun f (1 + 2 * callCount m i) s = .next u ∧ Succeeded u ∧ u.calls.toNat = callCount m i
      ∧ SameOutside { s with inputs := [] } u ∧ (i = .emee ∨ i = .emed → TransformEnd f i m s u) := by
  obtain ⟨n, hn⟩ := Nat.exists_eq_add_of_le' (callCount_pos_of_uses (usesCount_of_transform_or_ltgen hi) m)
  obtain ⟨t, ht, hrun⟩ :=
    AtCall.reached (f := f) (fails := fun _ => false) hi hacc hready (n := n) (by omega) fun _ _ => rfl
  obtain ⟨u, hrun', hcalls, hout, ⟨hfail, -⟩ | ⟨-, -, hend, htransform⟩ | ⟨-, hmore, -⟩⟩ :=
    ht.answer (fails := fun _ => false) hacc hready (by omega)
  · cases hfail
  · rw [hn]
    exact ⟨u, (hrun 2).trans (hrun' 0), hend, hcalls, hout, htransform⟩
  · omega

/-! ## The transform's run, its inverse and its independence of the past (R225, R226) -/

theorem TransformReady.commandReady (h : TransformReady m s) (i : Instr) : CommandReady m i s :=
  ⟨h.blockSize, fun _ => h.tweak, h.length, h.positive, h.bounded⟩

theorem CommandReady.transformReady (h : CommandReady m i s) (hi : i ≠ .ltgen) : TransformReady m s :=
  ⟨h.blockSize, h.tweak hi, h.length, h.positive, h.bounded⟩

theorem callCount_transform (hi : i = .emee ∨ i = .emed) (m : Nat) : callCount m i = 2 * m + 2 := by
  rcases hi with rfl | rfl <;> rfl

end

/-- Settles O31: the run's end (`promptRun_succeeds`) is one of `TransformEnd`'s, and no error. -/
theorem transformRunsToItsEnd : Obligations.TransformRunsToItsEnd := by
  intro f s m i hi hacc hready
  obtain ⟨t, hrun, hend, hcalls, hout, htransform⟩ := promptRun_succeeds f (.inr hi) hacc (hready.commandReady i)
  rw [callCount_transform hi] at hrun
  rcases htransform hi with ⟨-, hc, hvalue, hbytes⟩ | ⟨e, he, hfail, -⟩
  · exact ⟨t, hrun, hend, hc, hvalue, hout.tweak, hout.mlen, hout.tlen, hbytes⟩
  · exact absurd (hfail.errcode.symm.trans hend.errcode) he

/-- Settles O35: both runs compute the transform (O31), and the transforms undo each other (O34). -/
theorem decryptionRunUndoesEncryptionRun : Obligations.DecryptionRunUndoesEncryptionRun := by
  intro f s1 t1 s2 m i1 i2 hdec henc hi hacc1 hready1 hrun1 hacc2 hready2 htweak hin
  have hundo : (i1 = .emee ∨ i1 = .emed) ∧ (i2 = .emee ∨ i2 = .emed)
      ∧ ∀ x, f (directionOf i2) (f (directionOf i1) x) = x := by
    rcases hi with ⟨rfl, rfl⟩ | ⟨rfl, rfl⟩
    · exact ⟨.inl rfl, .inr rfl, hdec⟩
    · exact ⟨.inr rfl, .inl rfl, henc⟩
  obtain ⟨hi1, hi2, hgf⟩ := hundo
  obtain ⟨u, hu, -, -, hvalue1, -⟩ := transformRunsToItsEnd f s1 m i1 hi1 hacc1 hready1
  obtain rfl : u = t1 := Host.Outcome.next.inj (hu.symm.trans hrun1)
  obtain ⟨t2, hrun2, hend, -, hvalue2, -⟩ := transformRunsToItsEnd f s2 m i2 hi2 hacc2 hready2
  refine ⟨t2, hrun2, hend, fun j hj => ?_⟩
  rw [hvalue2 j hj, htweak, emeValue_congr (fun i hi => (hin i hi).trans (hvalue1 i hi)) hj]
  exact transformsUndoEachOther _ _ _ _ m s1.inBlock hgf j hj

/-- Commands that ended with success have the same STATUS but for OVR (R38, R254). -/
theorem Succeeded.statusWord_eq {t t' : State} (h : Succeeded t) (h' : Succeeded t') (ho : t'.ovr = t.ovr) :
    t'.statusWord = t.statusWord := by
  simp only [State.statusWord, h.busy, h.done, h.resultValid, h.errcode, h'.busy, h'.done, h'.resultValid, h'.errcode, ho]

/-- What LTGEN, EMEE and EMED leave in OUT[j]: the table's entry (R196) or the transform's block (R220, R221). -/
def commandValue (f : Dir → Block → Block) (i : Instr) (t : Block) (m : Nat) (p : Nat → Block) (j : Nat) : Block :=
  if i = .ltgen then lValue (f .enc 0) j else emeValue (f (directionOf i)) (f .enc 0) t m p j

/-- OUT after a run in which no call fails: LTGEN's by O25, the transforms' by O31. -/
theorem promptRun_outBlock {f : Dir → Block → Block} {i : Instr} {m : Nat} {s u : State}
    (hi : i = .ltgen ∨ i = .emee ∨ i = .emed) (hacc : Accepted i s) (hready : CommandReady m i s)
    (hrun : promptRun f (1 + 2 * callCount m i) s = .next u) :
    ∀ j < m, u.outBlock j = commandValue f i s.tweak m s.inBlock j := by
  rcases hi with rfl | hi
  · obtain ⟨v, hv, -, -, htable, -⟩ := ltgenRunsToItsEnd f s m hacc hready.blockSize hready.length hready.positive
      hready.bounded
    obtain rfl : v = u := Host.Outcome.next.inj (hv.symm.trans hrun)
    exact htable
  · have hne : i ≠ .ltgen := by rcases hi with rfl | rfl <;> decide
    rw [callCount_transform hi] at hrun
    obtain ⟨v, hv, -, -, hvalue, -⟩ := transformRunsToItsEnd f s m i hi hacc (hready.transformReady hne)
    obtain rfl : v = u := Host.Outcome.next.inj (hv.symm.trans hrun)
    intro j hj
    rw [hvalue j hj, commandValue, if_neg hne]

theorem commandValue_congr {f : Dir → Block → Block} {i : Instr} {t t' : Block} {m j : Nat} {p p' : Nat → Block}
    (h : i ≠ .ltgen → t' = t ∧ ∀ n < m, p' n = p n) (hj : j < m) :
    commandValue f i t' m p' j = commandValue f i t m p j := by
  unfold commandValue
  split
  · rfl
  · next hne =>
    obtain ⟨rfl, hp⟩ := h hne
    exact emeValue_congr hp hj

/-- Settles O36: OUT holds the command's value (`promptRun_outBlock`), a function of the inputs alone. -/
theorem noHiddenStateEntersAResult : Obligations.NoHiddenStateEntersAResult := by
  intro f s s' t t' m i hi hacc hacc' hready hready' hagree hrun hrun'
  obtain ⟨u, hu, hend, hcalls, hout, -⟩ := promptRun_succeeds f hi hacc hready
  obtain rfl : u = t := Host.Outcome.next.inj (hu.symm.trans hrun)
  obtain ⟨u', hu', hend', hcalls', hout', -⟩ := promptRun_succeeds f hi hacc' hready'
  obtain rfl : u' = t' := Host.Outcome.next.inj (hu'.symm.trans hrun')
  refine ⟨fun j hj => ?_, BitVec.eq_of_toNat_eq (hcalls'.trans hcalls.symm), fun ho =>
    hend.statusWord_eq hend' (hout'.ovr.trans (ho.trans hout.ovr.symm))⟩
  rw [promptRun_outBlock hi hacc hready hrun j hj, promptRun_outBlock hi hacc' hready' hrun' j hj,
    commandValue_congr hagree hj]

end Sys2Proof.Machine
end

section
/-! PROOFS. The exceptions family: no step faults, the precondition errors and a failed cipher call as ends of a command
that change nothing else, and the interrupt line (spec 60_exceptions.md rules R250 to R265). -/

namespace Sys2Proof.Machine

/-! ## Every step answers a next state (R250, R255, R263) -/

theorem execStep_next (s : State) : ∃ t, execStep s = .next t := by
  rcases execStep_cases s with ⟨-, i, -, -, h⟩ | ⟨-, -, h⟩ | ⟨-, h⟩
  · obtain ⟨t, ht, -⟩ := exec_progress i s
    exact ⟨t, h.trans ht⟩
  · exact ⟨_, h⟩
  · exact ⟨_, h⟩

theorem responseStep_next (r : Response) (s : State) : ∃ t, responseStep r s = .next t := by
  rcases responseStep_cases r s with ⟨-, i, -, h⟩ | ⟨-, h⟩
  · obtain ⟨t, ht, -⟩ := exec_progress i { s with rsp := some r }
    exact ⟨_, by rw [h, ht, mapNext_next]⟩
  · exact ⟨_, h⟩

theorem react_next (e : Event) (s : State) : ∃ t, react e s = .next t := by
  cases e with
  | host x => exact ⟨_, rfl⟩
  | sequencer =>
    rw [react]
    split
    · exact execStep_next s
    · exact ⟨_, rfl⟩
  | reqReady => exact ⟨_, rfl⟩
  | rsp r =>
    rw [react]
    split
    · exact responseStep_next r s
    · exact ⟨_, rfl⟩
  | blockSize v => exact ⟨_, rfl⟩
  | resetLow => exact ⟨_, rfl⟩
  | resetHigh => exact ⟨_, rfl⟩
  | quiet => exact ⟨_, rfl⟩

/-- Settles O8: the step is `react` of its event, and only the sequencer's turn and a response run a command. -/
theorem everyStepAnswersANextState : Obligations.EveryStepAnswersANextState :=
  fun s => react_next s.nextEvent s.afterEvent

/-! ## Errors (R255 to R261) -/

/-- What an error leaves: the error end, with CALLS, the registers and the bytes kept (R255). -/
theorem State.raiseError_spec (s : State) (e : ErrCode) :
    Failed e (s.raiseError e) ∧ (s.raiseError e).calls = s.calls ∧ SameOutside s (s.raiseError e)
      ∧ SameBytes s (s.raiseError e) :=
  ⟨s.raiseError_failed e, rfl, s.raiseError_outside e, s.raiseError_bytes e⟩

theorem State.checked_of_error {s : State} {checks : List (Option ErrCode)} {e : ErrCode} (body : State → State)
    (h : firstError checks = some e) : s.checked checks body = s.raiseError e := by
  rw [State.checked, h]

/-- The five cipher commands check the block size first (R259). -/
theorem exec_cipherCommand {i : Instr} (hi : (∃ d a, i = .bce d a ∨ i = .bcd d a) ∨ i = .ltgen ∨ i = .emee ∨ i = .emed) :
    ∃ (checks : State → List (Option ErrCode)) (body : State → State) (answered : Block → State → State),
      ∀ s, exec i s = withCalls s (fun s => s.checked (s.checkBlockSize :: checks s) body) answered := by
  rcases hi with ⟨d, a, rfl | rfl⟩ | rfl | rfl | rfl
  · exact ⟨_, _, _, exec_bce d a⟩
  · exact ⟨_, _, _, exec_bcd d a⟩
  · exact ⟨_, _, _, exec_ltgen⟩
  · exact ⟨_, _, _, exec_emee⟩
  · exact ⟨_, _, _, exec_emed⟩

/-- Settles O19: the block size is the first check of all five commands (`exec_cipherCommand`). -/
theorem wrongBlockSizeEndsWithCode1 : Obligations.WrongBlockSizeEndsWithCode1 := by
  intro s i hp hb hi
  obtain ⟨checks, body, answered, h⟩ := exec_cipherCommand hi
  refine ⟨_, ?_, s.raiseError_spec _⟩
  rw [h, withCalls_exec hp, State.checkBlockSize_some hb, State.checked_of_error body rfl]

/-- Settles O22: a failed response ends a command with calls, whatever its body (`withCalls_failure`). -/
theorem cipherFailureEndsWithCode5 : Obligations.CipherFailureEndsWithCode5 := by
  intro s i y hp hr hi
  obtain ⟨checks, body, answered, h⟩ := exec_cipherCommand hi
  exact ⟨_, by rw [h, withCalls_failure hp hr], s.raiseError_spec _⟩

/-- With the earlier checks passed, the EXEC step of LTGEN, EMEE and EMED rests on the message length alone (R259). -/
theorem exec_lengthCheck {s : State} {i : Instr} (hp : s.phase = .exec) (hb : s.bcBlockSize = 16)
    (hi : i = .ltgen ∨ ((i = .emee ∨ i = .emed) ∧ s.tlen = 16)) :
    exec i s = .next (s.checked [s.checkMessageLength] fun s => s.latchCount.cipherCall 0 .enc 0) := by
  rcases hi with rfl | ⟨hi, ht⟩
  · rw [exec_ltgen, withCalls_exec hp, ltgenStart, State.checkBlockSize_none hb]
    rfl
  · rw [exec_transform hi, withCalls_exec hp, emeStart, State.checkBlockSize_none hb, State.checkTweak_none ht]
    rfl

/-- Settles O20: TLEN is the second check of the transforms; once it passes, the command fails with code 3 or presents a
request. -/
theorem wrongTweakLengthEndsWithCode2 : Obligations.WrongTweakLengthEndsWithCode2 := by
  intro s i hp hb hi
  by_cases ht : s.tlen = 16
  · refine ⟨_, exec_lengthCheck hp hb (.inr ⟨hi, ht⟩), fun hne => absurd (congrArg BitVec.toNat ht) hne, fun _ hf => ?_⟩
    cases hlen : s.checkMessageLength with
    | some e =>
      rw [hlen, checkMessageLength_error hlen] at hf
      exact absurd hf.errcode nofun
    | none =>
      rw [hlen] at hf
      exact absurd hf.phase nofun
  · have herr : emeStart s = s.raiseError .invalidTweakLength := by
      rw [emeStart, State.checkBlockSize_none hb, State.checkTweak_some ht, State.checked_of_error _ rfl]
    exact ⟨_, by rw [exec_transform hi, withCalls_exec hp, herr], fun _ => s.raiseError_spec _,
      fun h => absurd (BitVec.eq_of_toNat_eq h) ht⟩

/-- Settles O21: the message length is the check left (`exec_lengthCheck`), and passing it latches `m`. -/
theorem wrongMessageLengthEndsWithCode3 : Obligations.WrongMessageLengthEndsWithCode3 := by
  intro s i hp hb hi
  refine ⟨_, exec_lengthCheck hp hb hi, fun hlen => ?_, fun ⟨m, h1, h2, hlen⟩ => ?_⟩
  · have herr : s.checkMessageLength = some .invalidMessageLength := if_pos hlen
    rw [herr, State.checked_of_error _ rfl]
    exact s.raiseError_spec _
  · rw [State.checkMessageLength_none hlen h1 h2]
    exact ⟨rfl, rfl, (State.latchCount_m hlen h2).trans (by omega)⟩

/-! ## The interrupt line (R264, R265) -/

theorem State.irq_iff (s : State) : s.irq = true ↔ s.irqEn = true ∧ s.done = true := Bool.and_eq_true_iff

theorem State.irq_of_done {s : State} (h : s.done = true) : s.irq = s.irqEn := by rw [State.irq, h, Bool.and_true]

/-- Settles O45: an end sets DONE, and the accesses are those of O44. -/
theorem interruptFollowsDoneAndEnable : Obligations.InterruptFollowsDoneAndEnable := by
  refine fun s => ⟨s.irq_iff, fun t e hend hen => ?_, fun hr => ⟨?_, ?_, ?_⟩⟩
  · rw [State.irq_of_done (hend.elim Succeeded.done Failed.done), hen]
  · rw [(writesToCtrlAndStatusTakeEffect s 2 hr).2]
    exact Bool.and_false _
  · rw [(writesToCtrlAndStatusTakeEffect s 0 hr).1]
    rfl
  · rw [(writesToCtrlAndStatusTakeEffect s 1 hr).1]
    rfl

end Sys2Proof.Machine
end

section
/-! PROOFS. The reset family: a change of `rst_n` gives the registers their reset values, and an access made in reset is a
bus error without an effect (spec 70_reset_and_hazards.md rules R280 to R282). -/

namespace Sys2Proof.Machine

/-- A change of the level of `rst_n`, down or up, resets the registers (R280). -/
theorem State.setReset_of_change {s : State} {v : Bool} (h : s.rstN = !v) :
    s.setReset v = { s.resetRegisters with rstN := v } := if_neg (by simp [h])

/-- The step in which `rst_n` changes: the event taken, and the registers reset, whatever the phase (R280, R282). -/
theorem step_reset {s : State} {v : Bool} (h : s.rstN = !v)
    (he : s.nextEvent = if v then .resetHigh else .resetLow) :
    step s = .next { s.afterEvent.resetRegisters with rstN := v } := by
  rw [step, he, ← State.setReset_of_change ((afterEvent_rstN s).trans h)]
  cases v <;> rfl

/-- After a change of `rst_n` every byte of IN and OUT reads as an unwritten one of the new epoch (R281). -/
theorem State.byteAt_reset (s : State) (v : Bool) (a : Nat) :
    State.byteAt { s.resetRegisters with rstN := v } a = unwrittenByte (s.epoch + 1) a := rfl

/-- A host access while `rst_n = 0` changes the answer, to a bus error, and the count of draws alone (R280). -/
theorem State.hostAccess_inReset {s : State} (h : s.rstN = false) (x : HostAccess) :
    ∃ r n, s.hostAccess x = { s with hAnswer := { rdata := r, err := true }, draws := n } := by
  have hreset : s.hostAccess x = s.accessInReset x := if_neg (by simp [h])
  rw [hreset]
  exact s.accessInReset_eq x

/-- Settles O49: either change of `rst_n` is `step_reset`, whose registers and bytes are those of `resetRegisters`, and an
access to the block it leaves in reset is one of `State.hostAccess_inReset`. -/
theorem resetAbandonsTheCommand : Obligations.ResetAbandonsTheCommand := by
  intro s hchange
  obtain ⟨v, hv, he⟩ : ∃ v, s.rstN = !v ∧ s.nextEvent = if v then .resetHigh else .resetLow := by
    rcases hchange with ⟨hr, he⟩ | ⟨hr, he⟩
    · exact ⟨false, hr, he⟩
    · exact ⟨true, hr, he⟩
  refine ⟨_, step_reset hv he, by simp [hv], rfl, State.statusWord_reset _ v, rfl, rfl, rfl, rfl, rfl, rfl, rfl, rfl, rfl,
    rfl, fun a => ?_, fun hlow => State.hostAccess_inReset hlow⟩
  rw [State.byteAt_reset, afterEvent_epoch]

end Sys2Proof.Machine
end
